-- ==== Sys2Proof/Word.lean ====
section
/-! DEFINITION. The word types of the block: 32-bit command words and register values (R14, R61), 16-bit handles and
offset fields, 8-bit framebuffer cells. -/

namespace Sys2Proof

/-- A command word, an event word or the value of a register: 32 bits (R14, R61). -/
abbrev Word := BitVec 32

/-- A hook handle or the 16-bit field B of a command word (R14, R62). -/
abbrev Half := BitVec 16

/-- A framebuffer cell or the 8-bit field A of a command word (R14, R62). -/
abbrev Byte := BitVec 8

end Sys2Proof
end

