-- ==== Sys2Proof/Config.lean ====
section
/-! DEFINITION. The fixed line constants (R7, R8), the resolution profile (R9), the parameters that the model takes
as arguments (R10, R13), and the free values: constants without a body, which no proof can evaluate. -/

namespace Sys2Proof

/-- The pulse-width selector: NARROW (horizontal) or WIDE (vertical) (R18, R27). -/
inductive Duty
  | narrow
  | wide
deriving DecidableEq, Repr, Inhabited

/-- The agents of R6, each by the step it takes: the six event words of R63, and the two program steps that R70
writes `H` (host main context) and `K` (hook context). -/
inductive Agent
  | boundary
  | compare
  | tick
  | hookret
  | dmabyte
  | dmadone
  | host
  | hook
deriving DecidableEq, Repr, Inhabited

/-- A resolution profile: the six fields of R9. -/
structure Profile where
  /-- `W`, pixelWidth. -/
  pixelWidth : Nat
  /-- `H`, pixelHeight. -/
  pixelHeight : Nat
  /-- `A`, scanLinesUsed: physical scanlines after doubling (90_conflicts.md C3). -/
  scanLinesUsed : Nat
  /-- `RB`, rowByteWidth. -/
  rowByteWidth : Nat
  /-- `D`, lineDoubled. -/
  lineDoubled : Bool
  /-- `DIV`, outputClockDivisor, opaque to every rule. -/
  outputClockDivisor : Word
deriving DecidableEq, Repr

/-- The parameters of R10 and R13 that a run fixes. They are plain data, held in State and written by no step, so
that a statement about every state speaks of every configuration (log 1). -/
structure Params where
  /-- PROFILE_TABLE (R10). -/
  profileTable : List Profile
  /-- DEFAULT_PROFILE_ID (R10). -/
  defaultProfileId : Nat
  /-- TIMING_ASSUMPTIONS (R125). -/
  timingAssumptions : Bool
  /-- POLL_DENSE (R112). -/
  pollDense : Bool
  /-- The sizes for which ALLOC_OK is false (R13, log 12). -/
  allocFails : List Nat
  /-- HOOK_PROGRAM: the program of each handle; a handle that is not listed has the empty program (R81, log 13). -/
  hookPrograms : List (Half × List Word)
  /-- MAIN_PROGRAM (R100). -/
  mainProgram : List Word
deriving DecidableEq, Repr

namespace Config

/-- Lines per frame (R7). -/
abbrev ntscLine : Nat := 264
/-- First vertical-sync line (R7). -/
abbrev ntscSTop : Nat := 3
/-- Last vertical-sync line (R7). -/
abbrev ntscSEnd : Nat := 5
/-- First active-video line (R7). -/
abbrev ntscVTop : Nat := 30
/-- First tick line that writes the wide duty (R8). -/
abbrev vsWriteFirst : Nat := 2
/-- Last tick line that writes the wide duty (R8). -/
abbrev vsWriteLast : Nat := 4
/-- The line of the onBlankEnd hook (R8). -/
abbrev blankEndLine : Nat := 4

/-- FREE VALUE: the agent that steps next once the schedule in State is used up, one for each value of the counter
(R6: "Every reachable execution is an interleaving of those steps"; log 2). -/
opaque freeAgent : Nat → Agent

/-- FREE VALUE: a draw (R16) once the oracle in State is used up, one for each value of the counter (log 3). -/
opaque freeNat : Nat → Nat

/-- FREE VALUE: the duty register at power-on, "unspecified (draw)" (R40; log 6). -/
opaque powerOnDutyNext : Duty

/-- FREE VALUE: the latched duty at power-on, "unspecified (draw)" (R40; log 6). -/
opaque powerOnDutyCur : Duty

/-- OPEN parameter LINE_PERIOD (R12); no rule reads it (log 17). -/
opaque linePeriod : Nat

/-- OPEN parameter TICK_COMPARE (R12); no rule reads it (log 17). -/
opaque tickCompare : Nat

/-- OPEN parameter H_SYNC_COUNT (R12), the narrow pulse's width (log 17). -/
opaque hSyncCount : Nat

/-- OPEN parameter V_SYNC_COUNT (R12), the wide pulse's width (log 17). -/
opaque vSyncCount : Nat

/-- OPEN parameter "the meaning of `DIV` as a clock rate" (R12): the rate that an outputClockDivisor stands for; no rule
reads it (log 17). -/
opaque divisorRate : Word → Nat

/-- OPEN parameter CLOCK_VARIANT (R10); no rule reads it (log 17). -/
opaque clockVariant : String

/-- The fixture profiles T0..T3 of 95_test_vectors.md section 2.1: the table of the reset state (log 1). -/
def fixtureTable : List Profile :=
  [ ⟨224, 216, 216, 28, false, 1⟩,
    ⟨224, 108, 216, 28, true, 1⟩,
    ⟨16, 2, 2, 2, false, 2⟩,
    ⟨8, 2, 4, 1, true, 3⟩ ]

/-- The parameters of the reset state: the fixture table, the spec's defaults for the two restrictions and for
ALLOC_OK, and no program loaded (log 1, log 11). -/
def resetParams : Params :=
  { profileTable := fixtureTable
    defaultProfileId := 0
    timingAssumptions := true
    pollDense := false
    allocFails := []
    hookPrograms := []
    mainProgram := [] }

end Config

end Sys2Proof
end

