-- ==== Sys2Proof/Syntax.lean ====
section
/-! DEFINITION. The commands and events: one constructor for each row of spec/opcode_table.json (R65), with decoded
operands. -/

namespace Sys2Proof

/-- The sixteen registers of the register view, in the order of their numbers 0x00..0x0F (R37). -/
inductive Reg
  | status
  | line
  | cursor
  | profile
  | width
  | height
  | fbsize
  | rowbytes
  | scanlines
  | doubled
  | divisor
  | frameline
  | lastactive
  | hookstart
  | hookend
  | fbbase
deriving DecidableEq, Repr, Inhabited

/-- The two hook slots: START is `onBlankStart`, END is `onBlankEnd` (R64, R108). -/
inductive HookKind
  | start
  | fin
deriving DecidableEq, Repr, Inhabited

/-- The ten host commands of format H and the six agent events of format E (R62, R63, R65). -/
inductive Instr
  /-- BEGIN mode (R103). -/
  | cmdBegin (mode : Byte)
  /-- END (R104). -/
  | cmdEnd
  /-- CLEAR (R105). -/
  | cmdClear
  /-- FBRD off (R106). -/
  | cmdFbrd (off : Half)
  /-- FBWR off, data (R107): data is field A, the offset field B. -/
  | cmdFbwr (data : Byte) (off : Half)
  /-- SETHOOK kind, handle (R108). -/
  | cmdSethook (kind : HookKind) (handle : Half)
  /-- RDREG reg (R109). -/
  | cmdRdreg (reg : Reg)
  /-- POLLEQ reg, value (R110). -/
  | cmdPolleq (reg : Reg) (value : Half)
  /-- POLLNE reg, value (R110). -/
  | cmdPollne (reg : Reg) (value : Half)
  /-- WAITF n (R111). -/
  | cmdWaitf (n : Half)
  /-- EV_BOUNDARY (R86). -/
  | evBoundary
  /-- EV_COMPARE (R87). -/
  | evCompare
  /-- EV_TICK (R74). -/
  | evTick
  /-- EV_HOOKRET (R82). -/
  | evHookret
  /-- EV_DMABYTE (R96). -/
  | evDmabyte
  /-- EV_DMADONE (R97). -/
  | evDmadone
deriving DecidableEq, Repr

end Sys2Proof
end

