-- ==== Sys2Proof/WellFormed.lean ====
section
/-! DEFINITION. What is admitted before a run: profiles and configurations (R10, R11), and which instruction may stand
in which stream (R63, R66, R101). The operands of an `Instr` are decoded types of the width of their fields (R64), so
every term of `Instr` is encodable; the assembler's operand checks (R68) are in Machine/Assembler.lean. -/

namespace Sys2Proof

/-- WF(p) of R11, line by line. -/
def Profile.wf (p : Profile) : Bool :=
  decide (p.pixelWidth % 8 = 0) && decide (8 ≤ p.pixelWidth) && decide (p.rowByteWidth = p.pixelWidth / 8)
    && decide (1 ≤ p.pixelHeight)
    && decide (p.scanLinesUsed = if p.lineDoubled then 2 * p.pixelHeight else p.pixelHeight)
    && decide (1 ≤ p.scanLinesUsed) && decide (p.scanLinesUsed ≤ Config.ntscLine - Config.ntscVTop + 1)
    && decide (p.rowByteWidth * p.pixelHeight ≤ 65536)

/-- An admitted configuration: 1 to 256 profiles, a default among them (R10), every entry WF (R11, U18 of
93_implementation_defined.md). -/
def Params.wf (c : Params) : Bool :=
  decide (1 ≤ c.profileTable.length) && decide (c.profileTable.length ≤ 256)
    && decide (c.defaultProfileId < c.profileTable.length) && c.profileTable.all Profile.wf

/-- The three streams an instruction can stand in: MAIN_PROGRAM, a HOOK_PROGRAM, and a schedule (R63, R70, R101). -/
inductive Stream
  | main
  | hook
  | schedule
deriving DecidableEq, Repr

/-- The format-E rows: names of agent steps, never commands (R63). -/
def Instr.isEvent : Instr → Bool
  | .evBoundary | .evCompare | .evTick | .evHookret | .evDmabyte | .evDmadone => true
  | .cmdBegin _ | .cmdEnd | .cmdClear | .cmdFbrd _ | .cmdFbwr _ _ | .cmdSethook _ _ | .cmdRdreg _ | .cmdPolleq _ _
  | .cmdPollne _ _ | .cmdWaitf _ => false

/-- The lifecycle and blocking commands, which R101 allows in the main context only. -/
def Instr.mainOnly : Instr → Bool
  | .cmdBegin _ | .cmdEnd | .cmdPolleq _ _ | .cmdPollne _ _ | .cmdWaitf _ => true
  | .cmdClear | .cmdFbrd _ | .cmdFbwr _ _ | .cmdSethook _ _ | .cmdRdreg _ | .evBoundary | .evCompare | .evTick
  | .evHookret | .evDmabyte | .evDmadone => false

/-- An instruction is well formed in a stream when that stream may hold it: events in schedules only (R63), the
lifecycle and blocking commands in MAIN_PROGRAM only (R101). -/
def Instr.wellFormedIn : Stream → Instr → Bool
  | .main, i => !i.isEvent
  | .hook, i => !i.isEvent && !i.mainOnly
  | .schedule, i => i.isEvent

end Sys2Proof
end

