-- ==== Sys2Proof/Decode.lean ====
section
/-! DEFINITION. The decoder, total on every word and rejecting by name, and the encoder (R62..R66). -/

namespace Sys2Proof

/-- Field OP, bits 31:24 (R62). -/
def opField (w : Word) : Byte := w.extractLsb' 24 8

/-- Field A, bits 23:16 (R62). -/
def aField (w : Word) : Byte := w.extractLsb' 16 8

/-- Field B, bits 15:0 (R62). -/
def bField (w : Word) : Half := w.extractLsb' 0 16

/-- The word with the three fields (R62). -/
def mkWord (op a : Byte) (b : Half) : Word := op ++ a ++ b

/-- The register of a number of the register space, 0x00..0x0F (R37, R43). -/
def Reg.ofNum : Nat → Option Reg
  | 0 => some .status
  | 1 => some .line
  | 2 => some .cursor
  | 3 => some .profile
  | 4 => some .width
  | 5 => some .height
  | 6 => some .fbsize
  | 7 => some .rowbytes
  | 8 => some .scanlines
  | 9 => some .doubled
  | 10 => some .divisor
  | 11 => some .frameline
  | 12 => some .lastactive
  | 13 => some .hookstart
  | 14 => some .hookend
  | 15 => some .fbbase
  | _ => none

/-- The number of a register (R37). -/
def Reg.num : Reg → Byte
  | .status => 0x00
  | .line => 0x01
  | .cursor => 0x02
  | .profile => 0x03
  | .width => 0x04
  | .height => 0x05
  | .fbsize => 0x06
  | .rowbytes => 0x07
  | .scanlines => 0x08
  | .doubled => 0x09
  | .divisor => 0x0A
  | .frameline => 0x0B
  | .lastactive => 0x0C
  | .hookstart => 0x0D
  | .hookend => 0x0E
  | .fbbase => 0x0F

/-- The hook slot of a SETHOOK kind, 0 or 1 (R64). -/
def HookKind.ofNum : Nat → Option HookKind
  | 0 => some .start
  | 1 => some .fin
  | _ => none

/-- The kind number of a hook slot (R64). -/
def HookKind.num : HookKind → Byte
  | .start => 0
  | .fin => 1

/-- The names of R66's reasons for which a word is rejected. -/
inductive Reject
  /-- OP is 0x00, 0x0B..0x7F or 0x86..0xFF. -/
  | reservedOpcode
  /-- A field that the form does not use is not zero. -/
  | fieldNotZero
  /-- SETHOOK with kind 0x02..0xFF. -/
  | reservedKind
  /-- RDREG, POLLEQ or POLLNE with register 0x10..0xFF. -/
  | reservedRegister
  /-- An event word in a command stream. -/
  | eventInCommandStream
  /-- A command word where an event word is asked for. -/
  | commandInSchedule
deriving DecidableEq, Repr

/-- What the decoder answers. -/
inductive Decoded
  | ok (i : Instr)
  | reject (r : Reject)
deriving DecidableEq, Repr

/-- The instruction, if there is one. -/
def Decoded.toOption : Decoded → Option Instr
  | .ok i => some i
  | .reject _ => none

/-- The instruction when the fields that its form does not use are zero (R64, R66). -/
def Decoded.whenZero (unused : Bool) (i : Instr) : Decoded :=
  if unused then .ok i else .reject .fieldNotZero

/-- A register operand in field A (R64, R66). -/
def decodeReg (a : Byte) (k : Reg → Decoded) : Decoded :=
  match Reg.ofNum a.toNat with
  | some r => k r
  | none => .reject .reservedRegister

/-- A hook kind in field A (R64, R66). -/
def decodeKind (a : Byte) (k : HookKind → Decoded) : Decoded :=
  match HookKind.ofNum a.toNat with
  | some x => k x
  | none => .reject .reservedKind

/-- The rows of R65 on the three fields of a word; the mask of a row makes its unused fields zero. -/
def decodeFields (op a : Byte) (b : Half) : Decoded :=
  match op.toNat with
  | 0x01 => .whenZero (b == 0) (.cmdBegin a)
  | 0x02 => .whenZero (a == 0 && b == 0) .cmdEnd
  | 0x03 => .whenZero (a == 0 && b == 0) .cmdClear
  | 0x04 => .whenZero (a == 0) (.cmdFbrd b)
  | 0x05 => .ok (.cmdFbwr a b)
  | 0x06 => decodeKind a fun k => .ok (.cmdSethook k b)
  | 0x07 => decodeReg a fun r => .whenZero (b == 0) (.cmdRdreg r)
  | 0x08 => decodeReg a fun r => .ok (.cmdPolleq r b)
  | 0x09 => decodeReg a fun r => .ok (.cmdPollne r b)
  | 0x0A => .whenZero (a == 0) (.cmdWaitf b)
  | 0x80 => .whenZero (a == 0 && b == 0) .evBoundary
  | 0x81 => .whenZero (a == 0 && b == 0) .evCompare
  | 0x82 => .whenZero (a == 0 && b == 0) .evTick
  | 0x83 => .whenZero (a == 0 && b == 0) .evHookret
  | 0x84 => .whenZero (a == 0 && b == 0) .evDmabyte
  | 0x85 => .whenZero (a == 0 && b == 0) .evDmadone
  | _ => .reject .reservedOpcode

/-- The row of R65 that a word decodes to, command or event, or the reason why there is none. -/
def decode (w : Word) : Decoded := decodeFields (opField w) (aField w) (bField w)

/-- Decoding in a command stream: format-H rows only (R63, R66). -/
def decodeCommand (w : Word) : Decoded :=
  match decode w with
  | .ok i => if i.isEvent then .reject .eventInCommandStream else .ok i
  | .reject r => .reject r

/-- Decoding in a schedule or trace: exactly the six event patterns (R63, R66). -/
def decodeEvent (w : Word) : Decoded :=
  match decode w with
  | .ok i => if i.isEvent then .ok i else .reject .commandInSchedule
  | .reject r => .reject r

/-- The instruction the decoder reads from a row's word as spec/opcode_table.json numbers its bits: every word is
32 bits (R61), and the bits above `nbits` are zero. -/
def decodeTableWord (nbits w : Nat) : Option Instr :=
  if nbits ≤ 32 ∧ w < 2 ^ nbits then (decode (BitVec.ofNat 32 w)).toOption else none

/-- The word of an instruction, from the formats and the map of R62, R63 and R65. -/
def encode : Instr → Word
  | .cmdBegin mode => mkWord 0x01 mode 0
  | .cmdEnd => mkWord 0x02 0 0
  | .cmdClear => mkWord 0x03 0 0
  | .cmdFbrd off => mkWord 0x04 0 off
  | .cmdFbwr data off => mkWord 0x05 data off
  | .cmdSethook kind handle => mkWord 0x06 kind.num handle
  | .cmdRdreg reg => mkWord 0x07 reg.num 0
  | .cmdPolleq reg value => mkWord 0x08 reg.num value
  | .cmdPollne reg value => mkWord 0x09 reg.num value
  | .cmdWaitf n => mkWord 0x0A 0 n
  | .evBoundary => mkWord 0x80 0 0
  | .evCompare => mkWord 0x81 0 0
  | .evTick => mkWord 0x82 0 0
  | .evHookret => mkWord 0x83 0 0
  | .evDmabyte => mkWord 0x84 0 0
  | .evDmadone => mkWord 0x85 0 0

/-- The rows of the opcode table (R65). -/
inductive Mnemonic
  | BEGIN | END | CLEAR | FBRD | FBWR | SETHOOK | RDREG | POLLEQ | POLLNE | WAITF
  | EV_BOUNDARY | EV_COMPARE | EV_TICK | EV_HOOKRET | EV_DMABYTE | EV_DMADONE
deriving DecidableEq, Repr

/-- The row an instruction belongs to (R65). -/
def Instr.mnemonic : Instr → Mnemonic
  | .cmdBegin _ => .BEGIN
  | .cmdEnd => .END
  | .cmdClear => .CLEAR
  | .cmdFbrd _ => .FBRD
  | .cmdFbwr _ _ => .FBWR
  | .cmdSethook _ _ => .SETHOOK
  | .cmdRdreg _ => .RDREG
  | .cmdPolleq _ _ => .POLLEQ
  | .cmdPollne _ _ => .POLLNE
  | .cmdWaitf _ => .WAITF
  | .evBoundary => .EV_BOUNDARY
  | .evCompare => .EV_COMPARE
  | .evTick => .EV_TICK
  | .evHookret => .EV_HOOKRET
  | .evDmabyte => .EV_DMABYTE
  | .evDmadone => .EV_DMADONE

/-- The column "mask" of R65. -/
def Mnemonic.mask : Mnemonic → Word
  | .BEGIN => 0xFF00FFFF
  | .END => 0xFFFFFFFF
  | .CLEAR => 0xFFFFFFFF
  | .FBRD => 0xFFFF0000
  | .FBWR => 0xFF000000
  | .SETHOOK => 0xFFFE0000
  | .RDREG => 0xFFF0FFFF
  | .POLLEQ => 0xFFF00000
  | .POLLNE => 0xFFF00000
  | .WAITF => 0xFFFF0000
  | .EV_BOUNDARY => 0xFFFFFFFF
  | .EV_COMPARE => 0xFFFFFFFF
  | .EV_TICK => 0xFFFFFFFF
  | .EV_HOOKRET => 0xFFFFFFFF
  | .EV_DMABYTE => 0xFFFFFFFF
  | .EV_DMADONE => 0xFFFFFFFF

/-- The column "match" of R65. -/
def Mnemonic.pattern : Mnemonic → Word
  | .BEGIN => 0x01000000
  | .END => 0x02000000
  | .CLEAR => 0x03000000
  | .FBRD => 0x04000000
  | .FBWR => 0x05000000
  | .SETHOOK => 0x06000000
  | .RDREG => 0x07000000
  | .POLLEQ => 0x08000000
  | .POLLNE => 0x09000000
  | .WAITF => 0x0A000000
  | .EV_BOUNDARY => 0x80000000
  | .EV_COMPARE => 0x81000000
  | .EV_TICK => 0x82000000
  | .EV_HOOKRET => 0x83000000
  | .EV_DMABYTE => 0x84000000
  | .EV_DMADONE => 0x85000000

end Sys2Proof
end

