-- ==== Sys2Proof/Machine/State.lean ====
section
/-! DEFINITION. The machine state (R22), as plain data, its parts, the faults (R115), the refusals, the events of the
history (R35), and the state at power-on (R40, R133). -/

namespace Sys2Proof.Machine

/-- The fault codes of R115: points where the source says the behaviour is undefined, or does not say what the chip
does. Raising one is a NEXT state (`State.raise`, R116); a step from a state whose `fault` holds a code answers
`.fault` with it. All of them are SAFE: the model stops where the chip goes on in a way the source does not give. -/
inductive Fault
  /-- 0x01. Raised by the host's decode, main or hook (R66): `Machine/Fetch.lean`. Safe. -/
  | illegalCommand
  /-- 0x02. Raised by END, CLEAR, FBRD, FBWR, RDREG, POLLEQ, POLLNE and WAITF while inactive. Safe. -/
  | notActive
  /-- 0x03. Raised by BEGIN while active. Safe. -/
  | alreadyActive
  /-- 0x04. Raised by FBRD and FBWR at an offset at or above FBSIZE. Safe. -/
  | fbRange
  /-- 0x05. Raised by TICK, through DmaStart, while a transfer or its completion is outstanding. Safe. -/
  | dmaOverlap
  /-- 0x06. Raised by BEGIN when the allocation fails. Safe. -/
  | allocFail
  /-- 0x07. Raised by BEGIN, END, POLLEQ, POLLNE and WAITF in a hook. Safe. -/
  | hookContext
deriving DecidableEq, Repr

/-- Why a step has no meaning. No instruction answers with one on every path. -/
inductive Refusal
  /-- An instruction whose arm of `exec` has no meaning yet. Safe. No arm answers it. -/
  | notModelled (mnemonic : String)
  /-- The configuration is not admitted (R11: "refused as a configuration. No run starts from it"). Answered by
  `step`, and by BEGIN where the table lacks the selected entry. Safe (log 10). -/
  | configurationNotAdmitted
  /-- The state is one that the spec derives to be unreachable (a transfer outside the framebuffer, an active engine
  without one, a CLEAR with nothing left to zero), so no rule says what happens. Answered by CLEAR, FBRD, FBWR and
  EV_DMABYTE. Safe (log 9). -/
  | outsideEveryRun
deriving DecidableEq, Repr

/-- Which line-timer event comes next (R28). -/
inductive TimerPhase
  | nextBoundary
  | nextCompare
deriving DecidableEq, Repr, Inhabited

/-- No tick running, or a tick suspended in a hook program at a command index (R29). -/
inductive TickPhase
  | idle
  | hook (kind : HookKind) (handle : Half) (pc : Nat)
deriving DecidableEq, Repr, Inhabited

/-- The DMA channel: idle, or a transfer of `n` bytes from offset `off` of which `i` are shifted (R30). -/
inductive Dma
  | idle
  | busy (off n i : Nat)
deriving DecidableEq, Repr, Inhabited

/-- The serial pixel output line (R31). -/
inductive Ser
  | idle
  | shifting
  | residual
deriving DecidableEq, Repr, Inhabited

/-- WAITF's two phases: waiting to reach the frame-boundary line, waiting to leave it (R111). -/
inductive WaitPhase
  | seekEq
  | seekNe
deriving DecidableEq, Repr, Inhabited

/-- The progress of a multi-step command (R34): CLEAR's remaining offsets (R105), a poll's operands (R110), WAITF's
counter, phase and frame-boundary line (R111). -/
inductive MultiOp
  | clear (remaining : List Nat)
  | poll (untilEq : Bool) (reg : Reg) (value : Half)
  | waitf (rem : Nat) (phase : WaitPhase) (fl : Nat)
deriving DecidableEq, Repr

/-- What a READ event read: a framebuffer byte or a register (R102). -/
inductive ReadWhat
  | fb (off : Nat)
  | reg (r : Reg)
deriving DecidableEq, Repr

/-- The events of the history (R35). -/
inductive Event
  | pulse (line : Nat) (duty : Duty)
  | deadlineMiss (line : Nat)
  | lostTick (line : Nat)
  | tick (line : Nat)
  | hookCall (kind : HookKind) (handle : Half) (line : Nat)
  | hookRet (line : Nat)
  | rowStart (line off : Nat)
  | pixByte (off : Nat) (value : Byte)
  | rowEnd (off : Nat)
  | idleForced
  | begun (profId : Nat)
  | ended
  | read (what : ReadWhat) (value : Word)
  | fbWrite (off : Nat) (value : Byte)
  | faulted (code : Fault)
deriving DecidableEq, Repr

/-- The framebuffer's contents: (offset, byte) pairs with strictly rising offsets and no byte equal to what an
unlisted offset reads as (`Memory.wf`, Machine/Ops.lean; log 8). -/
abbrev Memory := List Host.Cell

/-- The machine state: the fields of R22 in its order, then the model's own fields. -/
structure State where
  /-- Engine running, from BEGIN to END (R23). -/
  active : Bool
  /-- The active profile's id (R24). -/
  profId : Nat
  /-- The active profile (R24). -/
  prof : Profile
  /-- `currentLine` (R25). -/
  line : Nat
  /-- `readCursor` (R26). -/
  cursor : Nat
  /-- The sync pulse width register (R27). -/
  dutyNext : Duty
  /-- The width in effect in the current period (R27). -/
  dutyCur : Duty
  /-- The line timer's next event (R28). -/
  timerPhase : TimerPhase
  /-- The pending bit of the per-scanline interrupt (R29). -/
  tickPending : Bool
  /-- The tick in progress (R29). -/
  tickPhase : TickPhase
  /-- The DMA transfer in flight (R30). -/
  dma : Dma
  /-- The pending bit of the completion interrupt (R30). -/
  donePending : Bool
  /-- The serializer's output register (R31). -/
  ser : Ser
  /-- `onBlankStart`, 0 is null (R32). -/
  hookStart : Half
  /-- `onBlankEnd`, 0 is null (R32). -/
  hookEnd : Half
  /-- The framebuffer, none while inactive (R33). -/
  fb : Option Memory
  /-- The address `getFramebuffer()` returns (R33, R42). -/
  fbBase : Word
  /-- The host main command pointer (R34). -/
  hpc : Nat
  /-- A multi-step command in progress in the main context (R34). -/
  mainOp : Option MultiOp
  /-- A multi-step command in progress in a hook program (R34). -/
  hookOp : Option MultiOp
  /-- The host has sampled since the last LineAdvance (R34). -/
  polled : Bool
  /-- The fault that stopped the model (R116). -/
  fault : Option Fault
  /-- The event history, in step order (R35). -/
  hist : List Event
  /-- MODEL'S OWN: the parameters, written by no step (R13; log 1). -/
  params : Params
  /-- MODEL'S OWN: the agents that step next, in order (R70; log 2). -/
  sched : List Agent
  /-- MODEL'S OWN: the values the next draws take, in order (R16; log 3). -/
  oracle : List Nat
  /-- MODEL'S OWN: the counter of the free values taken so far (log 2, log 3). -/
  draws : Nat
deriving DecidableEq, Repr

/-- The profile register before the first BEGIN: "unspecified, unreadable" (R40); all fields zero (log 7). -/
def unsetProfile : Profile := ⟨0, 0, 0, 0, false, 0⟩

/-- The state at power-on: the column "power-on" of R40 and R133. Unreadable fields hold the values of log 7, the two
duty fields are the free values of log 6, the parameters are those of log 1, and nothing is scheduled. -/
def State.reset : State :=
  { active := false
    profId := 0
    prof := unsetProfile
    line := 0
    cursor := 0
    dutyNext := Config.powerOnDutyNext
    dutyCur := Config.powerOnDutyCur
    timerPhase := .nextBoundary
    tickPending := false
    tickPhase := .idle
    dma := .idle
    donePending := false
    ser := .residual
    hookStart := 0
    hookEnd := 0
    fb := none
    fbBase := 0
    hpc := 0
    mainOp := none
    hookOp := none
    polled := false
    fault := none
    hist := []
    params := Config.resetParams
    sched := []
    oracle := []
    draws := 0 }

end Sys2Proof.Machine
end

