-- ==== Sys2Proof/Machine/Ops.lean ====
section
/-! DEFINITION. The named operations over the state that the meanings share: framebuffer bytes, the history, draws,
contexts and retirement, raising a fault (R116), entering and leaving a hook (R79, R82, R120, R121), LineAdvance. -/

namespace Sys2Proof.Machine

/-- What a meaning and a step answer. -/
abbrev Result := Host.Outcome State Fault Refusal

/-! ### Quantities of a profile -/

/-- FBSIZE(p) (R9). -/
def fbSize (p : Profile) : Nat := p.rowByteWidth * p.pixelHeight

/-- LAST(p), the last active-video line (R9). `NTSC_VTOP + A >= 30`, so the subtraction stays in the naturals. -/
def lastLine (p : Profile) : Nat := Config.ntscVTop + p.scanLinesUsed - 1

/-- FRAMELINE(p), the frame-boundary line (R9, R111). -/
def frameLine (p : Profile) : Nat := Config.ntscVTop + p.scanLinesUsed

/-- isActive(c) of R73. -/
def isActive (p : Profile) (c : Nat) : Bool := decide (Config.ntscVTop ≤ c) && decide (c ≤ lastLine p)

/-! ### Framebuffer memory -/

/-- What an unlisted offset reads as: the zero that BEGIN writes to every byte (R103). -/
def Memory.unlisted : Byte := 0

/-- The byte at an address. -/
def Memory.read : Memory → Nat → Byte
  | [], _ => Memory.unlisted
  | (b, u) :: t, a => if b = a then u else Memory.read t a

/-- Writing one byte, keeping the canonical form. -/
def Memory.write : Memory → Nat → Byte → Memory
  | [], a, v => if v = Memory.unlisted then [] else [(a, v)]
  | (b, u) :: t, a, v =>
    if a < b then (if v = Memory.unlisted then (b, u) :: t else (a, v) :: (b, u) :: t)
    else if a = b then (if v = Memory.unlisted then t else (a, v) :: t)
    else (b, u) :: Memory.write t a v

/-- Canonical from a lowest address on: addresses strictly rising, no byte equal to the unlisted one. -/
def Memory.wfFrom : Nat → Memory → Bool
  | _, [] => true
  | lo, (a, v) :: t => decide (lo ≤ a) && decide (v ≠ Memory.unlisted) && Memory.wfFrom (a + 1) t

/-- The canonical form of a memory. -/
def Memory.wf (m : Memory) : Bool := Memory.wfFrom 0 m

/-- MemRead(off, 1) (R16): the framebuffer byte at an offset; none where the framebuffer space has no such offset
(R41). -/
def State.readByte (s : State) (off : Nat) : Option Byte :=
  match s.fb with
  | some m => if off < fbSize s.prof then some (m.read off) else none
  | none => none

/-- MemWrite(off, 1, v) (R16); none where the framebuffer space has no such offset (R41). -/
def State.writeByte (s : State) (off : Nat) (v : Byte) : Option State :=
  match s.fb with
  | some m => if off < fbSize s.prof then some { s with fb := some (m.write off v) } else none
  | none => none

/-! ### History, draws, running -/

/-- `record E` (R16). -/
def State.record (s : State) (e : Event) : State := { s with hist := s.hist ++ [e] }

/-- `draw` (R16): the oracle's next value, or a free value once the oracle is used up (log 3). -/
def State.drawNat (s : State) : Nat × State :=
  match s.oracle with
  | v :: rest => (v, { s with oracle := rest })
  | [] => (Config.freeNat s.draws, { s with draws := s.draws + 1 })

/-- A step's effect, where the state is not faulted: "no step leaves" a faulted state (R116). -/
def State.unlessFaulted (s : State) (k : Result) : Result :=
  match s.fault with
  | some c => .fault c
  | none => k

/-- An agent whose enabling condition does not hold takes no step: nothing changes (R6, log 4). -/
def State.hold (s : State) : Result := .next s

/-- TAKING A FAULT, the one shared operation: `raise Fault(code)` (R116) appends FAULT(code) and sets `fault`. Nothing
else is saved, and no pointer advances. -/
def State.raise (s : State) (c : Fault) : State := { s.record (.faulted c) with fault := some c }

/-- The number of a fault code (R115). -/
def Fault.code : Fault → Byte
  | .illegalCommand => 0x01
  | .notActive => 0x02
  | .alreadyActive => 0x03
  | .fbRange => 0x04
  | .dmaOverlap => 0x05
  | .allocFail => 0x06
  | .hookContext => 0x07

/-! ### Contexts of a command (R100, R101, R81) -/

/-- A command runs in context HOOK exactly while a tick is suspended in a hook program, because the main context has
no step then (R100, R101). -/
def State.inHook (s : State) : Bool :=
  match s.tickPhase with
  | .idle => false
  | .hook _ _ _ => true

/-- The progress of a multi-step command of the running context: `mainOp` or `hookOp` (R34). -/
def State.currentOp (s : State) : Option MultiOp := if s.inHook then s.hookOp else s.mainOp

/-- Keeping the progress of a multi-step command of the running context (R34). -/
def State.keepOp (s : State) (op : MultiOp) : State :=
  if s.inHook then { s with hookOp := some op } else { s with mainOp := some op }

/-- `retire`: the context's pointer advances and no command is in progress (R100, R81). -/
def State.retire (s : State) : State :=
  match s.tickPhase with
  | .idle => { s with hpc := s.hpc + 1, mainOp := none }
  | .hook k h pc => { s with tickPhase := .hook k h (pc + 1), hookOp := none }

/-- HOOK_PROGRAM(h) (R81); a handle that is not listed has the empty program (log 13). -/
def lookupProgram : List (Half × List Word) → Half → List Word
  | [], _ => []
  | (k, p) :: t, h => if k = h then p else lookupProgram t h

/-- HOOK_PROGRAM(h) of the running configuration (R81). -/
def State.hookProgram (s : State) (h : Half) : List Word := lookupProgram s.params.hookPrograms h

/-! ### The tick's shared parts -/

/-- LineAdvance, step 5 of the tick (R78). -/
def State.lineAdvance (s : State) : State :=
  if s.line + 1 > Config.ntscLine then { s with line := 1, cursor := 0, polled := false }
  else { s with line := s.line + 1, polled := false }

/-- Calling a hook: the tick is suspended at command 0 of the hook's program (R74, R79, R120). -/
def State.callHook (s : State) (kind : HookKind) (handle : Half) (c : Nat) : State :=
  { s.record (.hookCall kind handle c) with tickPhase := .hook kind handle 0 }

/-- Returning from a hook and finishing the tick (R82, R121). -/
def State.returnFromHook (s : State) : State :=
  { (s.record (.hookRet s.line)).lineAdvance with tickPhase := .idle }

end Sys2Proof.Machine
end

