-- ==== Sys2Proof/Machine/Flags.lean ====
section
/-! DEFINITION. The block has no condition flags (R36); its flags are the bits of the STATUS register (R38), each the
image of a state field. -/

namespace Sys2Proof.Machine

/-- The bits of STATUS, lowest first (R38). -/
def statusBits (s : State) : List Bool :=
  [ s.active,
    decide (s.dma ≠ .idle),
    s.donePending,
    s.tickPending,
    decide (s.tickPhase ≠ .idle),
    decide (s.dutyNext = .wide),
    decide (s.dutyCur = .wide),
    decide (s.ser = .idle) ]

/-- A number from its bits, lowest first. -/
def bitsToNat : List Bool → Nat
  | [] => 0
  | b :: t => b.toNat + 2 * bitsToNat t

/-- The value of STATUS; bits 31:8 are 0 (R38). -/
def statusWord (s : State) : Word := BitVec.ofNat 32 (bitsToNat (statusBits s))

end Sys2Proof.Machine
end

