-- ==== Sys2Proof/Machine/Operands.lean ====
section
/-! DEFINITION. How operands reach the state: the register view (R37), the profile that a mode selects (R103), the
allocation parameter (R13), the hook slots (R108). -/

namespace Sys2Proof.Machine

/-- `x[reg]`, the value a register read returns (R37). A natural-number field is read as a 32-bit value; in an
admitted configuration every one of them fits (R14, log 15). -/
def regValue (s : State) : Reg → Word
  | .status => statusWord s
  | .line => BitVec.ofNat 32 s.line
  | .cursor => BitVec.ofNat 32 s.cursor
  | .profile => BitVec.ofNat 32 s.profId
  | .width => BitVec.ofNat 32 s.prof.pixelWidth
  | .height => BitVec.ofNat 32 s.prof.pixelHeight
  | .fbsize => BitVec.ofNat 32 (fbSize s.prof)
  | .rowbytes => BitVec.ofNat 32 s.prof.rowByteWidth
  | .scanlines => BitVec.ofNat 32 s.prof.scanLinesUsed
  | .doubled => if s.prof.lineDoubled then 1 else 0
  | .divisor => s.prof.outputClockDivisor
  | .frameline => BitVec.ofNat 32 (frameLine s.prof)
  | .lastactive => BitVec.ofNat 32 (lastLine s.prof)
  | .hookstart => s.hookStart.setWidth 32
  | .hookend => s.hookEnd.setWidth 32
  | .fbbase => s.fbBase

/-- The registers that are readable while inactive (R37, R109). -/
def readableInactive : Reg → Bool
  | .status | .hookstart | .hookend => true
  | .line | .cursor | .profile | .width | .height | .fbsize | .rowbytes | .scanlines | .doubled | .divisor
  | .frameline | .lastactive | .fbbase => false

/-- A register read is legal in this state (R109, R110). -/
def regReadable (s : State) (r : Reg) : Bool := s.active || readableInactive r

/-- The profile id a BEGIN mode selects: the mode, or the default for an out-of-range mode (R103). -/
def resolveMode (c : Params) (mode : Byte) : Nat :=
  if mode.toNat < c.profileTable.length then mode.toNat else c.defaultProfileId

/-- ALLOC_OK (R13, log 12). -/
def allocOk (c : Params) (size : Nat) : Bool := !c.allocFails.contains size

/-- `fbBase <- draw(32-bit a with a + FBSIZE(p) <= 2^32)` (R42, R103): every such address is some drawn value's image,
and no other is. -/
def fbBaseOf (size v : Nat) : Word := BitVec.ofNat 32 (v % (2 ^ 32 - size + 1))

/-- The handle in a hook slot (R32). -/
def State.hookSlot (s : State) : HookKind → Half
  | .start => s.hookStart
  | .fin => s.hookEnd

/-- Writing a hook slot (R108). -/
def State.setHookSlot (s : State) (k : HookKind) (h : Half) : State :=
  match k with
  | .start => { s with hookStart := h }
  | .fin => { s with hookEnd := h }

end Sys2Proof.Machine
end

