-- ==== Sys2Proof/Machine/Enabled.lean ====
section
/-! DEFINITION. The enabling condition of each agent's step, as its rule lists it. Every one of them also requires
`S.fault = none`; the meanings get that from `State.unlessFaulted`. -/

namespace Sys2Proof.Machine

/-- BOUNDARY's condition (R86), with restriction 1 of TIMING_ASSUMPTIONS (R125). -/
def boundaryEnabled (s : State) : Bool :=
  s.active && decide (s.timerPhase = .nextBoundary)
    && (!s.params.timingAssumptions || (!s.tickPending && decide (s.tickPhase = .idle)))

/-- COMPARE's condition (R87), with restriction 2 of TIMING_ASSUMPTIONS (R125). -/
def compareEnabled (s : State) : Bool :=
  s.active && decide (s.timerPhase = .nextCompare)
    && (!s.params.timingAssumptions || (decide (s.dma = .idle) && !s.donePending))

/-- The main context is inside POLLEQ, POLLNE or WAITF (R74, R112). -/
def insidePoll (s : State) : Bool :=
  match s.mainOp with
  | some (.poll _ _ _) => true
  | some (.waitf _ _ _) => true
  | some (.clear _) => false
  | none => false

/-- TICK's condition (R74), with the POLL_DENSE restriction (R112, log 14). -/
def tickEnabled (s : State) : Bool :=
  s.active && s.tickPending && decide (s.tickPhase = .idle)
    && !(s.params.pollDense && insidePoll s && !s.polled)

/-- HOOKRET's condition (R82). -/
def hookretEnabled (s : State) : Bool :=
  match s.tickPhase with
  | .idle => false
  | .hook _ h pc => decide (pc = (s.hookProgram h).length) && decide (s.hookOp = none)

/-- DMABYTE's condition (R96). -/
def dmabyteEnabled (s : State) : Bool := s.active && decide (s.dma ≠ .idle)

/-- DMADONE's condition (R97), the lower priority of R119 included. -/
def dmadoneEnabled (s : State) : Bool :=
  s.active && s.donePending && !s.tickPending && decide (s.tickPhase = .idle)

/-- H's condition (R100). -/
def hostEnabled (s : State) : Bool :=
  decide (s.tickPhase = .idle) && decide (s.hpc < s.params.mainProgram.length)

/-- K's condition (R81). -/
def hookEnabled (s : State) : Bool :=
  match s.tickPhase with
  | .idle => false
  | .hook _ h pc => decide (pc < (s.hookProgram h).length)

/-- The condition under which an agent's step is enabled (R6, R116). -/
def agentEnabled (s : State) (a : Agent) : Bool :=
  decide (s.fault = none) &&
    match a with
    | .boundary => boundaryEnabled s
    | .compare => compareEnabled s
    | .tick => tickEnabled s
    | .hookret => hookretEnabled s
    | .dmabyte => dmabyteEnabled s
    | .dmadone => dmadoneEnabled s
    | .host => hostEnabled s
    | .hook => hookEnabled s

end Sys2Proof.Machine
end

