-- ==== Sys2Proof/Machine/Framebuffer.lean ====
section
/-! DEFINITION. The framebuffer commands CLEAR (R105), FBRD (R106) and FBWR (R107). -/

namespace Sys2Proof.Machine

/-- One step of CLEAR with the offsets `remaining` still to zero (R105): a drawn one is zeroed, and the command
retires when none is left. -/
def clearStep (remaining : List Nat) (s : State) : Result :=
  match remaining[s.drawNat.1 % remaining.length]? with
  | none => .refused .outsideEveryRun
  | some r =>
    match s.drawNat.2.writeByte r 0 with
    | none => .refused .outsideEveryRun
    | some t =>
      let left := remaining.filter (· ≠ r)
      let u := t.record (.fbWrite r 0)
      if left = [] then .next u.retire else .next (u.keepOp (.clear left))

/-- The offsets that a CLEAR in progress in the running context has left (R34, R105). -/
def State.clearLeft (s : State) : Option (List Nat) :=
  match s.currentOp with
  | some (.clear remaining) => some remaining
  | some (.poll _ _ _) | some (.waitf _ _ _) | none => none

/-- CLEAR (R105): the first step checks and starts with every offset, a later one goes on with those kept. -/
def execClear (s : State) : Result :=
  s.unlessFaulted <|
    match s.clearLeft with
    | some remaining => clearStep remaining s
    | none =>
      if !s.active then .next (s.raise .notActive) else clearStep (List.range (fbSize s.prof)) s

/-- FBRD off (R106). Checks in the order of R117: activity, range. -/
def execFbrd (off : Half) (s : State) : Result :=
  s.unlessFaulted <|
    if !s.active then .next (s.raise .notActive)
    else if fbSize s.prof ≤ off.toNat then .next (s.raise .fbRange)
    else
      match s.readByte off.toNat with
      | none => .refused .outsideEveryRun
      | some v => .next (s.record (.read (.fb off.toNat) (v.setWidth 32))).retire

/-- FBWR off, data (R107). Checks in the order of R117: activity, range. -/
def execFbwr (data : Byte) (off : Half) (s : State) : Result :=
  s.unlessFaulted <|
    if !s.active then .next (s.raise .notActive)
    else if fbSize s.prof ≤ off.toNat then .next (s.raise .fbRange)
    else
      match s.writeByte off.toNat data with
      | none => .refused .outsideEveryRun
      | some t => .next (t.record (.fbWrite off.toNat data)).retire

end Sys2Proof.Machine
end

