-- ==== Sys2Proof/Machine/Hooks.lean ====
section
/-! DEFINITION. SETHOOK (R108), and HOOKRET, the return from a hook (R82). -/

namespace Sys2Proof.Machine

/-- SETHOOK kind, handle (R108): any context, active or not. -/
def execSethook (kind : HookKind) (handle : Half) (s : State) : Result :=
  s.unlessFaulted <| .next (s.setHookSlot kind handle).retire

/-- HOOKRET (R82). -/
def execHookret (s : State) : Result :=
  s.unlessFaulted <| if hookretEnabled s then .next s.returnFromHook else s.hold

end Sys2Proof.Machine
end

