-- ==== Sys2Proof/Machine/Lifecycle.lean ====
section
/-! DEFINITION. The lifecycle commands BEGIN (R103) and END (R104). -/

namespace Sys2Proof.Machine

/-- The state after a successful BEGIN (R103, R134): profile `id`, `p`, and base address `base`. -/
def State.begin (s : State) (id : Nat) (p : Profile) (base : Word) : State :=
  let t : State :=
    { s with
      profId := id
      prof := p
      fb := some []
      fbBase := base
      line := 1
      cursor := 0
      dutyNext := .narrow
      dutyCur := .narrow
      tickPending := false
      tickPhase := .idle
      dma := .idle
      donePending := false
      ser := .residual
      polled := false
      active := true }
  { (t.record (.begun id)).record (.pulse 1 .narrow) with timerPhase := .nextCompare }

/-- BEGIN mode (R103). Checks in the order of R117: context, activity, allocation. -/
def execBegin (mode : Byte) (s : State) : Result :=
  s.unlessFaulted <|
    if s.inHook then .next (s.raise .hookContext)
    else if s.active then .next (s.raise .alreadyActive)
    else
      match s.params.profileTable[resolveMode s.params mode]? with
      | none => .refused .configurationNotAdmitted
      | some p =>
        if allocOk s.params (fbSize p) then
          .next (s.drawNat.2.begin (resolveMode s.params mode) p (fbBaseOf (fbSize p) s.drawNat.1)).retire
        else .next (s.raise .allocFail)

/-- END (R104). -/
def execEnd (s : State) : Result :=
  s.unlessFaulted <|
    if s.inHook then .next (s.raise .hookContext)
    else if !s.active then .next (s.raise .notActive)
    else
      let t : State :=
        { s with
          active := false
          tickPending := false
          dma := .idle
          donePending := false
          ser := .residual
          fb := none }
      .next (t.record .ended).retire

end Sys2Proof.Machine
end

