-- ==== Sys2Proof/Machine/Polling.lean ====
section
/-! DEFINITION. Register reads and waits: RDREG (R109), POLLEQ and POLLNE (R110), WAITF (R111). -/

namespace Sys2Proof.Machine

/-- RDREG reg (R109). -/
def execRdreg (reg : Reg) (s : State) : Result :=
  s.unlessFaulted <|
    if regReadable s reg then .next (s.record (.read (.reg reg) (regValue s reg))).retire
    else .next (s.raise .notActive)

/-- One attempt of a poll (R110): until equal, or until different. -/
def pollAttempt (untilEq : Bool) (reg : Reg) (value : Half) (s : State) : Result :=
  if s.inHook then .next (s.raise .hookContext)
  else if !regReadable s reg then .next (s.raise .notActive)
  else
    let t : State := { s with polled := true }
    if decide (regValue s reg = value.setWidth 32) = untilEq then
      .next (t.record (.read (.reg reg) (regValue s reg))).retire
    else .next (t.keepOp (.poll untilEq reg value))

/-- POLLEQ reg, value (R110). -/
def execPolleq (reg : Reg) (value : Half) (s : State) : Result := s.unlessFaulted (pollAttempt true reg value s)

/-- POLLNE reg, value (R110). -/
def execPollne (reg : Reg) (value : Half) (s : State) : Result := s.unlessFaulted (pollAttempt false reg value s)

/-- One attempt of WAITF (R111). `rem >= 1` in every run, so the subtraction stays in the naturals. -/
def waitAttempt (rem : Nat) (phase : WaitPhase) (fl : Nat) (s : State) : Result :=
  let t : State := { s with polled := true }
  match phase with
  | .seekEq => .next (t.keepOp (.waitf rem (if s.line = fl then .seekNe else .seekEq) fl))
  | .seekNe =>
    if s.line = fl then .next (t.keepOp (.waitf rem .seekNe fl))
    else if rem - 1 = 0 then .next (t.record (.read (.reg .line) (BitVec.ofNat 32 s.line))).retire
    else .next (t.keepOp (.waitf (rem - 1) .seekEq fl))

/-- The counter, phase and line of a WAITF in progress in the running context (R34, R111). -/
def State.waitProgress (s : State) : Option (Nat × WaitPhase × Nat) :=
  match s.currentOp with
  | some (.waitf rem phase fl) => some (rem, phase, fl)
  | some (.clear _) | some (.poll _ _ _) | none => none

/-- WAITF n (R111): the first step checks and starts the count, a later one goes on with what is kept. -/
def execWaitf (n : Half) (s : State) : Result :=
  s.unlessFaulted <|
    if s.inHook then .next (s.raise .hookContext)
    else
      match s.waitProgress with
      | some (rem, phase, fl) => waitAttempt rem phase fl s
      | none =>
        if !s.active then .next (s.raise .notActive)
        else if n = 0 then .next s.retire
        else waitAttempt n.toNat .seekEq (frameLine s.prof) s

end Sys2Proof.Machine
end

