-- ==== Sys2Proof/Machine/Serializer.lean ====
section
/-! DEFINITION. The DMA pixel serializer: DmaStart (R95), DMABYTE (R96), DMADONE (R97), and its external contract
(R99). -/

namespace Sys2Proof.Machine

/-- A transfer or its completion is outstanding: DmaStart raises DMA_OVERLAP (R95). -/
def dmaOutstanding (s : State) : Bool := decide (s.dma ≠ .idle) || s.donePending

/-- DmaStart(off, n) where nothing is outstanding (R95). -/
def State.dmaStart (s : State) (off n : Nat) : State :=
  { s.record (.rowStart s.line off) with dma := .busy off n 0, ser := .shifting }

/-- The source address of a transfer, `S.fbBase + off` (R42, R99). -/
def dmaSource (s : State) (off : Nat) : Word := s.fbBase + BitVec.ofNat 32 off

/-- The byte `i` of a transfer of `n` bytes from `off` has been read as `b` (R96). -/
def State.shiftByte (s : State) (off n i : Nat) (b : Byte) : State :=
  let t := s.record (.pixByte (off + i) b)
  if i + 1 < n then { t with dma := .busy off n (i + 1) }
  else { t.record (.rowEnd off) with dma := .idle, donePending := true, ser := .residual }

/-- DMABYTE (R96). -/
def execDmabyte (s : State) : Result :=
  s.unlessFaulted <|
    if s.active then
      match s.dma with
      | .idle => s.hold
      | .busy off n i =>
        match s.readByte (off + i) with
        | none => .refused .outsideEveryRun
        | some b => .next (s.shiftByte off n i b)
    else s.hold

/-- DMADONE (R97). -/
def execDmadone (s : State) : Result :=
  s.unlessFaulted <|
    if dmadoneEnabled s then
      let t : State := { s with ser := .idle, donePending := false }
      .next (t.record .idleForced)
    else s.hold

end Sys2Proof.Machine
end

