-- ==== Sys2Proof/Machine/Sequencer.lean ====
section
/-! DEFINITION. The line sequencer: the per-scanline tick TICK (R74) with its cursor advance (R75), its duty write
(R85) and its hook dispatch (R79). -/

namespace Sys2Proof.Machine

/-- The duty that the tick at line `c` writes (R85). -/
def tickDuty (c : Nat) : Duty :=
  if Config.vsWriteFirst ≤ c ∧ c ≤ Config.vsWriteLast then .wide else .narrow

/-- The cursor's advance on an active tick at line `c` (R75): every active tick, or the odd ones of a doubled
profile. -/
def rowAdvance (p : Profile) (c : Nat) : Nat :=
  if p.lineDoubled then (if (c - Config.ntscVTop) % 2 = 1 then p.rowByteWidth else 0) else p.rowByteWidth

/-- Steps 2 to 5 of the tick at line `c` (R74). -/
def State.finishTick (s : State) (c : Nat) : State :=
  let t : State := { s with dutyNext := tickDuty c }
  if c = Config.blankEndLine ∧ s.hookEnd ≠ 0 then t.callHook .fin s.hookEnd c
  else if c = lastLine s.prof ∧ s.hookStart ≠ 0 then t.callHook .start s.hookStart c
  else t.lineAdvance

/-- The tick's body, once it is entered (R74): step 1 dispatches the row at the cursor and advances the cursor. -/
def State.runTick (s : State) : State :=
  let t : State := { s with tickPending := false }.record (.tick s.line)
  if isActive s.prof s.line then
    if dmaOutstanding s then t.raise .dmaOverlap
    else
      let u := t.dmaStart s.cursor s.prof.rowByteWidth
      { u with cursor := s.cursor + rowAdvance s.prof s.line }.finishTick s.line
  else t.finishTick s.line

/-- TICK (R74). -/
def execTick (s : State) : Result :=
  s.unlessFaulted <| if tickEnabled s then .next s.runTick else s.hold

end Sys2Proof.Machine
end

