-- ==== Sys2Proof/Machine/Timer.lean ====
section
/-! DEFINITION. The line timer: BOUNDARY (R86) and COMPARE (R87). -/

namespace Sys2Proof.Machine

/-- BOUNDARY (R86): a deadline miss is recorded first (R126), then the duty is latched and the period's pulse
recorded. -/
def execBoundary (s : State) : Result :=
  s.unlessFaulted <|
    if boundaryEnabled s then
      let t : State := if s.tickPending || decide (s.tickPhase ≠ .idle) then s.record (.deadlineMiss s.line) else s
      let u : State := { t with dutyCur := t.dutyNext }
      .next { u.record (.pulse u.line u.dutyCur) with timerPhase := .nextCompare }
    else s.hold

/-- COMPARE (R87): a request that is still pending merges with this one, and the lost tick is recorded (R122). -/
def execCompare (s : State) : Result :=
  s.unlessFaulted <|
    if compareEnabled s then
      let t : State := if s.tickPending then s.record (.lostTick s.line) else s
      .next { t with tickPending := true, timerPhase := .nextBoundary }
    else s.hold

end Sys2Proof.Machine
end

