-- ==== Sys2Proof/Machine/Dispatch.lean ====
section
/-! DEFINITION. One arm for each row of the opcode table (R65). -/

namespace Sys2Proof.Machine

def exec (i : Instr) (s : State) : Host.Outcome State Fault Refusal :=
  match i with
  | .cmdBegin mode => Sys2Proof.Machine.execBegin mode s
  | .cmdEnd => Sys2Proof.Machine.execEnd s
  | .cmdClear => Sys2Proof.Machine.execClear s
  | .cmdFbrd off => Sys2Proof.Machine.execFbrd off s
  | .cmdFbwr data off => Sys2Proof.Machine.execFbwr data off s
  | .cmdSethook kind handle => Sys2Proof.Machine.execSethook kind handle s
  | .cmdRdreg reg => Sys2Proof.Machine.execRdreg reg s
  | .cmdPolleq reg value => Sys2Proof.Machine.execPolleq reg value s
  | .cmdPollne reg value => Sys2Proof.Machine.execPollne reg value s
  | .cmdWaitf n => Sys2Proof.Machine.execWaitf n s
  | .evBoundary => Sys2Proof.Machine.execBoundary s
  | .evCompare => Sys2Proof.Machine.execCompare s
  | .evTick => Sys2Proof.Machine.execTick s
  | .evHookret => Sys2Proof.Machine.execHookret s
  | .evDmabyte => Sys2Proof.Machine.execDmabyte s
  | .evDmadone => Sys2Proof.Machine.execDmadone s

end Sys2Proof.Machine
end

