-- ==== Sys2Proof/Machine/Fetch.lean ====
section
/-! DEFINITION. What a step runs: which agent steps (R6, R70), and the command its context has next (R81, R100). -/

namespace Sys2Proof.Machine

/-- The event word's instruction for the agents whose step is an event (R63); the two program contexts have none. -/
def agentEvent : Agent → Option Instr
  | .boundary => some .evBoundary
  | .compare => some .evCompare
  | .tick => some .evTick
  | .hookret => some .evHookret
  | .dmabyte => some .evDmabyte
  | .dmadone => some .evDmadone
  | .host | .hook => none

/-- The agent whose step an instruction is: an event's own agent, or the host main context for a command (R63, R70). -/
def agentOf : Instr → Agent
  | .evBoundary => .boundary
  | .evCompare => .compare
  | .evTick => .tick
  | .evHookret => .hookret
  | .evDmabyte => .dmabyte
  | .evDmadone => .dmadone
  | .cmdBegin _ | .cmdEnd | .cmdClear | .cmdFbrd _ | .cmdFbwr _ _ | .cmdSethook _ _ | .cmdRdreg _ | .cmdPolleq _ _
  | .cmdPollne _ _ | .cmdWaitf _ => .host

/-- What an agent has to do next. -/
inductive Fetched
  /-- Run an instruction. -/
  | run (i : Instr)
  /-- A word that is no command: ILLEGAL_COMMAND (R66, R100). -/
  | illegal
  /-- No step is enabled (log 4). -/
  | hold
deriving DecidableEq, Repr

/-- The command in progress, as the instruction that goes on with it: its operands are the kept ones, and WAITF's
count is read from the kept progress, not from the word (R100, log 18). -/
def MultiOp.instr : MultiOp → Instr
  | .clear _ => .cmdClear
  | .poll true reg value => .cmdPolleq reg value
  | .poll false reg value => .cmdPollne reg value
  | .waitf rem _ _ => .cmdWaitf (BitVec.ofNat 16 rem)

/-- The next command of a context: the one in progress, else the word at its pointer (R81, R100). -/
def fetchCommand (op : Option MultiOp) (program : List Word) (pc : Nat) : Fetched :=
  match program[pc]? with
  | none => .hold
  | some w =>
    match op with
    | some o => .run o.instr
    | none =>
      match decodeCommand w with
      | .ok i => .run i
      | .reject _ => .illegal

/-- What an agent has to do next in a state (R81, R100); an event's own enabling condition is in its meaning. -/
def fetch (a : Agent) (s : State) : Fetched :=
  match agentEvent a with
  | some i => .run i
  | none =>
    match a, s.tickPhase with
    | .host, .idle => fetchCommand s.mainOp s.params.mainProgram s.hpc
    | .hook, .hook _ h pc => fetchCommand s.hookOp (s.hookProgram h) pc
    | _, _ => .hold

/-- The agent that steps next, and the state with that choice used up: the head of the schedule, or a free value when
the schedule is empty (log 2). -/
def State.takeAgent (s : State) : Agent × State :=
  match s.sched with
  | a :: rest => (a, { s with sched := rest })
  | [] => (Config.freeAgent s.draws, { s with draws := s.draws + 1 })

/-- Loading one word where the very next step runs it: an event word as the head of the schedule, any other word as
the one-word main program, scheduled next in the main context (log 11). -/
def State.loadWord (s : State) (w : Word) : State :=
  match decodeEvent w with
  | .ok i => { s with sched := agentOf i :: s.sched }
  | .reject _ =>
    { s with
      params := { s.params with mainProgram := [w] }
      hpc := 0
      mainOp := none
      tickPhase := .idle
      sched := .host :: s.sched }

end Sys2Proof.Machine
end

