-- ==== Sys2Proof/Machine/Step.lean ====
section
/-! DEFINITION. One step of the machine (R6), and placing one word where it fetches. -/

namespace Sys2Proof.Machine

/-- One atomic step: the next agent of the schedule does what it has to do. A faulted state has no step (R116), and no
run starts from a configuration that is not admitted (R11). -/
def step (s : State) : Host.Outcome State Fault Refusal :=
  match s.fault with
  | some c => .fault c
  | none =>
    if s.params.wf then
      match fetch s.takeAgent.1 s.takeAgent.2 with
      | .run i => exec i s.takeAgent.2
      | .illegal => .next (s.takeAgent.2.raise .illegalCommand)
      | .hold => s.takeAgent.2.hold
    else .refused .configurationNotAdmitted

/-- The state with a word of the opcode table stored where `step` runs it next (log 11). -/
def State.withFetchWord (s : State) (nbits w : Nat) : State := s.loadWord (BitVec.ofNat 32 (w % 2 ^ nbits))

end Sys2Proof.Machine
end

