-- ==== Sys2Proof/Machine/Video.lean ====
section
/-! DEFINITION. The composite output as the spec observes it: line regions (R19, R72), pixel order (R48), pulse widths
(R90), the level function (R91, R92), and the line records read off the history (R93). No step reads any of it. -/

namespace Sys2Proof.Machine

/-- The names of the line regions (R19). -/
inductive Region
  | preVsync
  | vsync
  | postVsyncBlank
  | activeVideo
  | postVideoBlank
deriving DecidableEq, Repr

/-- The region of a line period (R72). -/
def region (p : Profile) (l : Nat) : Region :=
  if l < Config.ntscSTop then .preVsync
  else if l ≤ Config.ntscSEnd then .vsync
  else if l < Config.ntscVTop then .postVsyncBlank
  else if l ≤ lastLine p then .activeVideo
  else .postVideoBlank

/-- The width in timer counts that a duty stands for: an OPEN parameter (R90). -/
def pulseCounts : Duty → Nat
  | .narrow => Config.hSyncCount
  | .wide => Config.vSyncCount

/-- The clock rate that a profile's DIV stands for: an OPEN parameter (R12). -/
def pixelRate (p : Profile) : Nat := Config.divisorRate p.outputClockDivisor

/-- The three levels of the composite signal (R91). -/
inductive Level
  | sync
  | black
  | white
deriving DecidableEq, Repr

/-- A pixel bit's level (R91). -/
def pixelLevel (bit : Bool) : Level := if bit then .white else .black

/-- The levels the composite output may show: one where the spec fixes it, each value of the draw where it is
unspecified (R91, R92; log 16). -/
def allowedLevels (active syncOn : Bool) (ser : Ser) (bit : Bool) : List Level :=
  if !active then [.sync, .black, .white]
  else if syncOn then [.sync]
  else
    match ser with
    | .shifting => [pixelLevel bit]
    | .idle => [.black]
    | .residual => [.black, .white]

/-- The level for one value `d` of the draw (R91, R92): the draw picks among the allowed levels. -/
def level (active syncOn : Bool) (ser : Ser) (bit : Bool) (d : Nat) : Option Level :=
  (allowedLevels active syncOn ser bit)[d % (allowedLevels active syncOn ser bit).length]?

/-- The pixel levels of a byte in the order they are driven, most significant bit first (R48, R96). -/
def byteLevels (b : Byte) : List Level := (List.range 8).map fun k => pixelLevel (b.getLsbD (7 - k))

/-- The bit of pixel (x, y) (R48). -/
def pixelBit (p : Profile) (m : Memory) (x y : Nat) : Bool :=
  (m.read (y * p.rowByteWidth + x / 8)).getLsbD (7 - x % 8)

/-- What the serial line is after an event (R31): the events alone determine it. -/
def serAfter (ser : Ser) : Event → Ser
  | .begun _ => .residual
  | .ended => .residual
  | .rowStart _ _ => .shifting
  | .rowEnd _ => .residual
  | .idleForced => .idle
  | .pulse _ _ | .deadlineMiss _ | .lostTick _ | .tick _ | .hookCall _ _ _ | .hookRet _ | .pixByte _ _ | .read _ _
  | .fbWrite _ _ | .faulted _ => ser

/-- The bytes of the row that the events from a ROW_START on send: the PIXBYTE values up to its ROW_END (R93).
DESIGN CHOICE (log 22): R93 gives a record no row or all the bytes of one; where no ROW_END comes, because END or a fault
cuts the transfer off or the history ends before it, the row holds the bytes sent so far. -/
def rowBytes : List Event → List Byte
  | [] => []
  | .pixByte _ b :: t => b :: rowBytes t
  | .rowEnd _ :: _ | .rowStart _ _ :: _ | .ended :: _ | .begun _ :: _ => []
  | .pulse _ _ :: t | .deadlineMiss _ :: t | .lostTick _ :: t | .tick _ :: t | .hookCall _ _ _ :: t | .hookRet _ :: t
  | .idleForced :: t | .read _ _ :: t | .fbWrite _ _ :: t | .faulted _ :: t => rowBytes t

/-- The row of a period: the first ROW_START after its PULSE and before the next PULSE, with its bytes (R93);
a row without a ROW_END holds the bytes sent so far (log 22). -/
def periodRow : List Event → Option (Nat × List Byte)
  | [] => none
  | .pulse _ _ :: _ => none
  | .rowStart _ off :: t => some (off, rowBytes t)
  | .pixByte _ _ :: t | .rowEnd _ :: t | .ended :: t | .begun _ :: t | .deadlineMiss _ :: t | .lostTick _ :: t
  | .tick _ :: t | .hookCall _ _ _ :: t | .hookRet _ :: t | .idleForced :: t | .read _ _ :: t | .fbWrite _ _ :: t
  | .faulted _ :: t => periodRow t

/-- A stretch of a line period (R93). How long a stretch lasts, and whether it has any length, is not modelled (R15). -/
inductive Segment
  /-- The period's sync pulse. -/
  | sync (duty : Duty)
  /-- The forced idle value. -/
  | black
  /-- The RESIDUAL draw, at every instant. -/
  | residual
  /-- The rest of a row that an earlier period started: its bits stand in the record of its ROW_START (log 16). -/
  | carried
  /-- The pixel levels of a row, in the order they are driven. -/
  | pixels (levels : List Level)
  /-- The engine has stopped inside the period (R92). -/
  | off
deriving DecidableEq, Repr

/-- The levels that a stretch may show at its instants (R91, R92, R93). -/
def Segment.levels : Segment → List Level
  | .sync _ => [.sync]
  | .black => [.black]
  | .residual | .carried => [.black, .white]
  | .pixels levels => levels
  | .off => [.sync, .black, .white]

/-- The stretch after the pulse, by what the serial line is where the period begins (R91, R93). -/
def stretchOf : Ser → Segment
  | .idle => .black
  | .residual => .residual
  | .shifting => .carried

/-- The stretches that the events of a period begin, up to the next PULSE, each where an event changes the serial line
(R31, R91, R93): IDLE_FORCED may come before the row or after it. A row that is cut off shows the pixels of the bytes
sent so far (log 22). After END nothing more is shown in the period (R92). -/
def stretches : List Event → List Segment
  | [] => []
  | .pulse _ _ :: _ => []
  | .ended :: _ => [.off]
  | .idleForced :: t => .black :: stretches t
  | .rowStart _ _ :: t => .pixels ((rowBytes t).flatMap byteLevels) :: stretches t
  | .rowEnd _ :: t | .begun _ :: t => .residual :: stretches t
  | .pixByte _ _ :: t | .deadlineMiss _ :: t | .lostTick _ :: t | .tick _ :: t | .hookCall _ _ _ :: t | .hookRet _ :: t
  | .read _ _ :: t | .fbWrite _ _ :: t | .faulted _ :: t => stretches t

/-- The record of one line period (R93), with what the period shows, in order. -/
structure LineRecord where
  label : Nat
  pulse : Duty
  row : Option (Nat × List Byte)
  shows : List Segment
deriving DecidableEq, Repr

/-- The record that a PULSE opens, from what the serial line is there and the events after it (R93). -/
def lineRecord (ser : Ser) (l : Nat) (d : Duty) (after : List Event) : LineRecord :=
  { label := l, pulse := d, row := periodRow after, shows := .sync d :: stretchOf ser :: stretches after }

/-- The line records of a history whose serial line starts as `ser` (R93): each PULSE opens one. -/
def lineRecordsFrom (ser : Ser) : List Event → List LineRecord
  | [] => []
  | .pulse l d :: t => lineRecord ser l d t :: lineRecordsFrom ser t
  | e :: t => lineRecordsFrom (serAfter ser e) t

/-- The composite output of a run, as a function of its history (R35, R93). -/
def lineRecords (hist : List Event) : List LineRecord := lineRecordsFrom .residual hist

end Sys2Proof.Machine
end

