-- ==== Sys2Proof/Safety.lean ====
section
/-! DEFINITION. What counts as a safe run, in the terms the statements use: the invariants that the spec derives
(R23..R33, R77, R89, R125), a run's end (R113), and running one instruction several times. -/

namespace Sys2Proof.Safety

open Sys2Proof.Machine

/-! ### The engine's invariant -/

/-- The framebuffer holds a canonical memory inside its size (R33, R41). -/
def FbOk (s : State) : Prop :=
  ∃ m, s.fb = some m ∧ m.wf = true ∧ ∀ cell ∈ m, cell.1 < fbSize s.prof

/-- A transfer lies inside the framebuffer and is one whole row (R30, R77, R95). -/
def TransferOk (p : Profile) (off n i : Nat) : Prop :=
  i < n ∧ n = p.rowByteWidth ∧ off % p.rowByteWidth = 0 ∧ off + n ≤ fbSize p

/-- A suspended tick is in the program of a registered hook, at its line (R29, R79, R81). -/
def HookOk (s : State) (k : HookKind) (h : Half) (pc : Nat) : Prop :=
  h ≠ 0 ∧ pc ≤ (s.hookProgram h).length ∧
    s.line = (match k with
      | .fin => 4
      | .start => 30 + s.prof.scanLinesUsed - 1)

/-- The state's parts fit together: what R23 to R33 and R40 say of an active and of an inactive engine. -/
structure EngineInv (s : State) : Prop where
  config : s.params.wf = true
  profile : s.active = true → s.params.profileTable[s.profId]? = some s.prof
  line : s.active = true → 1 ≤ s.line ∧ s.line ≤ 264
  framebuffer : s.active = true → FbOk s
  inactive : s.active = false →
    s.fb = none ∧ s.dma = .idle ∧ s.tickPending = false ∧ s.donePending = false ∧ s.tickPhase = .idle ∧
      s.ser = .residual
  transfer : ∀ off n i, s.dma = .busy off n i → TransferOk s.prof off n i
  serial : s.dma ≠ .idle ↔ s.ser = .shifting
  completion : s.donePending = true → s.ser = .residual
  hook : ∀ k h pc, s.tickPhase = .hook k h pc → HookOk s k h pc

/-- The cursor of a line, where no tick is running: the table of R77. -/
def cursorAt (p : Profile) (l : Nat) : Nat :=
  if l ≤ 30 then 0
  else if l ≤ 30 + p.scanLinesUsed then
    (if p.lineDoubled then (l - 30) / 2 * p.rowByteWidth else (l - 30) * p.rowByteWidth)
  else fbSize p

/-- The cursor invariant (R77), the two hooks included. -/
def CursorInv (s : State) : Prop :=
  s.active = true →
    s.cursor =
      match s.tickPhase with
      | .idle => cursorAt s.prof s.line
      | .hook .fin _ _ => 0
      | .hook .start _ _ => fbSize s.prof

/-- CLEAR in progress: the engine is active and offsets of the framebuffer are left (R105). -/
def ClearOk (s : State) (remaining : List Nat) : Prop :=
  s.active = true ∧ remaining ≠ [] ∧ remaining.Nodup ∧ ∀ r ∈ remaining, r < fbSize s.prof

/-- The progress kept for each context is one that its commands make (R34, R101, R105, R111). -/
structure ProgressInv (s : State) : Prop where
  mainClear : ∀ r, s.mainOp = some (.clear r) → ClearOk s r
  mainWait : ∀ rem phase fl, s.mainOp = some (.waitf rem phase fl) →
    s.active = true ∧ 1 ≤ rem ∧ rem < 65536 ∧ fl = 30 + s.prof.scanLinesUsed
  mainPoll : ∀ e r v, s.mainOp = some (.poll e r v) → s.active = true ∨ readableInactive r = true
  hookClear : ∀ op, s.hookOp = some op → ∃ r, op = .clear r ∧ ClearOk s r
  hookIdle : s.tickPhase = .idle → s.hookOp = none

/-- The invariant of every run: no run leaves it (R23..R33, R77, R105, R111). -/
structure RunInv (s : State) : Prop where
  engine : EngineInv s
  cursor : CursorInv s
  progress : ProgressInv s

/-! ### The history -/

/-- The serial line is what the history's events make it (R31, R35). -/
def SerialFollowsHistory (s : State) : Prop := s.ser = s.hist.foldl serAfter .residual

/-- A FAULT event stands in the history exactly where the state is faulted with its code (R115, R116). -/
def FaultFollowsHistory (s : State) : Prop := ∀ c, Event.faulted c ∈ s.hist ↔ s.fault = some c

/-! ### Deadlines and pulses -/

/-- No deadline is missed, no tick is lost, and no transfer overlaps the next (R125). -/
def NoMiss (hist : List Event) : Prop :=
  (∀ l, Event.deadlineMiss l ∉ hist) ∧ (∀ l, Event.lostTick l ∉ hist) ∧ Event.faulted .dmaOverlap ∉ hist

/-- What TIMING_ASSUMPTIONS keeps between the line timer, the tick and the transfer (R125). -/
structure TimingInv (s : State) : Prop where
  noMiss : NoMiss s.hist
  compareNext : s.active = true → s.timerPhase = .nextCompare → s.tickPending = false ∧ s.tickPhase = .idle
  tickReady : s.tickPending = true → s.dma = .idle ∧ s.donePending = false ∧ s.tickPhase = .idle

/-- The duty of the pulse of line period `l` (R89). -/
def pulseDuty (l : Nat) : Duty := if 3 ≤ l ∧ l ≤ 5 then .wide else .narrow

/-- The line after `l` (R78). -/
def nextLine (l : Nat) : Nat := if l = 264 then 1 else l + 1

/-- The label of the last PULSE since the last BEGIN of a history. -/
def lastLabel : List Event → Option Nat :=
  List.foldl (fun last e =>
    match e with
    | .begun _ => none
    | .pulse l _ => some l
    | _ => last) none

/-- From every BEGIN of a history on, the PULSE events carry the labels 1, 2, ..., 264, 1, 2, ... in order, each with
its line's duty (R89); `last` is the label before the list's first event. -/
def PulsesInOrder : Option Nat → List Event → Prop
  | _, [] => True
  | _, .begun _ :: t => PulsesInOrder none t
  | none, .pulse l d :: t => l = 1 ∧ d = pulseDuty 1 ∧ PulsesInOrder (some 1) t
  | some k, .pulse l d :: t => l = nextLine k ∧ d = pulseDuty l ∧ PulsesInOrder (some l) t
  | last, _ :: t => PulsesInOrder last t

/-- What keeps the pulses in order (R71, R85, R89): the period in progress is labelled with the tick's line until its
tick has run, and the duty register holds the next period's duty once it has. -/
structure PulseInv (s : State) : Prop where
  order : PulsesInOrder none s.hist
  current : s.active = true → (s.timerPhase = .nextCompare ∨ s.tickPending = true ∨ s.tickPhase ≠ .idle) →
    lastLabel s.hist = some s.line
  waiting : s.active = true → s.timerPhase = .nextBoundary → s.tickPending = false → s.tickPhase = .idle →
    (∃ l, lastLabel s.hist = some l ∧ s.line = nextLine l) ∧ s.dutyNext = pulseDuty s.line
  running : s.active = true → s.tickPhase ≠ .idle → s.dutyNext = pulseDuty (nextLine s.line)

/-! ### When an agent may step, in the words of its rule -/

/-- BOUNDARY's "Enabled when" (R86). -/
def MayBoundary (s : State) : Prop :=
  s.active = true ∧ s.fault = none ∧ s.timerPhase = .nextBoundary ∧
    (s.params.timingAssumptions = true → s.tickPending = false ∧ s.tickPhase = .idle)

/-- COMPARE's "Enabled when" (R87). -/
def MayCompare (s : State) : Prop :=
  s.active = true ∧ s.fault = none ∧ s.timerPhase = .nextCompare ∧
    (s.params.timingAssumptions = true → s.dma = .idle ∧ s.donePending = false)

/-- The main context is inside POLLEQ, POLLNE or WAITF (R74). -/
def InsidePoll (s : State) : Prop :=
  (∃ e r v, s.mainOp = some (.poll e r v)) ∨ (∃ rem ph fl, s.mainOp = some (.waitf rem ph fl))

/-- TICK's "Enabled when" (R74). -/
def MayTick (s : State) : Prop :=
  s.active = true ∧ s.fault = none ∧ s.tickPending = true ∧ s.tickPhase = .idle ∧
    ¬ (s.params.pollDense = true ∧ InsidePoll s ∧ s.polled = false)

/-- HOOKRET's "Enabled when" (R82). -/
def MayHookret (s : State) : Prop :=
  s.fault = none ∧ s.hookOp = none ∧ ∃ k h, s.tickPhase = .hook k h (s.hookProgram h).length

/-- DMABYTE's "Enabled when" (R96). -/
def MayDmabyte (s : State) : Prop := s.active = true ∧ s.fault = none ∧ ∃ off n i, s.dma = .busy off n i

/-- DMADONE's "Enabled when" (R97). -/
def MayDmadone (s : State) : Prop :=
  s.active = true ∧ s.fault = none ∧ s.donePending = true ∧ s.tickPending = false ∧ s.tickPhase = .idle

/-! ### Parts of the statements -/

/-- The running context's pointer one further and its command retired (R81, R100): nothing else differs. -/
def advanced (s : State) : State :=
  match s.tickPhase with
  | .idle => { s with hpc := s.hpc + 1, mainOp := none }
  | .hook k h pc => { s with tickPhase := .hook k h (pc + 1), hookOp := none }

/-- A fault raised: nothing but `fault` and the history differs (R116). -/
def faulted (s : State) (c : Fault) : State := { s with fault := some c, hist := s.hist ++ [.faulted c] }

/-- A command of the running context is in progress as a CLEAR (R34, R105). -/
def clearing (s : State) (left : List Nat) : Prop :=
  match s.tickPhase with
  | .idle => s.mainOp = some (.clear left)
  | .hook _ _ _ => s.hookOp = some (.clear left)

/-- R66's list of words that are no commands. -/
def ReservedCommand (w : Word) : Prop :=
  let op := w.toNat / 2 ^ 24
  let a := w.toNat / 2 ^ 16 % 2 ^ 8
  let b := w.toNat % 2 ^ 16
  op = 0x00 ∨ (0x0B ≤ op ∧ op ≤ 0x7F) ∨ (0x80 ≤ op ∧ op ≤ 0x85) ∨ (0x86 ≤ op ∧ op ≤ 0xFF) ∨ (op = 0x01 ∧ b ≠ 0) ∨
    ((op = 0x02 ∨ op = 0x03) ∧ (a ≠ 0 ∨ b ≠ 0)) ∨ (op = 0x04 ∧ a ≠ 0) ∨ (op = 0x06 ∧ 0x02 ≤ a) ∨
    ((op = 0x07 ∨ op = 0x08 ∨ op = 0x09) ∧ 0x10 ≤ a) ∨ (op = 0x07 ∧ b ≠ 0) ∨ (op = 0x0A ∧ a ≠ 0)

/-- The registers in the order of their numbers 0x00..0x0F (R37). -/
def registerTable : List Reg :=
  [ .status, .line, .cursor, .profile, .width, .height, .fbsize, .rowbytes, .scanlines, .doubled, .divisor,
    .frameline, .lastactive, .hookstart, .hookend, .fbbase ]

/-- The operands of an instruction are the fields of its word that R64 and the column "fields" of R65 name. -/
def OperandsAre (w : Word) : Instr → Prop
  | .cmdBegin mode => mode.toNat = w.toNat / 2 ^ 16 % 2 ^ 8
  | .cmdFbrd off => off.toNat = w.toNat % 2 ^ 16
  | .cmdFbwr data off => data.toNat = w.toNat / 2 ^ 16 % 2 ^ 8 ∧ off.toNat = w.toNat % 2 ^ 16
  | .cmdSethook kind handle => (kind = .fin ↔ w.toNat / 2 ^ 16 % 2 = 1) ∧ handle.toNat = w.toNat % 2 ^ 16
  | .cmdRdreg reg => registerTable[w.toNat / 2 ^ 16 % 2 ^ 4]? = some reg
  | .cmdPolleq reg value | .cmdPollne reg value =>
    registerTable[w.toNat / 2 ^ 16 % 2 ^ 4]? = some reg ∧ value.toNat = w.toNat % 2 ^ 16
  | .cmdWaitf n => n.toNat = w.toNat % 2 ^ 16
  | .cmdEnd | .cmdClear | .evBoundary | .evCompare | .evTick | .evHookret | .evDmabyte | .evDmadone => True

/-- The value column of R37, by register, with the natural-number fields read as 32-bit values. -/
def RegisterHolds (s : State) (r : Reg) (v : Word) : Prop :=
  match r with
  | .status =>
    (∀ k, k < 32 → v.getLsbD k =
      ([s.active, s.dma != .idle, s.donePending, s.tickPending, s.tickPhase != .idle, s.dutyNext == .wide,
        s.dutyCur == .wide, s.ser == .idle].getD k false))
  | .line => v.toNat = s.line % 2 ^ 32
  | .cursor => v.toNat = s.cursor % 2 ^ 32
  | .profile => v.toNat = s.profId % 2 ^ 32
  | .width => v.toNat = s.prof.pixelWidth % 2 ^ 32
  | .height => v.toNat = s.prof.pixelHeight % 2 ^ 32
  | .fbsize => v.toNat = s.prof.rowByteWidth * s.prof.pixelHeight % 2 ^ 32
  | .rowbytes => v.toNat = s.prof.rowByteWidth % 2 ^ 32
  | .scanlines => v.toNat = s.prof.scanLinesUsed % 2 ^ 32
  | .doubled => v.toNat = if s.prof.lineDoubled then 1 else 0
  | .divisor => v = s.prof.outputClockDivisor
  | .frameline => v.toNat = (30 + s.prof.scanLinesUsed) % 2 ^ 32
  | .lastactive => v.toNat = (30 + s.prof.scanLinesUsed - 1) % 2 ^ 32
  | .hookstart => v.toNat = s.hookStart.toNat
  | .hookend => v.toNat = s.hookEnd.toNat
  | .fbbase => v = s.fbBase

/-- The duty that the tick at line `c` writes (R85). -/
def tickWrites (c : Nat) : Duty := if 2 ≤ c ∧ c ≤ 4 then .wide else .narrow

/-! ### The line records, in the words of R93 -/

/-- The PULSE events of a history: label and duty, in order (R93). -/
def pulseList (hist : List Event) : List (Nat × Duty) :=
  hist.filterMap fun e =>
    match e with
    | .pulse l d => some (l, d)
    | _ => none

/-- The bytes of the PIXBYTE events among `events`, in order (R93, R96). -/
def pixValues (events : List Event) : List Byte :=
  events.filterMap fun e =>
    match e with
    | .pixByte _ b => some b
    | _ => none

/-- `period` is what follows a PULSE, up to the next PULSE or to the end of the history (R93). -/
def PeriodOf (after period : List Event) : Prop :=
  (∀ l d, Event.pulse l d ∉ period) ∧ (after = period ∨ ∃ l d later, after = period ++ .pulse l d :: later)

/-- An event that opens no period and leaves the serial line and the engine as they are (R23, R31, R86). -/
def unseen : Event → Bool
  | .pixByte _ _ | .deadlineMiss _ | .lostTick _ | .tick _ | .hookCall _ _ _ | .hookRet _ | .read _ _ | .fbWrite _ _
  | .faulted _ => true
  | .pulse _ _ | .rowStart _ _ | .rowEnd _ | .idleForced | .begun _ | .ended => false

/-! ### Admitted configurations, in the words of R10 and R11 -/

/-- WF(p) of R11, with 235 for its NTSC_LINE - NTSC_VTOP + 1 and RB * H for FBSIZE (R9). -/
def ProfileAdmitted (p : Profile) : Prop :=
  p.pixelWidth % 8 = 0 ∧ 8 ≤ p.pixelWidth ∧ p.rowByteWidth = p.pixelWidth / 8 ∧ 1 ≤ p.pixelHeight ∧
    (p.lineDoubled = true → p.scanLinesUsed = 2 * p.pixelHeight) ∧
    (p.lineDoubled = false → p.scanLinesUsed = p.pixelHeight) ∧ 1 ≤ p.scanLinesUsed ∧ p.scanLinesUsed ≤ 235 ∧
    p.rowByteWidth * p.pixelHeight ≤ 65536

/-- The conditions of R10 on the table and the default id, and R11's on every entry. -/
def ConfigurationAdmitted (c : Params) : Prop :=
  1 ≤ c.profileTable.length ∧ c.profileTable.length ≤ 256 ∧ c.defaultProfileId < c.profileTable.length ∧
    ∀ p ∈ c.profileTable, ProfileAdmitted p

/-! ### Runs -/

/-- A run's end (R113). -/
def runEnded (s : State) : Bool :=
  (decide (s.hpc = s.params.mainProgram.length) && s.mainOp.isNone) || s.fault.isSome

/-- No agent has a step (R113, R116). -/
def quiescent (s : State) : Bool :=
  [Agent.boundary, .compare, .tick, .hookret, .dmabyte, .dmadone, .host, .hook].all fun a => !agentEnabled s a

/-- The same instruction `n` times over, with no other agent in between. -/
def repeatExec (i : Instr) : Nat → State → Result
  | 0, s => .next s
  | n + 1, s =>
    match exec i s with
    | .next t => repeatExec i n t
    | .fault c => .fault c
    | .refused r => .refused r

end Sys2Proof.Safety
end

