-- ==== Sys2Proof/Certificates/Slice0/Obligations.lean ====
section
/-! DEFINITION. The statements for the provers. Each docstring says which rules of spec/ it formalises. -/

open Sys2Proof Sys2Proof.Machine Sys2Proof.Safety

/-! ## Encoding -/

/-- R62..R65: every instruction's word, as the table numbers its bits, decodes to that instruction with every operand
at every value, both by the decoder and through the table's numbering of the bits. -/
def Obligations.DecodeInvertsEncode : Prop :=
  ∀ i : Instr, decode (encode i) = .ok i ∧ decodeTableWord 32 (encode i).toNat = some i

/-- R61, R65: a word that decodes has no other spelling: encoding what it decodes to gives the word back. -/
def Obligations.EncodeInvertsDecode : Prop := ∀ (w : Word) (i : Instr), decode w = .ok i → encode i = w

/-- R64, R65, whole: a word decodes to the row `m` exactly where its masked bits match, no word matches two rows, and
the operands are the fields that the row names. -/
def Obligations.DecodeAgreesWithMaskAndMatch : Prop :=
  (∀ (w : Word) (m : Mnemonic), (∃ i, decode w = .ok i ∧ i.mnemonic = m) ↔ w &&& m.mask = m.pattern) ∧
    (∀ (w : Word) (m m' : Mnemonic), w &&& m.mask = m.pattern → w &&& m'.mask = m'.pattern → m = m') ∧
    ∀ (w : Word) (i : Instr), decode w = .ok i → OperandsAre w i

/-- The words of 95_test_vectors.md section 3.1 and 30_encoding.md R68 decode as written there. -/
def Obligations.SpecVectorsDecode : Prop :=
  decode 0x01020000 = .ok (.cmdBegin 2) ∧ decode 0x02000000 = .ok .cmdEnd ∧ decode 0x03000000 = .ok .cmdClear ∧
    decode 0x04000003 = .ok (.cmdFbrd 3) ∧ decode 0x05810003 = .ok (.cmdFbwr 0x81 3) ∧
    decode 0x06010005 = .ok (.cmdSethook .fin 5) ∧ decode 0x070F0000 = .ok (.cmdRdreg .fbbase) ∧
    decode 0x0801001F = .ok (.cmdPolleq .line 31) ∧ decode 0x09010020 = .ok (.cmdPollne .line 32) ∧
    decode 0x0A000003 = .ok (.cmdWaitf 3) ∧ decodeEvent 0x80000000 = .ok .evBoundary ∧
    decodeEvent 0x85000000 = .ok .evDmadone ∧ decodeCommand 0x00000000 = .reject .reservedOpcode ∧
    decodeCommand 0x80000000 = .reject .eventInCommandStream

/-- R66: exactly the words of its list are no commands; reached in MAIN_PROGRAM or in a hook program, such a word
raises ILLEGAL_COMMAND before any effect; and the event words are exactly the six patterns. -/
def Obligations.ReservedWordsFaultWhereTheyAreReached : Prop :=
  (∀ w : Word, ReservedCommand w ↔ ∀ i, decodeCommand w ≠ .ok i) ∧
    (∀ (w : Word) (s : State) (rest : List Agent), ReservedCommand w → s.fault = none → s.params.wf = true →
      ((s.sched = .host :: rest ∧ s.tickPhase = .idle ∧ s.mainOp = none ∧ s.params.mainProgram[s.hpc]? = some w) ∨
       (s.sched = .hook :: rest ∧ s.hookOp = none ∧
          ∃ k h pc, s.tickPhase = .hook k h pc ∧ (s.hookProgram h)[pc]? = some w)) →
      step s = .next { s with sched := rest, fault := some .illegalCommand,
                              hist := s.hist ++ [.faulted .illegalCommand] }) ∧
    ∀ w : Word, (∃ i, decodeEvent w = .ok i) ↔
      w = 0x80000000 ∨ w = 0x81000000 ∨ w = 0x82000000 ∨ w = 0x83000000 ∨ w = 0x84000000 ∨ w = 0x85000000

/-! ## Steps, schedules and faults -/

/-- R70, R81, R100: a step of the scheduled agent runs what that agent has: the command that the word at the running
context's pointer decodes to, or the event itself. The schedule moves on by one, and nothing else changes around it. -/
def Obligations.StepRunsTheDecodedInstruction : Prop :=
  ∀ (s : State) (rest : List Agent), s.fault = none → s.params.wf = true →
    (∀ (w : Word) (i : Instr), decodeCommand w = .ok i →
      (s.sched = .host :: rest → s.tickPhase = .idle → s.mainOp = none → s.params.mainProgram[s.hpc]? = some w →
        step s = exec i { s with sched := rest }) ∧
      (∀ k h pc, s.sched = .hook :: rest → s.tickPhase = .hook k h pc → s.hookOp = none →
        (s.hookProgram h)[pc]? = some w → step s = exec i { s with sched := rest })) ∧
    (∀ (w : Word) (i : Instr), decodeEvent w = .ok i → s.sched = agentOf i :: rest →
      step s = exec i { s with sched := rest })

/-- R81, R100: while a command is in progress, a step of its context, the main one or a hook's, goes on with it,
whatever the word is (log 18). A hook step at the end of its program takes no step; that it leaves the state as it is
is the model's choice (log 4). -/
def Obligations.StepGoesOnWithTheCommandInProgress : Prop :=
  ∀ (s : State) (rest : List Agent), s.fault = none → s.params.wf = true →
    (s.sched = .host :: rest → s.tickPhase = .idle → s.hpc < s.params.mainProgram.length →
      (∀ left, s.mainOp = some (.clear left) → step s = exec .cmdClear { s with sched := rest }) ∧
      (∀ r v, s.mainOp = some (.poll true r v) → step s = exec (.cmdPolleq r v) { s with sched := rest }) ∧
      (∀ r v, s.mainOp = some (.poll false r v) → step s = exec (.cmdPollne r v) { s with sched := rest }) ∧
      (∀ rem ph fl n, s.mainOp = some (.waitf rem ph fl) → step s = exec (.cmdWaitf n) { s with sched := rest })) ∧
    ∀ k h pc, s.sched = .hook :: rest → s.tickPhase = .hook k h pc →
      (∀ left, pc < (s.hookProgram h).length → s.hookOp = some (.clear left) →
        step s = exec .cmdClear { s with sched := rest }) ∧
      ((s.hookProgram h).length ≤ pc → step s = .next { s with sched := rest })

/-- R100, R123, R124: the main context takes no step while a tick runs or once its program is exhausted, and a pending
tick or completion does not block it. That a disabled agent leaves the state as it is is the model's choice (log 4). -/
def Obligations.MainContextIsPreemptedByTheTick : Prop :=
  ∀ (s : State) (rest : List Agent), s.fault = none → s.params.wf = true → s.sched = .host :: rest →
    (s.tickPhase ≠ .idle ∨ s.params.mainProgram.length ≤ s.hpc → step s = .next { s with sched := rest }) ∧
    (∀ (p q : Bool) w, s.tickPhase = .idle → s.mainOp = none → s.params.mainProgram[s.hpc]? = some w →
      decodeCommand w = .ok .cmdEnd → s.active = true →
        ∃ t, step { s with tickPending := p, donePending := q } = .next t ∧ t.active = false)

/-- R6 and the "Enabled when" lists of R74, R82, R86, R87, R96, R97: an event whose condition does not hold takes no
step. That it leaves the state as it is is the model's choice (log 4). -/
def Obligations.DisabledEventChangesNothing : Prop :=
  ∀ s : State, s.fault = none →
    (¬ MayBoundary s → exec .evBoundary s = .next s) ∧ (¬ MayCompare s → exec .evCompare s = .next s) ∧
    (¬ MayTick s → exec .evTick s = .next s) ∧ (¬ MayHookret s → exec .evHookret s = .next s) ∧
    (¬ MayDmabyte s → exec .evDmabyte s = .next s) ∧ (¬ MayDmadone s → exec .evDmadone s = .next s)

/-- R116: no step leaves a faulted state, by any instruction or by any agent. -/
def Obligations.NoStepLeavesAFaultedState : Prop :=
  ∀ (s : State) (c : Fault), s.fault = some c → step s = .fault c ∧ ∀ i, exec i s = .fault c

/-- R116: a host command that faults changes nothing but `fault` and the history, which records the same code; its
pointer does not advance. -/
def Obligations.FaultingCommandChangesOnlyFaultAndHistory : Prop :=
  ∀ (i : Instr) (s t : State) (c : Fault), i.isEvent = false → exec i s = .next t → t.fault = some c →
    t = { s with fault := some c, hist := s.hist ++ [.faulted c] }

/-- R10, R11: a state that is not faulted is refused as a configuration exactly where the table's length, the default
id or an entry breaks a condition that they list. That it is a refusal at every step is the model's choice (log 10). -/
def Obligations.IllFormedConfigurationIsRefused : Prop :=
  ∀ s : State, s.fault = none → (step s = .refused .configurationNotAdmitted ↔ ¬ ConfigurationAdmitted s.params)

/-- The model's loading of one word (log 11): the next step runs it. -/
def Obligations.PlacedWordRunsNext : Prop :=
  ∀ (s : State) (i : Instr), s.fault = none → s.params.wf = true →
    ∃ u, step (s.withFetchWord 32 (encode i).toNat) = exec i u ∧
      (i.isEvent = true → u = s) ∧
      (i.isEvent = false → u = { s with params := { s.params with mainProgram := [encode i] }, hpc := 0,
                                        mainOp := none, tickPhase := .idle })

/-! ## Reset -/

/-- R40, R133: the power-on values that the spec states. -/
def Obligations.PowerOnStateIsInactive : Prop :=
  let s := State.reset
  s.active = false ∧ s.timerPhase = .nextBoundary ∧ s.tickPending = false ∧ s.tickPhase = .idle ∧ s.dma = .idle ∧
    s.donePending = false ∧ s.ser = .residual ∧ s.hookStart = 0 ∧ s.hookEnd = 0 ∧ s.fb = none ∧ s.hpc = 0 ∧
    s.mainOp = none ∧ s.hookOp = none ∧ s.polled = false ∧ s.fault = none ∧ s.hist = []

/-- R40, R133: the power-on state meets every invariant that is stated below, with every admitted configuration; the
parameters that the reset state itself holds, a fixture table that is the model's choice (log 1), are admitted. -/
def Obligations.ResetMeetsTheInvariants : Prop :=
  (∀ c : Params, c.wf = true →
    RunInv { State.reset with params := c } ∧ TimingInv { State.reset with params := c } ∧
      PulseInv { State.reset with params := c } ∧ SerialFollowsHistory { State.reset with params := c } ∧
      FaultFollowsHistory { State.reset with params := c }) ∧
    State.reset.params.wf = true

/-! ## Lifecycle -/

/-- R103, R134: BEGIN from an inactive engine selects the mode's profile, or the default for an out-of-range mode, and
starts the engine. Every framebuffer byte reads 0, the base address leaves room for the framebuffer, the hooks keep
their handles, and nothing else changes but the draws used. -/
def Obligations.BeginStartsTheEngine : Prop :=
  ∀ (m : Byte) (s : State) (id : Nat) (p : Profile), s.fault = none → s.params.wf = true → s.tickPhase = .idle →
    s.active = false →
    id = (if m.toNat < s.params.profileTable.length then m.toNat else s.params.defaultProfileId) →
    s.params.profileTable[id]? = some p → p.rowByteWidth * p.pixelHeight ∉ s.params.allocFails →
    ∃ t, exec (.cmdBegin m) s = .next t ∧
      t = { s with
            active := true, profId := id, prof := p, line := 1, cursor := 0, dutyNext := .narrow, dutyCur := .narrow,
            timerPhase := .nextCompare, tickPending := false, dma := .idle, donePending := false, ser := .residual,
            fb := t.fb, fbBase := t.fbBase, hpc := s.hpc + 1, mainOp := none, polled := false,
            hist := s.hist ++ [.begun id, .pulse 1 .narrow], oracle := t.oracle, draws := t.draws } ∧
      (∀ off, off < p.rowByteWidth * p.pixelHeight → t.readByte off = some 0) ∧
      t.fbBase.toNat + p.rowByteWidth * p.pixelHeight ≤ 2 ^ 32

/-- R103, R117: BEGIN faults in a hook, then while active, then where the allocation fails, in this order. -/
def Obligations.BeginFaultsInOrder : Prop :=
  ∀ (m : Byte) (s : State), s.fault = none →
    (s.tickPhase ≠ .idle → exec (.cmdBegin m) s = .next (faulted s .hookContext)) ∧
    (s.tickPhase = .idle → s.active = true → exec (.cmdBegin m) s = .next (faulted s .alreadyActive)) ∧
    (∀ p, s.tickPhase = .idle → s.active = false →
      s.params.profileTable[if m.toNat < s.params.profileTable.length then m.toNat
        else s.params.defaultProfileId]? = some p →
      p.rowByteWidth * p.pixelHeight ∈ s.params.allocFails →
        exec (.cmdBegin m) s = .next (faulted s .allocFail))

/-- R42, R103, U27 and U28 of 93_implementation_defined.md: the draws leave nothing out. Every base address that
leaves room for the framebuffer is some draw's at BEGIN, and every offset that CLEAR has left, at its first step every
offset of the framebuffer, is some draw's (log 3). -/
def Obligations.DrawsReachEveryAllowedValue : Prop :=
  ∀ (s : State), s.fault = none →
    (∀ (m : Byte) (p : Profile) (a : Word), s.params.wf = true → s.tickPhase = .idle → s.active = false →
      s.params.profileTable[if m.toNat < s.params.profileTable.length then m.toNat
        else s.params.defaultProfileId]? = some p →
      p.rowByteWidth * p.pixelHeight ∉ s.params.allocFails → a.toNat + p.rowByteWidth * p.pixelHeight ≤ 2 ^ 32 →
      ∃ v t, exec (.cmdBegin m) { s with oracle := v :: s.oracle } = .next t ∧ t.fbBase = a) ∧
    (∀ (left : List Nat) (m : Memory) (r : Nat),
      (clearing s left ∨ (s.active = true ∧ (∀ l, ¬ clearing s l) ∧ left = List.range (fbSize s.prof))) →
      s.fb = some m → r ∈ left → (∀ x ∈ left, x < fbSize s.prof) →
      ∃ v t, exec .cmdClear { s with oracle := v :: s.oracle } = .next t ∧ t.hist = s.hist ++ [.fbWrite r 0])

/-- R104: END stops the engine, abandons the transfer, discards what is pending and releases the framebuffer; the
hooks, the profile, the line, the cursor and the duties keep their values. -/
def Obligations.EndStopsTheEngine : Prop :=
  ∀ s : State, s.fault = none → s.tickPhase = .idle → s.active = true →
    exec .cmdEnd s = .next
      { s with active := false, tickPending := false, dma := .idle, donePending := false, ser := .residual, fb := none,
               hpc := s.hpc + 1, mainOp := none, hist := s.hist ++ [.ended] }

/-- R144: once END has retired, no tick, hook, DMA byte or done handler runs, and FBRD and FBWR fault NOT_ACTIVE. That
an agent which does not run leaves the state as it is is the model's choice (log 4). -/
def Obligations.NothingRunsAfterEnd : Prop :=
  ∀ s t : State, s.active = true → exec .cmdEnd s = .next t → t.fault = none →
    (∀ i, i.isEvent = true → exec i t = .next t) ∧
    (∀ rest, t.params.wf = true → t.sched = .hook :: rest → step t = .next { t with sched := rest }) ∧
    (∀ off, exec (.cmdFbrd off) t = .next (faulted t .notActive)) ∧
    (∀ data off, exec (.cmdFbwr data off) t = .next (faulted t .notActive))

/-- R101, R117: in a hook, the lifecycle and blocking commands fault HOOK_CONTEXT before any other check. -/
def Obligations.BlockingCommandsFaultInAHook : Prop :=
  ∀ (i : Instr) (s : State), i.mainOnly = true → s.fault = none → s.tickPhase ≠ .idle →
    exec i s = .next (faulted s .hookContext)

/-- R105..R107, R109..R111, R104 and R117: while inactive, the commands that need an active engine fault NOT_ACTIVE,
whatever their offset. -/
def Obligations.CommandsFaultWhileInactive : Prop :=
  ∀ s : State, s.fault = none → s.active = false →
    (∀ off, exec (.cmdFbrd off) s = .next (faulted s .notActive)) ∧
    (∀ data off, exec (.cmdFbwr data off) s = .next (faulted s .notActive)) ∧
    ((∀ left, ¬ clearing s left) → exec .cmdClear s = .next (faulted s .notActive)) ∧
    (∀ r, r ≠ .status → r ≠ .hookstart → r ≠ .hookend →
      exec (.cmdRdreg r) s = .next (faulted s .notActive) ∧
      (s.tickPhase = .idle → ∀ v, exec (.cmdPolleq r v) s = .next (faulted s .notActive) ∧
        exec (.cmdPollne r v) s = .next (faulted s .notActive))) ∧
    (s.tickPhase = .idle → exec .cmdEnd s = .next (faulted s .notActive)) ∧
    (s.tickPhase = .idle → (∀ rem ph fl, s.mainOp ≠ some (.waitf rem ph fl)) →
      ∀ n, exec (.cmdWaitf n) s = .next (faulted s .notActive))

/-! ## Framebuffer -/

/-- R106: FBRD records the byte at an offset of the framebuffer and retires; nothing else changes. -/
def Obligations.FbrdRecordsTheByte : Prop :=
  ∀ (off : Half) (v : Byte) (s : State), s.fault = none → s.active = true → s.readByte off.toNat = some v →
    exec (.cmdFbrd off) s =
      .next { advanced s with hist := s.hist ++ [.read (.fb off.toNat) (v.setWidth 32)] }

/-- R107: FBWR writes the byte at its offset and no other byte, records it and retires; nothing else changes. -/
def Obligations.FbwrWritesOnlyItsByte : Prop :=
  ∀ (data : Byte) (off : Half) (m : Memory) (s : State), s.fault = none → s.active = true → s.fb = some m →
    m.wf = true → off.toNat < fbSize s.prof →
    ∃ t, exec (.cmdFbwr data off) s = .next t ∧
      t = { advanced s with fb := t.fb, hist := s.hist ++ [.fbWrite off.toNat data] } ∧
      t.readByte off.toNat = some data ∧ ∀ a, a ≠ off.toNat → t.readByte a = s.readByte a

/-- R51, R106, R107: an access at or above FBSIZE faults FB_RANGE and changes no byte. -/
def Obligations.FramebufferAccessOutOfRangeFaults : Prop :=
  ∀ (off : Half) (s : State), s.fault = none → s.active = true →
    s.prof.rowByteWidth * s.prof.pixelHeight ≤ off.toNat →
    exec (.cmdFbrd off) s = .next (faulted s .fbRange) ∧
      ∀ data, exec (.cmdFbwr data off) s = .next (faulted s .fbRange)

/-- R105: one step of CLEAR, the first or a later one, zeroes one offset of those left and no other byte, and records
it; the others stay left, and the command retires when none is. -/
def Obligations.ClearStepZeroesOneRemainingByte : Prop :=
  ∀ (s : State) (m : Memory) (left : List Nat), s.fault = none → s.fb = some m → m.wf = true → left ≠ [] →
    (∀ r ∈ left, r < fbSize s.prof) →
    (clearing s left ∨ (s.active = true ∧ (∀ l, ¬ clearing s l) ∧ left = List.range (fbSize s.prof))) →
    ∃ r ∈ left, ∃ t, exec .cmdClear s = .next t ∧ t.readByte r = some 0 ∧
      (∀ a, a ≠ r → t.readByte a = s.readByte a) ∧
      (if left.filter (· ≠ r) = [] then
        t = { advanced s with fb := t.fb, hist := s.hist ++ [.fbWrite r 0], oracle := t.oracle, draws := t.draws }
      else
        clearing t (left.filter (· ≠ r)) ∧
          t = { s with fb := t.fb, hist := s.hist ++ [.fbWrite r 0], mainOp := t.mainOp, hookOp := t.hookOp,
                       oracle := t.oracle, draws := t.draws } ∧
          (s.tickPhase = .idle → t.hookOp = s.hookOp) ∧ (s.tickPhase ≠ .idle → t.mainOp = s.mainOp))

/-- R105 and the source's property "`clear()` leaves every byte in the framebuffer equal to 0, for any prior content":
with no other agent in between, FBSIZE steps of CLEAR, in whatever order the draws take the offsets, zero every byte,
and the command retires. -/
def Obligations.ClearZeroesEveryByte : Prop :=
  ∀ (s : State) (m : Memory), s.fault = none → s.active = true → s.fb = some m → m.wf = true →
    1 ≤ fbSize s.prof → (∀ l, ¬ clearing s l) →
    ∃ t, repeatExec .cmdClear (fbSize s.prof) s = .next t ∧ (∀ a, a < fbSize s.prof → t.readByte a = some 0) ∧
      t = { advanced s with fb := t.fb, hist := t.hist, oracle := t.oracle, draws := t.draws } ∧
      t.hist.length = s.hist.length + fbSize s.prof

/-- R49: a byte written by FBWR reads back unchanged, in FBRD's event, until a write to it, a CLEAR or END changes it:
no other instruction does. -/
def Obligations.WrittenByteStaysUntilOverwritten : Prop :=
  (∀ (data : Byte) (off : Half) (m : Memory) (s t : State), s.active = true → s.fb = some m → m.wf = true →
    exec (.cmdFbwr data off) s = .next t → t.fault = none →
      ∃ u, exec (.cmdFbrd off) t = .next u ∧ u.hist = t.hist ++ [.read (.fb off.toNat) (data.setWidth 32)]) ∧
    ∀ (i : Instr) (s t : State) (m : Memory) (a : Nat) (v : Byte), exec i s = .next t → s.fb = some m → m.wf = true →
      s.active = true → s.readByte a = some v → t.readByte a ≠ some v →
      (∃ data off, i = .cmdFbwr data off ∧ off.toNat = a) ∨ i = .cmdClear ∨ i = .cmdEnd

/-- R55: a host write to the byte the DMA is about to read lands before or after the read, by the interleaving alone:
the PIXBYTE event shows the new value in one order and the old value in the other. -/
def Obligations.FramebufferRaceShowsEitherValue : Prop :=
  ∀ (data old : Byte) (off : Half) (base n i : Nat) (m : Memory) (s : State), s.fault = none → s.active = true →
    s.fb = some m → m.wf = true → s.dma = .busy base n i → base + i = off.toNat → s.readByte off.toNat = some old →
    (∃ t u, exec (.cmdFbwr data off) s = .next t ∧ exec .evDmabyte t = .next u ∧
      Event.pixByte off.toNat data ∈ u.hist.drop t.hist.length) ∧
    (∃ t u, exec .evDmabyte s = .next t ∧ exec (.cmdFbwr data off) t = .next u ∧
      Event.pixByte off.toNat old ∈ t.hist.drop s.hist.length)

/-! ## Hooks, registers, polling -/

/-- R108: SETHOOK writes the slot of its kind and no other, in any context, active or not, and retires. -/
def Obligations.SethookWritesItsSlot : Prop :=
  ∀ (handle : Half) (s : State), s.fault = none →
    exec (.cmdSethook .start handle) s = .next { advanced s with hookStart := handle } ∧
      exec (.cmdSethook .fin handle) s = .next { advanced s with hookEnd := handle }

/-- R37, R38, R109: RDREG records the register's value and retires; STATUS, HOOKSTART and HOOKEND are readable while
inactive. Nothing else changes. -/
def Obligations.RdregRecordsTheRegister : Prop :=
  ∀ (r : Reg) (s : State), s.fault = none →
    (s.active = true ∨ r = .status ∨ r = .hookstart ∨ r = .hookend) →
    ∃ v, RegisterHolds s r v ∧ exec (.cmdRdreg r) s = .next { advanced s with hist := s.hist ++ [.read (.reg r) v] }

/-- R110: one attempt of POLLEQ or POLLNE retires with a READ event where the register meets its condition, and holds
with its operands kept where it does not; either way `polled` is set and nothing else changes. -/
def Obligations.PollRetiresOrHolds : Prop :=
  ∀ (r : Reg) (value : Half) (s : State), s.fault = none → s.tickPhase = .idle →
    (s.active = true ∨ r = .status ∨ r = .hookstart ∨ r = .hookend) →
    ∃ v, RegisterHolds s r v ∧
      (v.toNat = value.toNat →
        exec (.cmdPolleq r value) s = .next { s with polled := true, hpc := s.hpc + 1, mainOp := none,
                                                     hist := s.hist ++ [.read (.reg r) v] } ∧
        exec (.cmdPollne r value) s = .next { s with polled := true, mainOp := some (.poll false r value) }) ∧
      (v.toNat ≠ value.toNat →
        exec (.cmdPolleq r value) s = .next { s with polled := true, mainOp := some (.poll true r value) } ∧
        exec (.cmdPollne r value) s = .next { s with polled := true, hpc := s.hpc + 1, mainOp := none,
                                                     hist := s.hist ++ [.read (.reg r) v] })

/-- R111: WAITF n. The first step retires at once for n = 0 and else seeks FRAMELINE; an attempt that seeks the line
moves on when the line is reached, and one that seeks to leave it counts down when it has left, retiring at the last. -/
def Obligations.WaitfCountsReachThenLeave : Prop :=
  ∀ (n : Half) (s : State), s.fault = none → s.tickPhase = .idle →
    (∀ rem fl, s.mainOp = some (.waitf rem .seekEq fl) →
      exec (.cmdWaitf n) s = .next { s with
        polled := true, mainOp := some (.waitf rem (if s.line = fl then .seekNe else .seekEq) fl) }) ∧
    (∀ rem fl, s.mainOp = some (.waitf rem .seekNe fl) → s.line = fl →
      exec (.cmdWaitf n) s = .next { s with polled := true }) ∧
    (∀ rem fl, s.mainOp = some (.waitf (rem + 2) .seekNe fl) → s.line ≠ fl →
      exec (.cmdWaitf n) s = .next { s with polled := true, mainOp := some (.waitf (rem + 1) .seekEq fl) }) ∧
    (∀ fl, s.mainOp = some (.waitf 1 .seekNe fl) → s.line ≠ fl →
      exec (.cmdWaitf n) s = .next { s with polled := true, hpc := s.hpc + 1, mainOp := none,
                                            hist := s.hist ++ [.read (.reg .line) (BitVec.ofNat 32 s.line)] }) ∧
    (s.active = true → (∀ rem ph fl, s.mainOp ≠ some (.waitf rem ph fl)) →
      (n = 0 → exec (.cmdWaitf n) s = .next { s with hpc := s.hpc + 1, mainOp := none }) ∧
      (n ≠ 0 → exec (.cmdWaitf n) s = .next { s with
        polled := true
        mainOp := some (.waitf n.toNat (if s.line = 30 + s.prof.scanLinesUsed then .seekNe else .seekEq)
          (30 + s.prof.scanLinesUsed)) }))

/-- R53: RDREG, a poll attempt, WAITF and FBRD change nothing but the host model's fields and the history, unless they
fault. -/
def Obligations.ReadsHaveNoSideEffect : Prop :=
  ∀ (i : Instr) (s t : State),
    (∃ r v n off, i = .cmdRdreg r ∨ i = .cmdPolleq r v ∨ i = .cmdPollne r v ∨ i = .cmdWaitf n ∨ i = .cmdFbrd off) →
    exec i s = .next t → t.fault = none →
    t = { s with hpc := t.hpc, mainOp := t.mainOp, hookOp := t.hookOp, polled := t.polled, hist := t.hist,
                 tickPhase := t.tickPhase } ∧
      (s.tickPhase = .idle → t.tickPhase = .idle) ∧
      ∀ k h pc, s.tickPhase = .hook k h pc → t.tickPhase = .hook k h pc ∨ t.tickPhase = .hook k h (pc + 1)

/-! ## Line timer, tick, serializer -/

/-- R86, R126: an enabled BOUNDARY latches the duty and records the pulse, after a DEADLINE_MISS where a tick is
pending or running; nothing else changes. -/
def Obligations.BoundaryLatchesTheDuty : Prop :=
  ∀ s : State, MayBoundary s →
    exec .evBoundary s = .next { s with
      dutyCur := s.dutyNext, timerPhase := .nextCompare,
      hist := s.hist ++ (if s.tickPending = true ∨ s.tickPhase ≠ .idle then [.deadlineMiss s.line] else [])
        ++ [.pulse s.line s.dutyNext] }

/-- R87, R122: an enabled COMPARE requests the tick; a request still pending merges with it and is recorded as lost. -/
def Obligations.CompareRequestsTheTick : Prop :=
  ∀ s : State, MayCompare s →
    exec .evCompare s = .next { s with
      tickPending := true, timerPhase := .nextBoundary,
      hist := s.hist ++ (if s.tickPending = true then [.lostTick s.line] else []) }

/-- R74, R78, R85: an enabled TICK at a line that is not active, with no hook to call, writes the duty and advances
the line, wrapping 264 to 1 with the cursor reset; nothing else changes. -/
def Obligations.TickOffTheActiveLines : Prop :=
  ∀ s : State, MayTick s → 1 ≤ s.prof.scanLinesUsed → (s.line < 30 ∨ 30 + s.prof.scanLinesUsed ≤ s.line) →
    (s.line = 4 → s.hookEnd = 0) →
    exec .evTick s = .next { s with
      tickPending := false, dutyNext := tickWrites s.line, polled := false,
      line := if 264 ≤ s.line then 1 else s.line + 1, cursor := if 264 ≤ s.line then 0 else s.cursor,
      hist := s.hist ++ [.tick s.line] }

/-- R74, R75, R85, R95: an enabled TICK at an active line with no transfer outstanding starts the transfer of the row
at the cursor and advances the cursor by a row, or for a doubled profile on every second active line only; without a
hook to call, the line advances. Nothing else changes. -/
def Obligations.TickDispatchesARow : Prop :=
  ∀ s : State, MayTick s → 30 ≤ s.line → s.line < 30 + s.prof.scanLinesUsed → s.dma = .idle → s.donePending = false →
    (s.line = 29 + s.prof.scanLinesUsed → s.hookStart = 0) →
    exec .evTick s = .next { s with
      tickPending := false, dutyNext := .narrow, polled := false, ser := .shifting,
      dma := .busy s.cursor s.prof.rowByteWidth 0,
      line := if 264 ≤ s.line then 1 else s.line + 1,
      cursor := if 264 ≤ s.line then 0
        else if s.prof.lineDoubled = true ∧ (s.line - 30) % 2 = 0 then s.cursor
        else s.cursor + s.prof.rowByteWidth,
      hist := s.hist ++ [.tick s.line, .rowStart s.line s.cursor] }

/-- R74, R95, R116: a TICK that dispatches a row while a transfer or its completion is outstanding faults DMA_OVERLAP;
it has cleared the request and recorded the tick, and nothing after DmaStart happens. -/
def Obligations.TickFaultsOnAnOutstandingTransfer : Prop :=
  ∀ s : State, MayTick s → 30 ≤ s.line → s.line < 30 + s.prof.scanLinesUsed →
    (s.dma ≠ .idle ∨ s.donePending = true) →
    exec .evTick s = .next { s with
      tickPending := false, fault := some .dmaOverlap, hist := s.hist ++ [.tick s.line, .faulted .dmaOverlap] }

/-- R74, R79: the tick at line 4 calls a registered onBlankEnd hook and the tick at the last active line a registered
onBlankStart hook; the tick is then suspended at the hook's first command, with the line not advanced. -/
def Obligations.TickCallsTheHooksAtTheirLines : Prop :=
  ∀ s : State, MayTick s → 1 ≤ s.prof.scanLinesUsed →
    (s.line = 4 → s.hookEnd ≠ 0 →
      exec .evTick s = .next { s with
        tickPending := false, dutyNext := .wide, tickPhase := .hook .fin s.hookEnd 0,
        hist := s.hist ++ [.tick 4, .hookCall .fin s.hookEnd 4] }) ∧
    (s.line = 29 + s.prof.scanLinesUsed → s.hookStart ≠ 0 → s.dma = .idle → s.donePending = false →
      exec .evTick s = .next { s with
        tickPending := false, dutyNext := .narrow, tickPhase := .hook .start s.hookStart 0, ser := .shifting,
        dma := .busy s.cursor s.prof.rowByteWidth 0,
        cursor := if s.prof.lineDoubled = true ∧ (s.line - 30) % 2 = 0 then s.cursor
          else s.cursor + s.prof.rowByteWidth,
        hist := s.hist ++ [.tick s.line, .rowStart s.line s.cursor, .hookCall .start s.hookStart s.line] })

/-- R78, R82, R121: an enabled HOOKRET finishes the tick: the return is recorded, the line advances with its wrap, and
no tick is running. Nothing else changes. -/
def Obligations.HookretFinishesTheTick : Prop :=
  ∀ s : State, MayHookret s →
    exec .evHookret s = .next { s with
      tickPhase := .idle, polled := false, line := if 264 ≤ s.line then 1 else s.line + 1,
      cursor := if 264 ≤ s.line then 0 else s.cursor, hist := s.hist ++ [.hookRet s.line] }

/-- R96: an enabled DMABYTE sends the byte at the transfer's next offset; after the last one the channel is idle, the
completion is requested and the line is residual. Nothing else changes. -/
def Obligations.DmabyteSendsTheNextByte : Prop :=
  ∀ (s : State) (off n i : Nat) (b : Byte), s.active = true → s.fault = none → s.dma = .busy off n i →
    s.readByte (off + i) = some b →
    exec .evDmabyte s = .next
      (if i + 1 < n then { s with dma := .busy off n (i + 1), hist := s.hist ++ [.pixByte (off + i) b] }
      else { s with dma := .idle, donePending := true, ser := .residual,
                    hist := s.hist ++ [.pixByte (off + i) b, .rowEnd off] })

/-- R48, R95, R96, R99: with no other agent in between, a transfer of `n` bytes from `off` sends exactly the bytes at
`off`, ..., `off + n - 1`, in this order, and then requests its completion; nothing else changes. -/
def Obligations.TransferSendsTheWholeRow : Prop :=
  ∀ (s : State) (m : Memory) (off n : Nat), s.active = true → s.fault = none → s.fb = some m →
    s.dma = .busy off n 0 → 1 ≤ n → off + n ≤ fbSize s.prof →
    repeatExec .evDmabyte n s = .next { s with
      dma := .idle, donePending := true, ser := .residual,
      hist := s.hist ++ (List.range n).map (fun j => Event.pixByte (off + j) (m.read (off + j))) ++ [.rowEnd off] }

/-- R76: in a run, the row that an active tick dispatches is row `k` of the framebuffer, or row `k / 2` for a doubled
profile, where `k` is the line's distance from the first active line. -/
def Obligations.ActiveTickSendsTheRowOfItsLine : Prop :=
  ∀ s : State, RunInv s → MayTick s → 30 ≤ s.line → s.line < 30 + s.prof.scanLinesUsed → s.dma = .idle →
    s.donePending = false →
    ∃ t, exec .evTick s = .next t ∧
      Event.rowStart s.line
        ((if s.prof.lineDoubled then (s.line - 30) / 2 else s.line - 30) * s.prof.rowByteWidth) ∈
          t.hist.drop s.hist.length ∧
      t.dma = .busy ((if s.prof.lineDoubled then (s.line - 30) / 2 else s.line - 30) * s.prof.rowByteWidth)
        s.prof.rowByteWidth 0

/-- R97: an enabled DMADONE forces the serial line idle and clears its request; nothing else changes. -/
def Obligations.DmadoneForcesTheLineIdle : Prop :=
  ∀ s : State, MayDmadone s →
    exec .evDmadone s = .next { s with ser := .idle, donePending := false, hist := s.hist ++ [.idleForced] }

/-- R119: where both handlers' pending bits are set and no tick runs, the done handler waits and the tick goes first; at
an active line it then raises the DMA_OVERLAP of R95, as the completion is outstanding (R116); while a tick is suspended in a hook the done handler waits as well. That a
done handler which may not run leaves the state as it is is the model's choice (log 4). -/
def Obligations.TickHasPriorityOverDone : Prop :=
  ∀ s : State, s.active = true → s.fault = none → s.donePending = true →
    (s.tickPending = true ∨ s.tickPhase ≠ .idle → exec .evDmadone s = .next s) ∧
    (MayTick s → ∃ t, exec .evTick s = .next t ∧ t.tickPending = false ∧
      Event.tick s.line ∈ t.hist.drop s.hist.length ∧
      (30 ≤ s.line → s.line < 30 + s.prof.scanLinesUsed → t.fault = some .dmaOverlap))

/-! ## Whole-machine rules -/

/-- R39, with 90_conflicts.md C7 on BEGIN: which instruction can change which field. -/
def Obligations.OnlyListedRulesWriteEachField : Prop :=
  ∀ (i : Instr) (s t : State), exec i s = .next t →
    (t.line ≠ s.line → i.mnemonic ∈ [.EV_TICK, .EV_HOOKRET, .BEGIN]) ∧
    (t.cursor ≠ s.cursor → i.mnemonic ∈ [.EV_TICK, .EV_HOOKRET, .BEGIN]) ∧
    (t.dutyNext ≠ s.dutyNext → i.mnemonic ∈ [.EV_TICK, .BEGIN]) ∧
    (t.dutyCur ≠ s.dutyCur → i.mnemonic ∈ [.EV_BOUNDARY, .BEGIN]) ∧
    (t.tickPending ≠ s.tickPending → i.mnemonic ∈ [.EV_COMPARE, .EV_TICK, .BEGIN, .END]) ∧
    (t.dma ≠ s.dma → i.mnemonic ∈ [.EV_TICK, .EV_DMABYTE, .BEGIN, .END]) ∧
    (t.donePending ≠ s.donePending → i.mnemonic ∈ [.EV_DMABYTE, .EV_DMADONE, .BEGIN, .END]) ∧
    (t.ser ≠ s.ser → i.mnemonic ∈ [.EV_TICK, .EV_DMABYTE, .EV_DMADONE, .BEGIN, .END]) ∧
    (t.hookStart ≠ s.hookStart ∨ t.hookEnd ≠ s.hookEnd → i.mnemonic = .SETHOOK) ∧
    (t.fb ≠ s.fb → i.mnemonic ∈ [.BEGIN, .END, .FBWR, .CLEAR]) ∧
    (t.active ≠ s.active → i.mnemonic ∈ [.BEGIN, .END])

/-- R84: while the engine is active, no step changes the profile, so its lines and sizes stay. -/
def Obligations.ProfileIsConstantWhileActive : Prop :=
  ∀ s t : State, s.active = true → step s = .next t → t.prof = s.prof ∧ t.profId = s.profId

/-- R16, R35, R44: a step only appends to the history, and never changes a parameter or a program. -/
def Obligations.HistoryOnlyGrows : Prop :=
  ∀ s t : State, step s = .next t → (∃ events, t.hist = s.hist ++ events) ∧ t.params = s.params

/-- R42: the framebuffer's address changes nothing the block does: an instruction that does not read FBBASE does the
same from two states that differ in the address only. -/
def Obligations.BaseAddressInfluencesNothing : Prop :=
  ∀ (i : Instr) (s : State) (a : Word),
    (∀ v, i ≠ .cmdRdreg .fbbase ∧ i ≠ .cmdPolleq .fbbase v ∧ i ≠ .cmdPollne .fbbase v) →
    (∀ t, exec i s = .next t → ∃ b, exec i { s with fbBase := a } = .next { t with fbBase := b }) ∧
    (∀ c, exec i s = .fault c → exec i { s with fbBase := a } = .fault c) ∧
    (∀ r, exec i s = .refused r → exec i { s with fbBase := a } = .refused r)

/-- R25, R78, R80: 264 line advances from a line of the frame visit every line 1..264 exactly once and return to it;
the two hook lines are among them. -/
def Obligations.LineCycleVisitsEveryLineOnce : Prop :=
  ∀ s : State, 1 ≤ s.line → s.line ≤ 264 →
    (State.lineAdvance^[264] s).line = s.line ∧
      ∀ l, 1 ≤ l → l ≤ 264 → ∃! k, k < 264 ∧ (State.lineAdvance^[k] s).line = l

/-! ## Invariants of every step -/

/-- R23..R33, R41, R77, R95, R105, R111: every step keeps the engine's invariant: the line in 1..264, the cursor as
R77's table, a canonical framebuffer of the profile's size exactly while active, transfers of one whole row inside it,
and the kept progress of commands. -/
def Obligations.StepKeepsTheEngineInvariant : Prop := ∀ s t : State, RunInv s → step s = .next t → RunInv t

/-- The model never stops in a run: in a state of the invariant that is not faulted, `step` answers a next state,
whichever agent is scheduled. This rests on the model's choices: that an agent whose condition (R6) does not hold leaves
the state as it is (log 4), and that raising a fault, that of R66 included, is a next state (log 5). -/
def Obligations.StepAlwaysAnswersInARun : Prop :=
  ∀ s : State, RunInv s → s.fault = none → ∃ t, step s = .next t

/-- R125: under TIMING_ASSUMPTIONS no step records a deadline miss or a lost tick or raises DMA_OVERLAP. -/
def Obligations.DeadlinesHoldUnderTimingAssumptions : Prop :=
  ∀ s t : State, s.params.timingAssumptions = true → RunInv s → TimingInv s → step s = .next t → TimingInv t

/-- R89, with R71 and R85: under TIMING_ASSUMPTIONS the PULSE events from every BEGIN on carry the labels 1, 2, ..., 264,
1, 2, ... in order, WIDE exactly at 3..5, and the tick runs in the period that carries its own line. -/
def Obligations.PulsesStayInOrderUnderTimingAssumptions : Prop :=
  ∀ s t : State, s.params.timingAssumptions = true → RunInv s → TimingInv s → PulseInv s → step s = .next t → PulseInv t

/-- R31, R35, R115, R116: every step keeps the serial line what the events make it, and a FAULT event in the history
exactly while the state is faulted with its code. -/
def Obligations.HistoryDeterminesSerialLineAndFault : Prop :=
  ∀ s t : State, SerialFollowsHistory s → FaultFollowsHistory s → step s = .next t →
    SerialFollowsHistory t ∧ FaultFollowsHistory t

/-! ## Composite output -/

/-- R91, R92: the level function, with every value of the draw where the spec leaves the level open. The draw as an
argument is the model's form (log 16). -/
def Obligations.LevelFollowsTheSpec : Prop :=
  ∀ (active syncOn : Bool) (ser : Ser) (bit : Bool) (l : Level),
    (∃ d, level active syncOn ser bit d = some l) ↔
      (active = false ∨ (syncOn = true ∧ l = .sync) ∨
        (syncOn = false ∧ ((ser = .shifting ∧ l = (if bit then .white else .black)) ∨ (ser = .idle ∧ l = .black) ∨
          (ser = .residual ∧ (l = .black ∨ l = .white)))))

/-- R48, R93: the k-th pixel level of a row's bytes, from the left, is white exactly where bit 7 - k mod 8 of byte k / 8
is set, which is the pixel at that column of the framebuffer row the bytes were read from. -/
def Obligations.PixelsGoMostSignificantBitFirst : Prop :=
  ∀ (p : Profile) (m : Memory) (y x : Nat), x < 8 * p.rowByteWidth →
    (((List.range p.rowByteWidth).map fun j => m.read (y * p.rowByteWidth + j)).flatMap byteLevels)[x]? =
      some (if pixelBit p m x y then .white else .black) ∧
    pixelBit p m x y = (m.read (y * p.rowByteWidth + x / 8)).getLsbD (7 - x % 8)

/-- R93: every PULSE opens one record, with its label and duty. The record's row is none where no ROW_START comes before
the next PULSE, and else the first one's offset with the bytes of its PIXBYTE events, those after a later PULSE
included, up to its ROW_END. Where no ROW_END comes, because END or the end of the history cuts the row off, the row
holds the bytes sent so far, which is the model's choice (log 22). -/
def Obligations.LineRecordsFollowTheHistory : Prop :=
  (∀ hist : List Event, (lineRecords hist).map (fun r => (r.label, r.pulse)) = pulseList hist) ∧
    ∀ (before after : List Event) (l : Nat) (d : Duty),
      ∃ r, (lineRecords (before ++ .pulse l d :: after))[(pulseList before).length]? = some r ∧ r.label = l ∧
        r.pulse = d ∧
        (∀ period, PeriodOf after period → (∀ l' off, Event.rowStart l' off ∉ period) → r.row = none) ∧
        ∀ (a c rest : List Event) (l' off : Nat), after = a ++ .rowStart l' off :: (c ++ rest) →
          (∀ l'' d', Event.pulse l'' d' ∉ a) → (∀ l'' off', Event.rowStart l'' off' ∉ a) →
          (∀ e ∈ c, unseen e = true ∨ e = .idleForced ∨ ∃ l'' d', e = .pulse l'' d') →
          (rest = [] ∨ rest.head? = some (.rowEnd off) ∨ rest.head? = some .ended) →
            r.row = some (off, pixValues c)

/-- R91, R92, R93: what a period shows, in order: SYNC for the pulse, then black or the RESIDUAL draw as the serial line
is, black from an IDLE_FORCED on, the pixel levels of its row, and the RESIDUAL draw after the row, until an IDLE_FORCED
of the period. `late` says that an IDLE_FORCED comes before the row, as BOUNDARY does not wait for the done handler
(R86), and `done` that one comes after it. Where END cuts the period, any level follows. A row that an earlier period
started may show either level, which is the model's choice (log 16). At the end of every such history the last stretch
allows what the level function of R91 does. -/
def Obligations.PeriodShowsItsStretchesInOrder : Prop :=
  ∀ (before after : List Event) (l : Nat) (d : Duty),
    ∃ r first, (lineRecords (before ++ .pulse l d :: after))[(pulseList before).length]? = some r ∧
      (∀ x, x ∈ Segment.levels first ↔
        x = .black ∨ (x = .white ∧ before.foldl serAfter .residual ≠ .idle)) ∧
      (∀ (late : Bool) (a b : List Event), (a ++ b).all unseen = true →
        PeriodOf after (a ++ (if late then [.idleForced] else []) ++ b) →
          r.shows = [.sync d, first] ++ if late then [.black] else []) ∧
      (∀ (late done : Bool) (a b c e f : List Event) (l' off : Nat), (a ++ b ++ c ++ e ++ f).all unseen = true →
        PeriodOf after (a ++ (if late then [.idleForced] else []) ++ b ++ [.rowStart l' off] ++ c ++ [.rowEnd off] ++ e
          ++ (if done then [.idleForced] else []) ++ f) →
          r.shows = [.sync d, first] ++ (if late then [.black] else [])
            ++ [.pixels ((pixValues c).flatMap byteLevels), .residual] ++ if done then [.black] else []) ∧
      (∀ period, PeriodOf after period → Event.ended ∈ period → r.shows.getLast? = some .off) ∧
      ((∀ l' d', Event.pulse l' d' ∉ after) → Event.ended ∉ after →
        ∃ last, r.shows.getLast? = some last ∧
          ((before ++ .pulse l d :: after).foldl serAfter .residual = .idle → last.levels = [.black]) ∧
          ((before ++ .pulse l d :: after).foldl serAfter .residual = .residual → last.levels = [.black, .white]) ∧
          ((before ++ .pulse l d :: after).foldl serAfter .residual = .shifting →
            ∀ x ∈ last.levels, x = .black ∨ x = .white))
end

