-- ==== Sys2Proof/Laws/Decode.lean ====
section
/-! SUPPORT. The fields of a word: reading the three fields of a word built from them, and building a word from its
fields. -/

namespace Sys2Proof

@[simp] theorem opField_mkWord (op a : Byte) (b : Half) : opField (mkWord op a b) = op := by
  apply BitVec.eq_of_getLsbD_eq
  intro i hi
  simp only [opField, mkWord, BitVec.getLsbD_extractLsb', BitVec.getLsbD_append, hi, decide_true, Bool.true_and]
  rw [if_neg (by omega), if_neg (by omega)]
  congr 1
  omega

@[simp] theorem aField_mkWord (op a : Byte) (b : Half) : aField (mkWord op a b) = a := by
  apply BitVec.eq_of_getLsbD_eq
  intro i hi
  simp only [aField, mkWord, BitVec.getLsbD_extractLsb', BitVec.getLsbD_append, hi, decide_true, Bool.true_and]
  rw [if_neg (by omega), if_pos (by omega)]
  congr 1
  omega

@[simp] theorem bField_mkWord (op a : Byte) (b : Half) : bField (mkWord op a b) = b := by
  apply BitVec.eq_of_getLsbD_eq
  intro i hi
  simp only [bField, mkWord, BitVec.getLsbD_extractLsb', BitVec.getLsbD_append, hi, decide_true, Bool.true_and]
  rw [if_pos (by omega)]
  congr 1
  omega

/-- A word is made of its three fields. -/
theorem mkWord_fields (w : Word) : mkWord (opField w) (aField w) (bField w) = w := by
  apply BitVec.eq_of_getLsbD_eq
  intro i hi
  simp only [opField, aField, bField, mkWord, BitVec.getLsbD_extractLsb', BitVec.getLsbD_append]
  split_ifs with h1 h2
  · simp [h1]
  · have : i - 16 < 8 := by omega
    simp only [this, decide_true, Bool.true_and]
    congr 1
    omega
  · have : i - 16 - 8 < 8 := by omega
    simp only [this, decide_true, Bool.true_and]
    congr 1
    omega

/-- Masking a word masks each field. -/
theorem mkWord_and (op a op' a' : Byte) (b b' : Half) :
    mkWord op a b &&& mkWord op' a' b' = mkWord (op &&& op') (a &&& a') (b &&& b') := by
  apply BitVec.eq_of_getLsbD_eq
  intro i hi
  simp only [mkWord, BitVec.getLsbD_and, BitVec.getLsbD_append]
  split_ifs <;> simp

/-- Two words are equal exactly where their fields are. -/
theorem mkWord_inj {op a op' a' : Byte} {b b' : Half} :
    mkWord op a b = mkWord op' a' b' ↔ op = op' ∧ a = a' ∧ b = b' := by
  constructor
  · intro h
    exact ⟨by simpa using congrArg opField h, by simpa using congrArg aField h, by simpa using congrArg bField h⟩
  · rintro ⟨rfl, rfl, rfl⟩
    rfl

@[simp] theorem decode_mkWord (op a : Byte) (b : Half) : decode (mkWord op a b) = decodeFields op a b := by
  simp [decode]

@[simp] theorem Reg.ofNum_num (r : Reg) : Reg.ofNum r.num.toNat = some r := by cases r <;> rfl

@[simp] theorem HookKind.ofNum_num (k : HookKind) : HookKind.ofNum k.num.toNat = some k := by cases k <;> rfl

/-- A register's number is its field A: no other field decodes to it. -/
theorem Reg.ofNum_eq_some {a : Byte} {r : Reg} : Reg.ofNum a.toNat = some r ↔ a = r.num := by
  constructor
  · intro h
    revert h
    revert a
    cases r <;> decide
  · rintro rfl
    simp

/-- A hook kind's number is its field A: no other field decodes to it. -/
theorem HookKind.ofNum_eq_some {a : Byte} {k : HookKind} : HookKind.ofNum a.toNat = some k ↔ a = k.num := by
  constructor
  · intro h
    revert h
    revert a
    cases k <;> decide
  · rintro rfl
    simp

end Sys2Proof
end

