-- ==== Sys2Proof/Laws/Memory.lean ====
section
/-! SUPPORT. The laws of the framebuffer memory: read after write, and the canonical form that every write keeps. -/

namespace Sys2Proof.Machine

@[simp] theorem Memory.read_nil (a : Nat) : Memory.read [] a = 0 := rfl

@[simp] theorem Memory.wf_nil : Memory.wf [] = true := rfl

/-- Below a canonical memory's lowest address, every address is unlisted. -/
theorem Memory.read_below {m : Memory} {lo a : Nat} (h : Memory.wfFrom lo m = true) (ha : a < lo) :
    m.read a = Memory.unlisted := by
  induction m generalizing lo with
  | nil => rfl
  | cons c t ih =>
    obtain ⟨b, u⟩ := c
    simp only [Memory.wfFrom, Bool.and_eq_true, decide_eq_true_eq] at h
    have hne : ¬ b = a := by omega
    simp [Memory.read, hne, ih h.2 (by omega)]

theorem Memory.wfFrom_mono {m : Memory} {lo lo' : Nat} (h : Memory.wfFrom lo m = true) (hl : lo' ≤ lo) :
    Memory.wfFrom lo' m = true := by
  cases m with
  | nil => rfl
  | cons c t =>
    obtain ⟨b, u⟩ := c
    simp only [Memory.wfFrom, Bool.and_eq_true, decide_eq_true_eq] at h ⊢
    exact ⟨⟨by omega, h.1.2⟩, h.2⟩

/-- Writing at or above the lowest address keeps the canonical form. -/
theorem Memory.wfFrom_write {m : Memory} {lo : Nat} (a : Nat) (v : Byte) (h : Memory.wfFrom lo m = true)
    (ha : lo ≤ a) : Memory.wfFrom lo (m.write a v) = true := by
  induction m generalizing lo with
  | nil => by_cases hv : v = Memory.unlisted <;> simp [Memory.write, Memory.wfFrom, hv, ha]
  | cons c t ih =>
    obtain ⟨b, u⟩ := c
    have hw := h
    simp only [Memory.wfFrom, Bool.and_eq_true, decide_eq_true_eq] at h
    obtain ⟨⟨hb, hu⟩, ht⟩ := h
    by_cases hab : a < b
    · by_cases hv : v = Memory.unlisted
      · simpa [Memory.write, hab, hv] using hw
      · simp [Memory.write, hab, hv, Memory.wfFrom, ha, hu, ht]
    · by_cases he : a = b
      · subst he
        by_cases hv : v = Memory.unlisted
        · simpa [Memory.write, hv] using Memory.wfFrom_mono ht (by omega)
        · simp [Memory.write, hv, Memory.wfFrom, hb, ht]
      · simp [Memory.write, hab, he, Memory.wfFrom, hb, hu, ih ht (by omega)]

/-- Every write keeps the canonical form. -/
theorem Memory.wf_write {m : Memory} (a : Nat) (v : Byte) (h : m.wf = true) : (m.write a v).wf = true :=
  Memory.wfFrom_write a v h (Nat.zero_le a)

/-- A read after a write to the same address gives the byte written. -/
theorem Memory.read_write_same_from {m : Memory} {lo : Nat} (a : Nat) (v : Byte) (h : Memory.wfFrom lo m = true) :
    (m.write a v).read a = v := by
  induction m generalizing lo with
  | nil => by_cases hv : v = Memory.unlisted <;> simp [Memory.write, Memory.read, hv]; rfl
  | cons c t ih =>
    obtain ⟨b, u⟩ := c
    have hw := h
    simp only [Memory.wfFrom, Bool.and_eq_true, decide_eq_true_eq] at h
    obtain ⟨⟨hb, hu⟩, ht⟩ := h
    by_cases hab : a < b
    · by_cases hv : v = Memory.unlisted
      · have hne : ¬ b = a := by omega
        have hr := Memory.read_below (a := a) ht (by omega)
        simp [Memory.write, hab, hv, Memory.read, hne, hr]
      · simp [Memory.write, hab, hv, Memory.read]
    · by_cases he : a = b
      · subst he
        by_cases hv : v = Memory.unlisted
        · simpa [Memory.write, hv] using Memory.read_below ht (by omega)
        · simp [Memory.write, hv, Memory.read]
      · have hne : ¬ b = a := fun h => he h.symm
        simp [Memory.write, hab, he, Memory.read, hne, ih ht]

theorem Memory.read_write_same {m : Memory} (a : Nat) (v : Byte) (h : m.wf = true) : (m.write a v).read a = v :=
  Memory.read_write_same_from a v h

/-- A write leaves every other address alone. -/
theorem Memory.read_write_ne_from {m : Memory} {lo a x : Nat} (v : Byte) (h : Memory.wfFrom lo m = true) (hx : x ≠ a) :
    (m.write a v).read x = m.read x := by
  have hax : ¬ a = x := fun h => hx h.symm
  induction m generalizing lo with
  | nil => by_cases hv : v = Memory.unlisted <;> simp [Memory.write, Memory.read, hv, hax]; rfl
  | cons c t ih =>
    obtain ⟨b, u⟩ := c
    simp only [Memory.wfFrom, Bool.and_eq_true, decide_eq_true_eq] at h
    by_cases hab : a < b
    · by_cases hv : v = Memory.unlisted <;> simp [Memory.write, hab, hv, Memory.read, hax]
    · by_cases he : a = b
      · subst he
        by_cases hv : v = Memory.unlisted <;> simp [Memory.write, hv, Memory.read, hax]
      · simp [Memory.write, hab, he, Memory.read, ih h.2]

theorem Memory.read_write_ne {m : Memory} {a x : Nat} (v : Byte) (h : m.wf = true) (hx : x ≠ a) :
    (m.write a v).read x = m.read x :=
  Memory.read_write_ne_from v h hx

/-- A write below a bound keeps every listed address below it. -/
theorem Memory.mem_write_lt {m : Memory} {a size : Nat} (v : Byte) (ha : a < size) (h : ∀ c ∈ m, c.1 < size) :
    ∀ c ∈ m.write a v, c.1 < size := by
  induction m with
  | nil =>
    intro c hc
    by_cases hv : v = Memory.unlisted
    · simp [Memory.write, hv] at hc
    · simp [Memory.write, hv] at hc
      simpa [hc] using ha
  | cons c t ih =>
    obtain ⟨b, u⟩ := c
    have hb : b < size := h (b, u) (by simp)
    have ht : ∀ c ∈ t, c.1 < size := fun c hc => h c (by simp [hc])
    intro c hc
    unfold Memory.write at hc
    split_ifs at hc
    · simp only [List.mem_cons] at hc
      rcases hc with rfl | hc
      · exact hb
      · exact ht c hc
    · simp only [List.mem_cons] at hc
      rcases hc with rfl | rfl | hc
      · exact ha
      · exact hb
      · exact ht c hc
    · exact ht c hc
    · simp only [List.mem_cons] at hc
      rcases hc with rfl | hc
      · exact ha
      · exact ht c hc
    · simp only [List.mem_cons] at hc
      rcases hc with rfl | hc
      · exact hb
      · exact ih ht c hc

/-! ### One byte of the state's framebuffer -/

/-- A byte is readable exactly where the framebuffer space has its offset (R41). -/
theorem State.readByte_eq_some {s : State} {off : Nat} {v : Byte} :
    s.readByte off = some v ↔ ∃ m, s.fb = some m ∧ off < fbSize s.prof ∧ m.read off = v := by
  unfold State.readByte
  cases s.fb with
  | none => simp
  | some m => by_cases h : off < fbSize s.prof <;> simp [h]

/-- What `writeByte` can do: nothing outside the space, else one write to the memory and to nothing more. -/
theorem State.writeByte_eq_some {s t : State} {off : Nat} {v : Byte} :
    s.writeByte off v = some t ↔
      ∃ m, s.fb = some m ∧ off < fbSize s.prof ∧ t = { s with fb := some (m.write off v) } := by
  unfold State.writeByte
  cases s.fb with
  | none => simp
  | some m => by_cases h : off < fbSize s.prof <;> simp [h, eq_comm]

/-- The reset state's framebuffer, if it had one, would be canonical: it has none (R40). -/
theorem State.reset_memory_wf : ∀ m, State.reset.fb = some m → m.wf = true := by simp [State.reset]

end Sys2Proof.Machine
end

