-- ==== Sys2Proof/Laws/State.lean ====
section
/-! SUPPORT. One lemma for each field and each named update of the state, so that no later proof unfolds a record
update. -/

namespace Sys2Proof.Machine

/-! ### record -/

@[simp] theorem State.record_active (s : State) (e : Event) : (s.record e).active = s.active := rfl

@[simp] theorem State.record_profId (s : State) (e : Event) : (s.record e).profId = s.profId := rfl

@[simp] theorem State.record_prof (s : State) (e : Event) : (s.record e).prof = s.prof := rfl

@[simp] theorem State.record_line (s : State) (e : Event) : (s.record e).line = s.line := rfl

@[simp] theorem State.record_cursor (s : State) (e : Event) : (s.record e).cursor = s.cursor := rfl

@[simp] theorem State.record_dutyNext (s : State) (e : Event) : (s.record e).dutyNext = s.dutyNext := rfl

@[simp] theorem State.record_dutyCur (s : State) (e : Event) : (s.record e).dutyCur = s.dutyCur := rfl

@[simp] theorem State.record_timerPhase (s : State) (e : Event) : (s.record e).timerPhase = s.timerPhase := rfl

@[simp] theorem State.record_tickPending (s : State) (e : Event) : (s.record e).tickPending = s.tickPending := rfl

@[simp] theorem State.record_tickPhase (s : State) (e : Event) : (s.record e).tickPhase = s.tickPhase := rfl

@[simp] theorem State.record_dma (s : State) (e : Event) : (s.record e).dma = s.dma := rfl

@[simp] theorem State.record_donePending (s : State) (e : Event) : (s.record e).donePending = s.donePending := rfl

@[simp] theorem State.record_ser (s : State) (e : Event) : (s.record e).ser = s.ser := rfl

@[simp] theorem State.record_hookStart (s : State) (e : Event) : (s.record e).hookStart = s.hookStart := rfl

@[simp] theorem State.record_hookEnd (s : State) (e : Event) : (s.record e).hookEnd = s.hookEnd := rfl

@[simp] theorem State.record_fb (s : State) (e : Event) : (s.record e).fb = s.fb := rfl

@[simp] theorem State.record_fbBase (s : State) (e : Event) : (s.record e).fbBase = s.fbBase := rfl

@[simp] theorem State.record_hpc (s : State) (e : Event) : (s.record e).hpc = s.hpc := rfl

@[simp] theorem State.record_mainOp (s : State) (e : Event) : (s.record e).mainOp = s.mainOp := rfl

@[simp] theorem State.record_hookOp (s : State) (e : Event) : (s.record e).hookOp = s.hookOp := rfl

@[simp] theorem State.record_polled (s : State) (e : Event) : (s.record e).polled = s.polled := rfl

@[simp] theorem State.record_fault (s : State) (e : Event) : (s.record e).fault = s.fault := rfl

@[simp] theorem State.record_hist (s : State) (e : Event) : (s.record e).hist = s.hist ++ [e] := rfl

@[simp] theorem State.record_params (s : State) (e : Event) : (s.record e).params = s.params := rfl

@[simp] theorem State.record_sched (s : State) (e : Event) : (s.record e).sched = s.sched := rfl

@[simp] theorem State.record_oracle (s : State) (e : Event) : (s.record e).oracle = s.oracle := rfl

@[simp] theorem State.record_draws (s : State) (e : Event) : (s.record e).draws = s.draws := rfl

/-! ### raise -/

@[simp] theorem State.raise_active (s : State) (c : Fault) : (s.raise c).active = s.active := rfl

@[simp] theorem State.raise_profId (s : State) (c : Fault) : (s.raise c).profId = s.profId := rfl

@[simp] theorem State.raise_prof (s : State) (c : Fault) : (s.raise c).prof = s.prof := rfl

@[simp] theorem State.raise_line (s : State) (c : Fault) : (s.raise c).line = s.line := rfl

@[simp] theorem State.raise_cursor (s : State) (c : Fault) : (s.raise c).cursor = s.cursor := rfl

@[simp] theorem State.raise_dutyNext (s : State) (c : Fault) : (s.raise c).dutyNext = s.dutyNext := rfl

@[simp] theorem State.raise_dutyCur (s : State) (c : Fault) : (s.raise c).dutyCur = s.dutyCur := rfl

@[simp] theorem State.raise_timerPhase (s : State) (c : Fault) : (s.raise c).timerPhase = s.timerPhase := rfl

@[simp] theorem State.raise_tickPending (s : State) (c : Fault) : (s.raise c).tickPending = s.tickPending := rfl

@[simp] theorem State.raise_tickPhase (s : State) (c : Fault) : (s.raise c).tickPhase = s.tickPhase := rfl

@[simp] theorem State.raise_dma (s : State) (c : Fault) : (s.raise c).dma = s.dma := rfl

@[simp] theorem State.raise_donePending (s : State) (c : Fault) : (s.raise c).donePending = s.donePending := rfl

@[simp] theorem State.raise_ser (s : State) (c : Fault) : (s.raise c).ser = s.ser := rfl

@[simp] theorem State.raise_hookStart (s : State) (c : Fault) : (s.raise c).hookStart = s.hookStart := rfl

@[simp] theorem State.raise_hookEnd (s : State) (c : Fault) : (s.raise c).hookEnd = s.hookEnd := rfl

@[simp] theorem State.raise_fb (s : State) (c : Fault) : (s.raise c).fb = s.fb := rfl

@[simp] theorem State.raise_fbBase (s : State) (c : Fault) : (s.raise c).fbBase = s.fbBase := rfl

@[simp] theorem State.raise_hpc (s : State) (c : Fault) : (s.raise c).hpc = s.hpc := rfl

@[simp] theorem State.raise_mainOp (s : State) (c : Fault) : (s.raise c).mainOp = s.mainOp := rfl

@[simp] theorem State.raise_hookOp (s : State) (c : Fault) : (s.raise c).hookOp = s.hookOp := rfl

@[simp] theorem State.raise_polled (s : State) (c : Fault) : (s.raise c).polled = s.polled := rfl

@[simp] theorem State.raise_fault (s : State) (c : Fault) : (s.raise c).fault = some c := rfl

@[simp] theorem State.raise_hist (s : State) (c : Fault) : (s.raise c).hist = s.hist ++ [.faulted c] := rfl

@[simp] theorem State.raise_params (s : State) (c : Fault) : (s.raise c).params = s.params := rfl

@[simp] theorem State.raise_sched (s : State) (c : Fault) : (s.raise c).sched = s.sched := rfl

@[simp] theorem State.raise_oracle (s : State) (c : Fault) : (s.raise c).oracle = s.oracle := rfl

@[simp] theorem State.raise_draws (s : State) (c : Fault) : (s.raise c).draws = s.draws := rfl

/-! ### dmaStart -/

@[simp] theorem State.dmaStart_active (s : State) (off n : Nat) : (s.dmaStart off n).active = s.active := rfl

@[simp] theorem State.dmaStart_profId (s : State) (off n : Nat) : (s.dmaStart off n).profId = s.profId := rfl

@[simp] theorem State.dmaStart_prof (s : State) (off n : Nat) : (s.dmaStart off n).prof = s.prof := rfl

@[simp] theorem State.dmaStart_line (s : State) (off n : Nat) : (s.dmaStart off n).line = s.line := rfl

@[simp] theorem State.dmaStart_cursor (s : State) (off n : Nat) : (s.dmaStart off n).cursor = s.cursor := rfl

@[simp] theorem State.dmaStart_dutyNext (s : State) (off n : Nat) : (s.dmaStart off n).dutyNext = s.dutyNext := rfl

@[simp] theorem State.dmaStart_dutyCur (s : State) (off n : Nat) : (s.dmaStart off n).dutyCur = s.dutyCur := rfl

@[simp] theorem State.dmaStart_timerPhase (s : State) (off n : Nat) : (s.dmaStart off n).timerPhase = s.timerPhase := rfl

@[simp] theorem State.dmaStart_tickPending (s : State) (off n : Nat) : (s.dmaStart off n).tickPending = s.tickPending := rfl

@[simp] theorem State.dmaStart_tickPhase (s : State) (off n : Nat) : (s.dmaStart off n).tickPhase = s.tickPhase := rfl

@[simp] theorem State.dmaStart_dma (s : State) (off n : Nat) : (s.dmaStart off n).dma = .busy off n 0 := rfl

@[simp] theorem State.dmaStart_donePending (s : State) (off n : Nat) : (s.dmaStart off n).donePending = s.donePending := rfl

@[simp] theorem State.dmaStart_ser (s : State) (off n : Nat) : (s.dmaStart off n).ser = .shifting := rfl

@[simp] theorem State.dmaStart_hookStart (s : State) (off n : Nat) : (s.dmaStart off n).hookStart = s.hookStart := rfl

@[simp] theorem State.dmaStart_hookEnd (s : State) (off n : Nat) : (s.dmaStart off n).hookEnd = s.hookEnd := rfl

@[simp] theorem State.dmaStart_fb (s : State) (off n : Nat) : (s.dmaStart off n).fb = s.fb := rfl

@[simp] theorem State.dmaStart_fbBase (s : State) (off n : Nat) : (s.dmaStart off n).fbBase = s.fbBase := rfl

@[simp] theorem State.dmaStart_hpc (s : State) (off n : Nat) : (s.dmaStart off n).hpc = s.hpc := rfl

@[simp] theorem State.dmaStart_mainOp (s : State) (off n : Nat) : (s.dmaStart off n).mainOp = s.mainOp := rfl

@[simp] theorem State.dmaStart_hookOp (s : State) (off n : Nat) : (s.dmaStart off n).hookOp = s.hookOp := rfl

@[simp] theorem State.dmaStart_polled (s : State) (off n : Nat) : (s.dmaStart off n).polled = s.polled := rfl

@[simp] theorem State.dmaStart_fault (s : State) (off n : Nat) : (s.dmaStart off n).fault = s.fault := rfl

@[simp] theorem State.dmaStart_hist (s : State) (off n : Nat) : (s.dmaStart off n).hist = s.hist ++ [.rowStart s.line off] := rfl

@[simp] theorem State.dmaStart_params (s : State) (off n : Nat) : (s.dmaStart off n).params = s.params := rfl

@[simp] theorem State.dmaStart_sched (s : State) (off n : Nat) : (s.dmaStart off n).sched = s.sched := rfl

@[simp] theorem State.dmaStart_oracle (s : State) (off n : Nat) : (s.dmaStart off n).oracle = s.oracle := rfl

@[simp] theorem State.dmaStart_draws (s : State) (off n : Nat) : (s.dmaStart off n).draws = s.draws := rfl

/-! ### callHook -/

@[simp] theorem State.callHook_active (s : State) (k : HookKind) (h : Half) (c : Nat) : (s.callHook k h c).active = s.active := rfl

@[simp] theorem State.callHook_profId (s : State) (k : HookKind) (h : Half) (c : Nat) : (s.callHook k h c).profId = s.profId := rfl

@[simp] theorem State.callHook_prof (s : State) (k : HookKind) (h : Half) (c : Nat) : (s.callHook k h c).prof = s.prof := rfl

@[simp] theorem State.callHook_line (s : State) (k : HookKind) (h : Half) (c : Nat) : (s.callHook k h c).line = s.line := rfl

@[simp] theorem State.callHook_cursor (s : State) (k : HookKind) (h : Half) (c : Nat) : (s.callHook k h c).cursor = s.cursor := rfl

@[simp] theorem State.callHook_dutyNext (s : State) (k : HookKind) (h : Half) (c : Nat) : (s.callHook k h c).dutyNext = s.dutyNext := rfl

@[simp] theorem State.callHook_dutyCur (s : State) (k : HookKind) (h : Half) (c : Nat) : (s.callHook k h c).dutyCur = s.dutyCur := rfl

@[simp] theorem State.callHook_timerPhase (s : State) (k : HookKind) (h : Half) (c : Nat) : (s.callHook k h c).timerPhase = s.timerPhase := rfl

@[simp] theorem State.callHook_tickPending (s : State) (k : HookKind) (h : Half) (c : Nat) : (s.callHook k h c).tickPending = s.tickPending := rfl

@[simp] theorem State.callHook_tickPhase (s : State) (k : HookKind) (h : Half) (c : Nat) : (s.callHook k h c).tickPhase = .hook k h 0 := rfl

@[simp] theorem State.callHook_dma (s : State) (k : HookKind) (h : Half) (c : Nat) : (s.callHook k h c).dma = s.dma := rfl

@[simp] theorem State.callHook_donePending (s : State) (k : HookKind) (h : Half) (c : Nat) : (s.callHook k h c).donePending = s.donePending := rfl

@[simp] theorem State.callHook_ser (s : State) (k : HookKind) (h : Half) (c : Nat) : (s.callHook k h c).ser = s.ser := rfl

@[simp] theorem State.callHook_hookStart (s : State) (k : HookKind) (h : Half) (c : Nat) : (s.callHook k h c).hookStart = s.hookStart := rfl

@[simp] theorem State.callHook_hookEnd (s : State) (k : HookKind) (h : Half) (c : Nat) : (s.callHook k h c).hookEnd = s.hookEnd := rfl

@[simp] theorem State.callHook_fb (s : State) (k : HookKind) (h : Half) (c : Nat) : (s.callHook k h c).fb = s.fb := rfl

@[simp] theorem State.callHook_fbBase (s : State) (k : HookKind) (h : Half) (c : Nat) : (s.callHook k h c).fbBase = s.fbBase := rfl

@[simp] theorem State.callHook_hpc (s : State) (k : HookKind) (h : Half) (c : Nat) : (s.callHook k h c).hpc = s.hpc := rfl

@[simp] theorem State.callHook_mainOp (s : State) (k : HookKind) (h : Half) (c : Nat) : (s.callHook k h c).mainOp = s.mainOp := rfl

@[simp] theorem State.callHook_hookOp (s : State) (k : HookKind) (h : Half) (c : Nat) : (s.callHook k h c).hookOp = s.hookOp := rfl

@[simp] theorem State.callHook_polled (s : State) (k : HookKind) (h : Half) (c : Nat) : (s.callHook k h c).polled = s.polled := rfl

@[simp] theorem State.callHook_fault (s : State) (k : HookKind) (h : Half) (c : Nat) : (s.callHook k h c).fault = s.fault := rfl

@[simp] theorem State.callHook_hist (s : State) (k : HookKind) (h : Half) (c : Nat) : (s.callHook k h c).hist = s.hist ++ [.hookCall k h c] := rfl

@[simp] theorem State.callHook_params (s : State) (k : HookKind) (h : Half) (c : Nat) : (s.callHook k h c).params = s.params := rfl

@[simp] theorem State.callHook_sched (s : State) (k : HookKind) (h : Half) (c : Nat) : (s.callHook k h c).sched = s.sched := rfl

@[simp] theorem State.callHook_oracle (s : State) (k : HookKind) (h : Half) (c : Nat) : (s.callHook k h c).oracle = s.oracle := rfl

@[simp] theorem State.callHook_draws (s : State) (k : HookKind) (h : Half) (c : Nat) : (s.callHook k h c).draws = s.draws := rfl

/-! ### setHookSlot -/

@[simp] theorem State.setHookSlot_active (s : State) (k : HookKind) (h : Half) : (s.setHookSlot k h).active = s.active := by cases k <;> rfl

@[simp] theorem State.setHookSlot_profId (s : State) (k : HookKind) (h : Half) : (s.setHookSlot k h).profId = s.profId := by cases k <;> rfl

@[simp] theorem State.setHookSlot_prof (s : State) (k : HookKind) (h : Half) : (s.setHookSlot k h).prof = s.prof := by cases k <;> rfl

@[simp] theorem State.setHookSlot_line (s : State) (k : HookKind) (h : Half) : (s.setHookSlot k h).line = s.line := by cases k <;> rfl

@[simp] theorem State.setHookSlot_cursor (s : State) (k : HookKind) (h : Half) : (s.setHookSlot k h).cursor = s.cursor := by cases k <;> rfl

@[simp] theorem State.setHookSlot_dutyNext (s : State) (k : HookKind) (h : Half) : (s.setHookSlot k h).dutyNext = s.dutyNext := by cases k <;> rfl

@[simp] theorem State.setHookSlot_dutyCur (s : State) (k : HookKind) (h : Half) : (s.setHookSlot k h).dutyCur = s.dutyCur := by cases k <;> rfl

@[simp] theorem State.setHookSlot_timerPhase (s : State) (k : HookKind) (h : Half) : (s.setHookSlot k h).timerPhase = s.timerPhase := by cases k <;> rfl

@[simp] theorem State.setHookSlot_tickPending (s : State) (k : HookKind) (h : Half) : (s.setHookSlot k h).tickPending = s.tickPending := by cases k <;> rfl

@[simp] theorem State.setHookSlot_tickPhase (s : State) (k : HookKind) (h : Half) : (s.setHookSlot k h).tickPhase = s.tickPhase := by cases k <;> rfl

@[simp] theorem State.setHookSlot_dma (s : State) (k : HookKind) (h : Half) : (s.setHookSlot k h).dma = s.dma := by cases k <;> rfl

@[simp] theorem State.setHookSlot_donePending (s : State) (k : HookKind) (h : Half) : (s.setHookSlot k h).donePending = s.donePending := by cases k <;> rfl

@[simp] theorem State.setHookSlot_ser (s : State) (k : HookKind) (h : Half) : (s.setHookSlot k h).ser = s.ser := by cases k <;> rfl

@[simp] theorem State.setHookSlot_fb (s : State) (k : HookKind) (h : Half) : (s.setHookSlot k h).fb = s.fb := by cases k <;> rfl

@[simp] theorem State.setHookSlot_fbBase (s : State) (k : HookKind) (h : Half) : (s.setHookSlot k h).fbBase = s.fbBase := by cases k <;> rfl

@[simp] theorem State.setHookSlot_hpc (s : State) (k : HookKind) (h : Half) : (s.setHookSlot k h).hpc = s.hpc := by cases k <;> rfl

@[simp] theorem State.setHookSlot_mainOp (s : State) (k : HookKind) (h : Half) : (s.setHookSlot k h).mainOp = s.mainOp := by cases k <;> rfl

@[simp] theorem State.setHookSlot_hookOp (s : State) (k : HookKind) (h : Half) : (s.setHookSlot k h).hookOp = s.hookOp := by cases k <;> rfl

@[simp] theorem State.setHookSlot_polled (s : State) (k : HookKind) (h : Half) : (s.setHookSlot k h).polled = s.polled := by cases k <;> rfl

@[simp] theorem State.setHookSlot_fault (s : State) (k : HookKind) (h : Half) : (s.setHookSlot k h).fault = s.fault := by cases k <;> rfl

@[simp] theorem State.setHookSlot_hist (s : State) (k : HookKind) (h : Half) : (s.setHookSlot k h).hist = s.hist := by cases k <;> rfl

@[simp] theorem State.setHookSlot_params (s : State) (k : HookKind) (h : Half) : (s.setHookSlot k h).params = s.params := by cases k <;> rfl

@[simp] theorem State.setHookSlot_sched (s : State) (k : HookKind) (h : Half) : (s.setHookSlot k h).sched = s.sched := by cases k <;> rfl

@[simp] theorem State.setHookSlot_oracle (s : State) (k : HookKind) (h : Half) : (s.setHookSlot k h).oracle = s.oracle := by cases k <;> rfl

@[simp] theorem State.setHookSlot_draws (s : State) (k : HookKind) (h : Half) : (s.setHookSlot k h).draws = s.draws := by cases k <;> rfl

/-! ### lineAdvance -/

@[simp] theorem State.lineAdvance_active (s : State) : s.lineAdvance.active = s.active := by unfold State.lineAdvance; split <;> rfl

@[simp] theorem State.lineAdvance_profId (s : State) : s.lineAdvance.profId = s.profId := by unfold State.lineAdvance; split <;> rfl

@[simp] theorem State.lineAdvance_prof (s : State) : s.lineAdvance.prof = s.prof := by unfold State.lineAdvance; split <;> rfl

@[simp] theorem State.lineAdvance_dutyNext (s : State) : s.lineAdvance.dutyNext = s.dutyNext := by unfold State.lineAdvance; split <;> rfl

@[simp] theorem State.lineAdvance_dutyCur (s : State) : s.lineAdvance.dutyCur = s.dutyCur := by unfold State.lineAdvance; split <;> rfl

@[simp] theorem State.lineAdvance_timerPhase (s : State) : s.lineAdvance.timerPhase = s.timerPhase := by unfold State.lineAdvance; split <;> rfl

@[simp] theorem State.lineAdvance_tickPending (s : State) : s.lineAdvance.tickPending = s.tickPending := by unfold State.lineAdvance; split <;> rfl

@[simp] theorem State.lineAdvance_tickPhase (s : State) : s.lineAdvance.tickPhase = s.tickPhase := by unfold State.lineAdvance; split <;> rfl

@[simp] theorem State.lineAdvance_dma (s : State) : s.lineAdvance.dma = s.dma := by unfold State.lineAdvance; split <;> rfl

@[simp] theorem State.lineAdvance_donePending (s : State) : s.lineAdvance.donePending = s.donePending := by unfold State.lineAdvance; split <;> rfl

@[simp] theorem State.lineAdvance_ser (s : State) : s.lineAdvance.ser = s.ser := by unfold State.lineAdvance; split <;> rfl

@[simp] theorem State.lineAdvance_hookStart (s : State) : s.lineAdvance.hookStart = s.hookStart := by unfold State.lineAdvance; split <;> rfl

@[simp] theorem State.lineAdvance_hookEnd (s : State) : s.lineAdvance.hookEnd = s.hookEnd := by unfold State.lineAdvance; split <;> rfl

@[simp] theorem State.lineAdvance_fb (s : State) : s.lineAdvance.fb = s.fb := by unfold State.lineAdvance; split <;> rfl

@[simp] theorem State.lineAdvance_fbBase (s : State) : s.lineAdvance.fbBase = s.fbBase := by unfold State.lineAdvance; split <;> rfl

@[simp] theorem State.lineAdvance_hpc (s : State) : s.lineAdvance.hpc = s.hpc := by unfold State.lineAdvance; split <;> rfl

@[simp] theorem State.lineAdvance_mainOp (s : State) : s.lineAdvance.mainOp = s.mainOp := by unfold State.lineAdvance; split <;> rfl

@[simp] theorem State.lineAdvance_hookOp (s : State) : s.lineAdvance.hookOp = s.hookOp := by unfold State.lineAdvance; split <;> rfl

@[simp] theorem State.lineAdvance_polled (s : State) : s.lineAdvance.polled = false := by unfold State.lineAdvance; split <;> rfl

@[simp] theorem State.lineAdvance_fault (s : State) : s.lineAdvance.fault = s.fault := by unfold State.lineAdvance; split <;> rfl

@[simp] theorem State.lineAdvance_hist (s : State) : s.lineAdvance.hist = s.hist := by unfold State.lineAdvance; split <;> rfl

@[simp] theorem State.lineAdvance_params (s : State) : s.lineAdvance.params = s.params := by unfold State.lineAdvance; split <;> rfl

@[simp] theorem State.lineAdvance_sched (s : State) : s.lineAdvance.sched = s.sched := by unfold State.lineAdvance; split <;> rfl

@[simp] theorem State.lineAdvance_oracle (s : State) : s.lineAdvance.oracle = s.oracle := by unfold State.lineAdvance; split <;> rfl

@[simp] theorem State.lineAdvance_draws (s : State) : s.lineAdvance.draws = s.draws := by unfold State.lineAdvance; split <;> rfl

/-! ### retire -/

@[simp] theorem State.retire_active (s : State) : s.retire.active = s.active := by unfold State.retire; split <;> rfl

@[simp] theorem State.retire_profId (s : State) : s.retire.profId = s.profId := by unfold State.retire; split <;> rfl

@[simp] theorem State.retire_prof (s : State) : s.retire.prof = s.prof := by unfold State.retire; split <;> rfl

@[simp] theorem State.retire_line (s : State) : s.retire.line = s.line := by unfold State.retire; split <;> rfl

@[simp] theorem State.retire_cursor (s : State) : s.retire.cursor = s.cursor := by unfold State.retire; split <;> rfl

@[simp] theorem State.retire_dutyNext (s : State) : s.retire.dutyNext = s.dutyNext := by unfold State.retire; split <;> rfl

@[simp] theorem State.retire_dutyCur (s : State) : s.retire.dutyCur = s.dutyCur := by unfold State.retire; split <;> rfl

@[simp] theorem State.retire_timerPhase (s : State) : s.retire.timerPhase = s.timerPhase := by unfold State.retire; split <;> rfl

@[simp] theorem State.retire_tickPending (s : State) : s.retire.tickPending = s.tickPending := by unfold State.retire; split <;> rfl

@[simp] theorem State.retire_dma (s : State) : s.retire.dma = s.dma := by unfold State.retire; split <;> rfl

@[simp] theorem State.retire_donePending (s : State) : s.retire.donePending = s.donePending := by unfold State.retire; split <;> rfl

@[simp] theorem State.retire_ser (s : State) : s.retire.ser = s.ser := by unfold State.retire; split <;> rfl

@[simp] theorem State.retire_hookStart (s : State) : s.retire.hookStart = s.hookStart := by unfold State.retire; split <;> rfl

@[simp] theorem State.retire_hookEnd (s : State) : s.retire.hookEnd = s.hookEnd := by unfold State.retire; split <;> rfl

@[simp] theorem State.retire_fb (s : State) : s.retire.fb = s.fb := by unfold State.retire; split <;> rfl

@[simp] theorem State.retire_fbBase (s : State) : s.retire.fbBase = s.fbBase := by unfold State.retire; split <;> rfl

@[simp] theorem State.retire_polled (s : State) : s.retire.polled = s.polled := by unfold State.retire; split <;> rfl

@[simp] theorem State.retire_fault (s : State) : s.retire.fault = s.fault := by unfold State.retire; split <;> rfl

@[simp] theorem State.retire_hist (s : State) : s.retire.hist = s.hist := by unfold State.retire; split <;> rfl

@[simp] theorem State.retire_params (s : State) : s.retire.params = s.params := by unfold State.retire; split <;> rfl

@[simp] theorem State.retire_sched (s : State) : s.retire.sched = s.sched := by unfold State.retire; split <;> rfl

@[simp] theorem State.retire_oracle (s : State) : s.retire.oracle = s.oracle := by unfold State.retire; split <;> rfl

@[simp] theorem State.retire_draws (s : State) : s.retire.draws = s.draws := by unfold State.retire; split <;> rfl

/-! ### keepOp -/

@[simp] theorem State.keepOp_active (s : State) (op : MultiOp) : (s.keepOp op).active = s.active := by unfold State.keepOp; split <;> rfl

@[simp] theorem State.keepOp_profId (s : State) (op : MultiOp) : (s.keepOp op).profId = s.profId := by unfold State.keepOp; split <;> rfl

@[simp] theorem State.keepOp_prof (s : State) (op : MultiOp) : (s.keepOp op).prof = s.prof := by unfold State.keepOp; split <;> rfl

@[simp] theorem State.keepOp_line (s : State) (op : MultiOp) : (s.keepOp op).line = s.line := by unfold State.keepOp; split <;> rfl

@[simp] theorem State.keepOp_cursor (s : State) (op : MultiOp) : (s.keepOp op).cursor = s.cursor := by unfold State.keepOp; split <;> rfl

@[simp] theorem State.keepOp_dutyNext (s : State) (op : MultiOp) : (s.keepOp op).dutyNext = s.dutyNext := by unfold State.keepOp; split <;> rfl

@[simp] theorem State.keepOp_dutyCur (s : State) (op : MultiOp) : (s.keepOp op).dutyCur = s.dutyCur := by unfold State.keepOp; split <;> rfl

@[simp] theorem State.keepOp_timerPhase (s : State) (op : MultiOp) : (s.keepOp op).timerPhase = s.timerPhase := by unfold State.keepOp; split <;> rfl

@[simp] theorem State.keepOp_tickPending (s : State) (op : MultiOp) : (s.keepOp op).tickPending = s.tickPending := by unfold State.keepOp; split <;> rfl

@[simp] theorem State.keepOp_tickPhase (s : State) (op : MultiOp) : (s.keepOp op).tickPhase = s.tickPhase := by unfold State.keepOp; split <;> rfl

@[simp] theorem State.keepOp_dma (s : State) (op : MultiOp) : (s.keepOp op).dma = s.dma := by unfold State.keepOp; split <;> rfl

@[simp] theorem State.keepOp_donePending (s : State) (op : MultiOp) : (s.keepOp op).donePending = s.donePending := by unfold State.keepOp; split <;> rfl

@[simp] theorem State.keepOp_ser (s : State) (op : MultiOp) : (s.keepOp op).ser = s.ser := by unfold State.keepOp; split <;> rfl

@[simp] theorem State.keepOp_hookStart (s : State) (op : MultiOp) : (s.keepOp op).hookStart = s.hookStart := by unfold State.keepOp; split <;> rfl

@[simp] theorem State.keepOp_hookEnd (s : State) (op : MultiOp) : (s.keepOp op).hookEnd = s.hookEnd := by unfold State.keepOp; split <;> rfl

@[simp] theorem State.keepOp_fb (s : State) (op : MultiOp) : (s.keepOp op).fb = s.fb := by unfold State.keepOp; split <;> rfl

@[simp] theorem State.keepOp_fbBase (s : State) (op : MultiOp) : (s.keepOp op).fbBase = s.fbBase := by unfold State.keepOp; split <;> rfl

@[simp] theorem State.keepOp_hpc (s : State) (op : MultiOp) : (s.keepOp op).hpc = s.hpc := by unfold State.keepOp; split <;> rfl

@[simp] theorem State.keepOp_polled (s : State) (op : MultiOp) : (s.keepOp op).polled = s.polled := by unfold State.keepOp; split <;> rfl

@[simp] theorem State.keepOp_fault (s : State) (op : MultiOp) : (s.keepOp op).fault = s.fault := by unfold State.keepOp; split <;> rfl

@[simp] theorem State.keepOp_hist (s : State) (op : MultiOp) : (s.keepOp op).hist = s.hist := by unfold State.keepOp; split <;> rfl

@[simp] theorem State.keepOp_params (s : State) (op : MultiOp) : (s.keepOp op).params = s.params := by unfold State.keepOp; split <;> rfl

@[simp] theorem State.keepOp_sched (s : State) (op : MultiOp) : (s.keepOp op).sched = s.sched := by unfold State.keepOp; split <;> rfl

@[simp] theorem State.keepOp_oracle (s : State) (op : MultiOp) : (s.keepOp op).oracle = s.oracle := by unfold State.keepOp; split <;> rfl

@[simp] theorem State.keepOp_draws (s : State) (op : MultiOp) : (s.keepOp op).draws = s.draws := by unfold State.keepOp; split <;> rfl

/-! ### drawNat -/

@[simp] theorem State.drawNat_active (s : State) : s.drawNat.2.active = s.active := by unfold State.drawNat; split <;> rfl

@[simp] theorem State.drawNat_profId (s : State) : s.drawNat.2.profId = s.profId := by unfold State.drawNat; split <;> rfl

@[simp] theorem State.drawNat_prof (s : State) : s.drawNat.2.prof = s.prof := by unfold State.drawNat; split <;> rfl

@[simp] theorem State.drawNat_line (s : State) : s.drawNat.2.line = s.line := by unfold State.drawNat; split <;> rfl

@[simp] theorem State.drawNat_cursor (s : State) : s.drawNat.2.cursor = s.cursor := by unfold State.drawNat; split <;> rfl

@[simp] theorem State.drawNat_dutyNext (s : State) : s.drawNat.2.dutyNext = s.dutyNext := by unfold State.drawNat; split <;> rfl

@[simp] theorem State.drawNat_dutyCur (s : State) : s.drawNat.2.dutyCur = s.dutyCur := by unfold State.drawNat; split <;> rfl

@[simp] theorem State.drawNat_timerPhase (s : State) : s.drawNat.2.timerPhase = s.timerPhase := by unfold State.drawNat; split <;> rfl

@[simp] theorem State.drawNat_tickPending (s : State) : s.drawNat.2.tickPending = s.tickPending := by unfold State.drawNat; split <;> rfl

@[simp] theorem State.drawNat_tickPhase (s : State) : s.drawNat.2.tickPhase = s.tickPhase := by unfold State.drawNat; split <;> rfl

@[simp] theorem State.drawNat_dma (s : State) : s.drawNat.2.dma = s.dma := by unfold State.drawNat; split <;> rfl

@[simp] theorem State.drawNat_donePending (s : State) : s.drawNat.2.donePending = s.donePending := by unfold State.drawNat; split <;> rfl

@[simp] theorem State.drawNat_ser (s : State) : s.drawNat.2.ser = s.ser := by unfold State.drawNat; split <;> rfl

@[simp] theorem State.drawNat_hookStart (s : State) : s.drawNat.2.hookStart = s.hookStart := by unfold State.drawNat; split <;> rfl

@[simp] theorem State.drawNat_hookEnd (s : State) : s.drawNat.2.hookEnd = s.hookEnd := by unfold State.drawNat; split <;> rfl

@[simp] theorem State.drawNat_fb (s : State) : s.drawNat.2.fb = s.fb := by unfold State.drawNat; split <;> rfl

@[simp] theorem State.drawNat_fbBase (s : State) : s.drawNat.2.fbBase = s.fbBase := by unfold State.drawNat; split <;> rfl

@[simp] theorem State.drawNat_hpc (s : State) : s.drawNat.2.hpc = s.hpc := by unfold State.drawNat; split <;> rfl

@[simp] theorem State.drawNat_mainOp (s : State) : s.drawNat.2.mainOp = s.mainOp := by unfold State.drawNat; split <;> rfl

@[simp] theorem State.drawNat_hookOp (s : State) : s.drawNat.2.hookOp = s.hookOp := by unfold State.drawNat; split <;> rfl

@[simp] theorem State.drawNat_polled (s : State) : s.drawNat.2.polled = s.polled := by unfold State.drawNat; split <;> rfl

@[simp] theorem State.drawNat_fault (s : State) : s.drawNat.2.fault = s.fault := by unfold State.drawNat; split <;> rfl

@[simp] theorem State.drawNat_hist (s : State) : s.drawNat.2.hist = s.hist := by unfold State.drawNat; split <;> rfl

@[simp] theorem State.drawNat_params (s : State) : s.drawNat.2.params = s.params := by unfold State.drawNat; split <;> rfl

@[simp] theorem State.drawNat_sched (s : State) : s.drawNat.2.sched = s.sched := by unfold State.drawNat; split <;> rfl

/-! ### takeAgent -/

@[simp] theorem State.takeAgent_active (s : State) : s.takeAgent.2.active = s.active := by unfold State.takeAgent; split <;> rfl

@[simp] theorem State.takeAgent_profId (s : State) : s.takeAgent.2.profId = s.profId := by unfold State.takeAgent; split <;> rfl

@[simp] theorem State.takeAgent_prof (s : State) : s.takeAgent.2.prof = s.prof := by unfold State.takeAgent; split <;> rfl

@[simp] theorem State.takeAgent_line (s : State) : s.takeAgent.2.line = s.line := by unfold State.takeAgent; split <;> rfl

@[simp] theorem State.takeAgent_cursor (s : State) : s.takeAgent.2.cursor = s.cursor := by unfold State.takeAgent; split <;> rfl

@[simp] theorem State.takeAgent_dutyNext (s : State) : s.takeAgent.2.dutyNext = s.dutyNext := by unfold State.takeAgent; split <;> rfl

@[simp] theorem State.takeAgent_dutyCur (s : State) : s.takeAgent.2.dutyCur = s.dutyCur := by unfold State.takeAgent; split <;> rfl

@[simp] theorem State.takeAgent_timerPhase (s : State) : s.takeAgent.2.timerPhase = s.timerPhase := by unfold State.takeAgent; split <;> rfl

@[simp] theorem State.takeAgent_tickPending (s : State) : s.takeAgent.2.tickPending = s.tickPending := by unfold State.takeAgent; split <;> rfl

@[simp] theorem State.takeAgent_tickPhase (s : State) : s.takeAgent.2.tickPhase = s.tickPhase := by unfold State.takeAgent; split <;> rfl

@[simp] theorem State.takeAgent_dma (s : State) : s.takeAgent.2.dma = s.dma := by unfold State.takeAgent; split <;> rfl

@[simp] theorem State.takeAgent_donePending (s : State) : s.takeAgent.2.donePending = s.donePending := by unfold State.takeAgent; split <;> rfl

@[simp] theorem State.takeAgent_ser (s : State) : s.takeAgent.2.ser = s.ser := by unfold State.takeAgent; split <;> rfl

@[simp] theorem State.takeAgent_hookStart (s : State) : s.takeAgent.2.hookStart = s.hookStart := by unfold State.takeAgent; split <;> rfl

@[simp] theorem State.takeAgent_hookEnd (s : State) : s.takeAgent.2.hookEnd = s.hookEnd := by unfold State.takeAgent; split <;> rfl

@[simp] theorem State.takeAgent_fb (s : State) : s.takeAgent.2.fb = s.fb := by unfold State.takeAgent; split <;> rfl

@[simp] theorem State.takeAgent_fbBase (s : State) : s.takeAgent.2.fbBase = s.fbBase := by unfold State.takeAgent; split <;> rfl

@[simp] theorem State.takeAgent_hpc (s : State) : s.takeAgent.2.hpc = s.hpc := by unfold State.takeAgent; split <;> rfl

@[simp] theorem State.takeAgent_mainOp (s : State) : s.takeAgent.2.mainOp = s.mainOp := by unfold State.takeAgent; split <;> rfl

@[simp] theorem State.takeAgent_hookOp (s : State) : s.takeAgent.2.hookOp = s.hookOp := by unfold State.takeAgent; split <;> rfl

@[simp] theorem State.takeAgent_polled (s : State) : s.takeAgent.2.polled = s.polled := by unfold State.takeAgent; split <;> rfl

@[simp] theorem State.takeAgent_fault (s : State) : s.takeAgent.2.fault = s.fault := by unfold State.takeAgent; split <;> rfl

@[simp] theorem State.takeAgent_hist (s : State) : s.takeAgent.2.hist = s.hist := by unfold State.takeAgent; split <;> rfl

@[simp] theorem State.takeAgent_params (s : State) : s.takeAgent.2.params = s.params := by unfold State.takeAgent; split <;> rfl

@[simp] theorem State.takeAgent_oracle (s : State) : s.takeAgent.2.oracle = s.oracle := by unfold State.takeAgent; split <;> rfl

end Sys2Proof.Machine
end

