-- ==== Sys2Proof/Laws/Exec.lean ====
section
/-! SUPPORT. One lemma for each meaning: everything it can do where it answers a next state. Later proofs cite these
and do not unfold a meaning. -/

namespace Sys2Proof.Machine

theorem State.unlessFaulted_next {s t : State} {k : Result} :
    s.unlessFaulted k = .next t ↔ s.fault = none ∧ k = .next t := by
  unfold State.unlessFaulted
  cases s.fault <;> simp

theorem State.unlessFaulted_of_none {s : State} (h : s.fault = none) (k : Result) : s.unlessFaulted k = k := by
  simp [State.unlessFaulted, h]

theorem State.unlessFaulted_of_some {s : State} {c : Fault} (h : s.fault = some c) (k : Result) :
    s.unlessFaulted k = .fault c := by
  simp [State.unlessFaulted, h]

theorem State.inHook_eq_false {s : State} : s.inHook = false ↔ s.tickPhase = .idle := by
  unfold State.inHook
  cases s.tickPhase <;> simp

theorem State.inHook_eq_true {s : State} : s.inHook = true ↔ ∃ k h pc, s.tickPhase = .hook k h pc := by
  unfold State.inHook
  cases s.tickPhase <;> simp

theorem State.retire_main {s : State} (h : s.tickPhase = .idle) :
    s.retire = { s with hpc := s.hpc + 1, mainOp := none } := by
  simp [State.retire, h]

theorem State.retire_hook {s : State} {k : HookKind} {hd : Half} {pc : Nat} (h : s.tickPhase = .hook k hd pc) :
    s.retire = { s with tickPhase := .hook k hd (pc + 1), hookOp := none } := by
  simp [State.retire, h]

/-- Everything BEGIN can do. -/
theorem execBegin_next {m : Byte} {s t : State} (h : execBegin m s = .next t) :
    s.fault = none ∧
      ((s.inHook = true ∧ t = s.raise .hookContext) ∨
       (s.inHook = false ∧ s.active = true ∧ t = s.raise .alreadyActive) ∨
       (s.inHook = false ∧ s.active = false ∧ ∃ p, s.params.profileTable[resolveMode s.params m]? = some p ∧
          ((allocOk s.params (fbSize p) = false ∧ t = s.raise .allocFail) ∨
           (allocOk s.params (fbSize p) = true ∧
              t = (s.drawNat.2.begin (resolveMode s.params m) p (fbBaseOf (fbSize p) s.drawNat.1)).retire)))) := by
  obtain ⟨hf, h⟩ := State.unlessFaulted_next.1 h
  refine ⟨hf, ?_⟩
  split at h
  · next hh => cases h; exact .inl ⟨hh, rfl⟩
  · next hh =>
    have hh' : s.inHook = false := by simpa using hh
    split at h
    · next ha => cases h; exact .inr (.inl ⟨hh', ha, rfl⟩)
    · next ha =>
      have ha' : s.active = false := by simpa using ha
      split at h
      · cases h
      · next p hp =>
        split at h
        · next hal => cases h; exact .inr (.inr ⟨hh', ha', p, hp, .inr ⟨hal, rfl⟩⟩)
        · next hal => cases h; exact .inr (.inr ⟨hh', ha', p, hp, .inl ⟨by simpa using hal, rfl⟩⟩)

/-- The state END leaves before it is recorded and retired (R104). -/
def State.stopped (s : State) : State :=
  { s with active := false, tickPending := false, dma := .idle, donePending := false, ser := .residual, fb := none }

/-- Everything END can do. -/
theorem execEnd_next {s t : State} (h : execEnd s = .next t) :
    s.fault = none ∧
      ((s.inHook = true ∧ t = s.raise .hookContext) ∨
       (s.inHook = false ∧ s.active = false ∧ t = s.raise .notActive) ∨
       (s.inHook = false ∧ s.active = true ∧ t = (s.stopped.record .ended).retire)) := by
  obtain ⟨hf, h⟩ := State.unlessFaulted_next.1 h
  refine ⟨hf, ?_⟩
  split at h
  · next hh => cases h; exact .inl ⟨hh, rfl⟩
  · next hh =>
    have hh' : s.inHook = false := by simpa using hh
    split at h
    · next ha => cases h; exact .inr (.inl ⟨hh', by simpa using ha, rfl⟩)
    · next ha => cases h; exact .inr (.inr ⟨hh', by simpa using ha, rfl⟩)

/-- Everything one step of CLEAR can do. -/
theorem clearStep_next {left : List Nat} {s t : State} (h : clearStep left s = .next t) :
    ∃ r m, r ∈ left ∧ left[s.drawNat.1 % left.length]? = some r ∧ s.fb = some m ∧ r < fbSize s.prof ∧
      ((left.filter (· ≠ r) = [] ∧
          t = (({ s.drawNat.2 with fb := some (m.write r 0) } : State).record (.fbWrite r 0)).retire) ∨
       (left.filter (· ≠ r) ≠ [] ∧
          t = (({ s.drawNat.2 with fb := some (m.write r 0) } : State).record (.fbWrite r 0)).keepOp
            (.clear (left.filter (· ≠ r))))) := by
  unfold clearStep at h
  split at h
  · cases h
  · next r hr =>
    split at h
    · cases h
    · next u hu =>
      obtain ⟨m, hm, hlt, rfl⟩ := State.writeByte_eq_some.1 hu
      simp only [State.drawNat_fb, State.drawNat_prof] at hm hlt
      refine ⟨r, m, List.mem_of_getElem? hr, hr, hm, hlt, ?_⟩
      dsimp only at h
      split at h
      · next he => cases h; exact .inl ⟨he, rfl⟩
      · next he => cases h; exact .inr ⟨he, rfl⟩

theorem State.clearLeft_eq_some {s : State} {left : List Nat} :
    s.clearLeft = some left ↔ s.currentOp = some (.clear left) := by
  unfold State.clearLeft
  split <;> simp_all

theorem State.waitProgress_eq_some {s : State} {rem fl : Nat} {ph : WaitPhase} :
    s.waitProgress = some (rem, ph, fl) ↔ s.currentOp = some (.waitf rem ph fl) := by
  unfold State.waitProgress
  split <;> simp_all

/-- Everything CLEAR can do. -/
theorem execClear_next {s t : State} (h : execClear s = .next t) :
    s.fault = none ∧
      ((∃ left, s.currentOp = some (.clear left) ∧ clearStep left s = .next t) ∨
       (s.clearLeft = none ∧ s.active = false ∧ t = s.raise .notActive) ∨
       (s.clearLeft = none ∧ s.active = true ∧ clearStep (List.range (fbSize s.prof)) s = .next t)) := by
  obtain ⟨hf, h⟩ := State.unlessFaulted_next.1 h
  refine ⟨hf, ?_⟩
  split at h
  · next left hc => exact .inl ⟨left, State.clearLeft_eq_some.1 hc, h⟩
  · next hc =>
    split at h
    · next ha => cases h; exact .inr (.inl ⟨hc, by simpa using ha, rfl⟩)
    · next ha => exact .inr (.inr ⟨hc, by simpa using ha, h⟩)

/-- Everything FBRD can do. -/
theorem execFbrd_next {off : Half} {s t : State} (h : execFbrd off s = .next t) :
    s.fault = none ∧
      ((s.active = false ∧ t = s.raise .notActive) ∨
       (s.active = true ∧ fbSize s.prof ≤ off.toNat ∧ t = s.raise .fbRange) ∨
       (s.active = true ∧ ∃ v, s.readByte off.toNat = some v ∧
          t = (s.record (.read (.fb off.toNat) (v.setWidth 32))).retire)) := by
  obtain ⟨hf, h⟩ := State.unlessFaulted_next.1 h
  refine ⟨hf, ?_⟩
  split at h
  · next ha => cases h; exact .inl ⟨by simpa using ha, rfl⟩
  · next ha =>
    have ha' : s.active = true := by simpa using ha
    split at h
    · next hr => cases h; exact .inr (.inl ⟨ha', hr, rfl⟩)
    · split at h
      · cases h
      · next v hv => cases h; exact .inr (.inr ⟨ha', v, hv, rfl⟩)

/-- Everything FBWR can do. -/
theorem execFbwr_next {data : Byte} {off : Half} {s t : State} (h : execFbwr data off s = .next t) :
    s.fault = none ∧
      ((s.active = false ∧ t = s.raise .notActive) ∨
       (s.active = true ∧ fbSize s.prof ≤ off.toNat ∧ t = s.raise .fbRange) ∨
       (s.active = true ∧ ∃ m, s.fb = some m ∧ off.toNat < fbSize s.prof ∧
          t = (({ s with fb := some (m.write off.toNat data) } : State).record (.fbWrite off.toNat data)).retire)) := by
  obtain ⟨hf, h⟩ := State.unlessFaulted_next.1 h
  refine ⟨hf, ?_⟩
  split at h
  · next ha => cases h; exact .inl ⟨by simpa using ha, rfl⟩
  · next ha =>
    have ha' : s.active = true := by simpa using ha
    split at h
    · next hr => cases h; exact .inr (.inl ⟨ha', hr, rfl⟩)
    · split at h
      · cases h
      · next u hu =>
        obtain ⟨m, hm, hlt, rfl⟩ := State.writeByte_eq_some.1 hu
        cases h
        exact .inr (.inr ⟨ha', m, hm, hlt, rfl⟩)

/-- Everything SETHOOK can do. -/
theorem execSethook_next {k : HookKind} {hd : Half} {s t : State} (h : execSethook k hd s = .next t) :
    s.fault = none ∧ t = (s.setHookSlot k hd).retire := by
  obtain ⟨hf, h⟩ := State.unlessFaulted_next.1 h
  cases h
  exact ⟨hf, rfl⟩

/-- Everything RDREG can do. -/
theorem execRdreg_next {r : Reg} {s t : State} (h : execRdreg r s = .next t) :
    s.fault = none ∧
      ((regReadable s r = true ∧ t = (s.record (.read (.reg r) (regValue s r))).retire) ∨
       (regReadable s r = false ∧ t = s.raise .notActive)) := by
  obtain ⟨hf, h⟩ := State.unlessFaulted_next.1 h
  refine ⟨hf, ?_⟩
  split at h
  · next hr => cases h; exact .inl ⟨hr, rfl⟩
  · next hr => cases h; exact .inr ⟨by simpa using hr, rfl⟩

/-- Everything one attempt of a poll can do. -/
theorem pollAttempt_next {e : Bool} {r : Reg} {v : Half} {s t : State} (h : pollAttempt e r v s = .next t) :
    (s.inHook = true ∧ t = s.raise .hookContext) ∨
    (s.inHook = false ∧ regReadable s r = false ∧ t = s.raise .notActive) ∨
    (s.inHook = false ∧ regReadable s r = true ∧ decide (regValue s r = v.setWidth 32) = e ∧
      t = (({ s with polled := true } : State).record (.read (.reg r) (regValue s r))).retire) ∨
    (s.inHook = false ∧ regReadable s r = true ∧ decide (regValue s r = v.setWidth 32) ≠ e ∧
      t = ({ s with polled := true } : State).keepOp (.poll e r v)) := by
  unfold pollAttempt at h
  split at h
  · next hh => cases h; exact .inl ⟨hh, rfl⟩
  · next hh =>
    have hh' : s.inHook = false := by simpa using hh
    split at h
    · next hr => cases h; exact .inr (.inl ⟨hh', by simpa using hr, rfl⟩)
    · next hr =>
      have hr' : regReadable s r = true := by simpa using hr
      dsimp only at h
      split at h
      · next hv => cases h; exact .inr (.inr (.inl ⟨hh', hr', hv, rfl⟩))
      · next hv => cases h; exact .inr (.inr (.inr ⟨hh', hr', hv, rfl⟩))

/-- Everything one attempt of WAITF can do. -/
theorem waitAttempt_next {rem fl : Nat} {ph : WaitPhase} {s t : State} (h : waitAttempt rem ph fl s = .next t) :
    (∃ rem' ph', rem' ≤ rem ∧ (1 ≤ rem → 1 ≤ rem') ∧
      t = ({ s with polled := true } : State).keepOp (.waitf rem' ph' fl)) ∨
    (ph = .seekNe ∧ s.line ≠ fl ∧ rem ≤ 1 ∧
      t = (({ s with polled := true } : State).record (.read (.reg .line) (BitVec.ofNat 32 s.line))).retire) := by
  unfold waitAttempt at h
  dsimp only at h
  split at h
  · cases h; exact .inl ⟨rem, _, le_refl _, id, rfl⟩
  · split at h
    · cases h; exact .inl ⟨rem, _, le_refl _, id, rfl⟩
    · next hl =>
      split at h
      · next hz => cases h; exact .inr ⟨rfl, hl, by omega, rfl⟩
      · next hz => cases h; exact .inl ⟨rem - 1, _, by omega, fun _ => by omega, rfl⟩

/-- Everything WAITF can do. -/
theorem execWaitf_next {n : Half} {s t : State} (h : execWaitf n s = .next t) :
    s.fault = none ∧
      ((s.inHook = true ∧ t = s.raise .hookContext) ∨
       (s.inHook = false ∧ ∃ rem ph fl, s.mainOp = some (.waitf rem ph fl) ∧ waitAttempt rem ph fl s = .next t) ∨
       (s.inHook = false ∧ s.waitProgress = none ∧
          ((s.active = false ∧ t = s.raise .notActive) ∨
           (s.active = true ∧ n = 0 ∧ t = s.retire) ∨
           (s.active = true ∧ n ≠ 0 ∧ waitAttempt n.toNat .seekEq (frameLine s.prof) s = .next t)))) := by
  obtain ⟨hf, h⟩ := State.unlessFaulted_next.1 h
  refine ⟨hf, ?_⟩
  split at h
  · next hh => cases h; exact .inl ⟨hh, rfl⟩
  · next hh =>
    have hh' : s.inHook = false := by simpa using hh
    split at h
    · next rem ph fl hw =>
      have hop := State.waitProgress_eq_some.1 hw
      simp only [State.currentOp, hh'] at hop
      exact .inr (.inl ⟨hh', rem, ph, fl, hop, h⟩)
    · next hw =>
      refine .inr (.inr ⟨hh', hw, ?_⟩)
      split at h
      · next ha => cases h; exact .inl ⟨by simpa using ha, rfl⟩
      · next ha =>
        have ha' : s.active = true := by simpa using ha
        split at h
        · next hn => cases h; exact .inr (.inl ⟨ha', hn, rfl⟩)
        · next hn => exact .inr (.inr ⟨ha', hn, h⟩)

/-- The period boundary's own writes (R86). -/
def State.latch (s : State) : State :=
  { (({ s with dutyCur := s.dutyNext } : State).record (.pulse s.line s.dutyNext)) with timerPhase := .nextCompare }

/-- Everything BOUNDARY can do. -/
theorem execBoundary_next {s t : State} (h : execBoundary s = .next t) :
    s.fault = none ∧
      ((boundaryEnabled s = false ∧ t = s) ∨
       (boundaryEnabled s = true ∧
          t = (if s.tickPending || decide (s.tickPhase ≠ .idle) then s.record (.deadlineMiss s.line) else s).latch)) := by
  obtain ⟨hf, h⟩ := State.unlessFaulted_next.1 h
  refine ⟨hf, ?_⟩
  split at h
  · next he => cases h; exact .inr ⟨he, rfl⟩
  · next he => cases h; exact .inl ⟨by simpa using he, rfl⟩

/-- Everything COMPARE can do. -/
theorem execCompare_next {s t : State} (h : execCompare s = .next t) :
    s.fault = none ∧
      ((compareEnabled s = false ∧ t = s) ∨
       (compareEnabled s = true ∧
          t = { (if s.tickPending then s.record (.lostTick s.line) else s) with
                tickPending := true, timerPhase := .nextBoundary })) := by
  obtain ⟨hf, h⟩ := State.unlessFaulted_next.1 h
  refine ⟨hf, ?_⟩
  split at h
  · next he => cases h; exact .inr ⟨he, rfl⟩
  · next he => cases h; exact .inl ⟨by simpa using he, rfl⟩

/-- Everything TICK can do. -/
theorem execTick_next {s t : State} (h : execTick s = .next t) :
    s.fault = none ∧ ((tickEnabled s = false ∧ t = s) ∨ (tickEnabled s = true ∧ t = s.runTick)) := by
  obtain ⟨hf, h⟩ := State.unlessFaulted_next.1 h
  refine ⟨hf, ?_⟩
  split at h
  · next he => cases h; exact .inr ⟨he, rfl⟩
  · next he => cases h; exact .inl ⟨by simpa using he, rfl⟩

/-- A tick entered: its request is cleared and it is recorded (R74). -/
def State.enterTick (s : State) : State := ({ s with tickPending := false } : State).record (.tick s.line)

/-- The row dispatched and the cursor advanced (R74, R75). -/
def State.dispatchRow (s : State) : State :=
  { (s.enterTick.dmaStart s.cursor s.prof.rowByteWidth) with cursor := s.cursor + rowAdvance s.prof s.line }

/-- Everything the tick's body can do: nothing dispatched, an overlap, or a row dispatched. -/
theorem State.runTick_cases (s : State) :
    (isActive s.prof s.line = false ∧ s.runTick = s.enterTick.finishTick s.line) ∨
    (isActive s.prof s.line = true ∧ dmaOutstanding s = true ∧ s.runTick = s.enterTick.raise .dmaOverlap) ∨
    (isActive s.prof s.line = true ∧ dmaOutstanding s = false ∧ s.runTick = s.dispatchRow.finishTick s.line) := by
  unfold State.runTick
  dsimp only
  split
  · next ha =>
    split
    · next ho => exact .inr (.inl ⟨ha, ho, rfl⟩)
    · next ho => exact .inr (.inr ⟨ha, by simpa using ho, rfl⟩)
  · next ha => exact .inl ⟨by simpa using ha, rfl⟩

/-- Everything steps 2 to 5 of the tick can do: a hook called, or the line advanced. -/
theorem State.finishTick_cases (s : State) (c : Nat) :
    (c = 4 ∧ s.hookEnd ≠ 0 ∧
      s.finishTick c = ({ s with dutyNext := tickDuty c } : State).callHook .fin s.hookEnd c) ∨
    (¬ (c = 4 ∧ s.hookEnd ≠ 0) ∧ c = lastLine s.prof ∧ s.hookStart ≠ 0 ∧
      s.finishTick c = ({ s with dutyNext := tickDuty c } : State).callHook .start s.hookStart c) ∨
    (¬ (c = 4 ∧ s.hookEnd ≠ 0) ∧ ¬ (c = lastLine s.prof ∧ s.hookStart ≠ 0) ∧
      s.finishTick c = ({ s with dutyNext := tickDuty c } : State).lineAdvance) := by
  unfold State.finishTick
  dsimp only
  split
  · next h => exact .inl ⟨h.1, h.2, rfl⟩
  · next h =>
    split
    · next h' => exact .inr (.inl ⟨h, h'.1, h'.2, rfl⟩)
    · next h' => exact .inr (.inr ⟨h, h', rfl⟩)

/-- Everything HOOKRET can do. -/
theorem execHookret_next {s t : State} (h : execHookret s = .next t) :
    s.fault = none ∧
      ((hookretEnabled s = false ∧ t = s) ∨ (hookretEnabled s = true ∧ t = s.returnFromHook)) := by
  obtain ⟨hf, h⟩ := State.unlessFaulted_next.1 h
  refine ⟨hf, ?_⟩
  split at h
  · next he => cases h; exact .inr ⟨he, rfl⟩
  · next he => cases h; exact .inl ⟨by simpa using he, rfl⟩

/-- Everything DMABYTE can do. -/
theorem execDmabyte_next {s t : State} (h : execDmabyte s = .next t) :
    s.fault = none ∧
      (((s.active = false ∨ s.dma = .idle) ∧ t = s) ∨
       (s.active = true ∧ ∃ off n i b, s.dma = .busy off n i ∧ s.readByte (off + i) = some b ∧
          t = s.shiftByte off n i b)) := by
  obtain ⟨hf, h⟩ := State.unlessFaulted_next.1 h
  refine ⟨hf, ?_⟩
  split at h
  · next ha =>
    split at h
    · next hd => cases h; exact .inl ⟨.inr hd, rfl⟩
    · next off n i hd =>
      split at h
      · cases h
      · next b hb => cases h; exact .inr ⟨ha, off, n, i, b, hd, hb, rfl⟩
  · next ha => cases h; exact .inl ⟨.inl (by simpa using ha), rfl⟩

/-- Everything the shift of one byte can do: the transfer goes on, or it ends and requests its completion. -/
theorem State.shiftByte_cases (s : State) (off n i : Nat) (b : Byte) :
    (i + 1 < n ∧ s.shiftByte off n i b = { s.record (.pixByte (off + i) b) with dma := .busy off n (i + 1) }) ∨
    (n ≤ i + 1 ∧ s.shiftByte off n i b =
      { (s.record (.pixByte (off + i) b)).record (.rowEnd off) with
        dma := .idle, donePending := true, ser := .residual }) := by
  unfold State.shiftByte
  dsimp only
  split
  · next h => exact .inl ⟨h, rfl⟩
  · next h => exact .inr ⟨by omega, rfl⟩

/-- Everything DMADONE can do. -/
theorem execDmadone_next {s t : State} (h : execDmadone s = .next t) :
    s.fault = none ∧
      ((dmadoneEnabled s = false ∧ t = s) ∨
       (dmadoneEnabled s = true ∧
          t = ({ s with ser := .idle, donePending := false } : State).record .idleForced)) := by
  obtain ⟨hf, h⟩ := State.unlessFaulted_next.1 h
  refine ⟨hf, ?_⟩
  split at h
  · next he => cases h; exact .inr ⟨he, rfl⟩
  · next he => cases h; exact .inl ⟨by simpa using he, rfl⟩

/-- Everything a step can do: with the next agent of the schedule taken, it runs one fetched instruction, raises
ILLEGAL_COMMAND for a word that is no command, or changes nothing. -/
theorem step_next {s t : State} (h : step s = .next t) :
    s.fault = none ∧ s.params.wf = true ∧
      ((∃ i, fetch s.takeAgent.1 s.takeAgent.2 = .run i ∧ exec i s.takeAgent.2 = .next t) ∨
       (fetch s.takeAgent.1 s.takeAgent.2 = .illegal ∧ t = s.takeAgent.2.raise .illegalCommand) ∨
       (fetch s.takeAgent.1 s.takeAgent.2 = .hold ∧ t = s.takeAgent.2)) := by
  unfold step at h
  split at h
  · cases h
  · next hf =>
    split at h
    · next hw =>
      refine ⟨hf, hw, ?_⟩
      split at h
      · next i hi => exact .inl ⟨i, hi, h⟩
      · next hi => cases h; exact .inr (.inl ⟨hi, rfl⟩)
      · next hi => cases h; exact .inr (.inr ⟨hi, rfl⟩)
    · cases h

/-- A step of the agent at the head of the schedule, by what it fetches. -/
theorem step_of_fetch {s : State} {a : Agent} {rest : List Agent} (hf : s.fault = none) (hw : s.params.wf = true)
    (hs : s.sched = a :: rest) :
    step s =
      match fetch a { s with sched := rest } with
      | .run i => exec i { s with sched := rest }
      | .illegal => .next (({ s with sched := rest } : State).raise .illegalCommand)
      | .hold => .next { s with sched := rest } := by
  unfold step
  simp only [hf, hw, State.takeAgent, hs, if_true]
  rfl

/-- What the main context fetches while no tick runs. -/
theorem fetch_host {s : State} (h : s.tickPhase = .idle) :
    fetch .host s = fetchCommand s.mainOp s.params.mainProgram s.hpc := by
  simp only [fetch, agentEvent, h]

/-- What a hook program fetches. -/
theorem fetch_hook {s : State} {k : HookKind} {hd : Half} {pc : Nat} (h : s.tickPhase = .hook k hd pc) :
    fetch .hook s = fetchCommand s.hookOp (s.hookProgram hd) pc := by
  simp only [fetch, agentEvent, h]

/-- A command in progress goes on while its context's pointer is inside the program. -/
theorem fetchCommand_progress {op : MultiOp} {program : List Word} {pc : Nat} (h : pc < program.length) :
    fetchCommand (some op) program pc = .run op.instr := by
  simp only [fetchCommand, List.getElem?_eq_getElem h]

/-- At the end of its program a context has nothing to run. -/
theorem fetchCommand_end {op : Option MultiOp} {program : List Word} {pc : Nat} (h : program.length ≤ pc) :
    fetchCommand op program pc = .hold := by
  simp only [fetchCommand, List.getElem?_eq_none h]

end Sys2Proof.Machine
end

