-- ==== Sys2Proof/Laws/Frame.lean ====
section
/-! SUPPORT. What the commands that run while the engine works leave alone: one lemma for the framebuffer, hook,
register and poll commands together. -/

namespace Sys2Proof.Machine

/-- An event that a command other than BEGIN and END records: a read, a framebuffer write, or a fault that is not an
overlap. -/
def Event.isCommand : Event → Prop
  | .read _ _ | .fbWrite _ _ => True
  | .faulted c => c ≠ .dmaOverlap
  | .pulse _ _ | .deadlineMiss _ | .lostTick _ | .tick _ | .hookCall _ _ _ | .hookRet _ | .rowStart _ _ | .pixByte _ _
  | .rowEnd _ | .idleForced | .begun _ | .ended => False

/-- The engine's own fields are the same in both states, and a suspended tick stays in the same hook. -/
structure SameEngine (s t : State) : Prop where
  active : t.active = s.active
  profId : t.profId = s.profId
  prof : t.prof = s.prof
  line : t.line = s.line
  cursor : t.cursor = s.cursor
  dutyNext : t.dutyNext = s.dutyNext
  dutyCur : t.dutyCur = s.dutyCur
  timerPhase : t.timerPhase = s.timerPhase
  tickPending : t.tickPending = s.tickPending
  dma : t.dma = s.dma
  donePending : t.donePending = s.donePending
  ser : t.ser = s.ser
  fbBase : t.fbBase = s.fbBase
  params : t.params = s.params
  sched : t.sched = s.sched
  idle : t.tickPhase = .idle ↔ s.tickPhase = .idle

theorem SameEngine.refl (s : State) : SameEngine s s := by constructor <;> rfl

theorem SameEngine.trans {s t u : State} (h : SameEngine s t) (k : SameEngine t u) : SameEngine s u := by
  constructor
  case idle => exact k.idle.trans h.idle
  all_goals
    first
    | exact k.active.trans h.active | exact k.profId.trans h.profId | exact k.prof.trans h.prof
    | exact k.line.trans h.line | exact k.cursor.trans h.cursor | exact k.dutyNext.trans h.dutyNext
    | exact k.dutyCur.trans h.dutyCur | exact k.timerPhase.trans h.timerPhase
    | exact k.tickPending.trans h.tickPending | exact k.dma.trans h.dma | exact k.donePending.trans h.donePending
    | exact k.ser.trans h.ser | exact k.fbBase.trans h.fbBase | exact k.params.trans h.params
    | exact k.sched.trans h.sched

theorem SameEngine.record (s : State) (e : Event) : SameEngine s (s.record e) := by constructor <;> rfl

theorem SameEngine.raise (s : State) (c : Fault) : SameEngine s (s.raise c) := by constructor <;> rfl

theorem SameEngine.polled (s : State) (b : Bool) : SameEngine s { s with polled := b } := by constructor <;> rfl

theorem SameEngine.fb (s : State) (m : Option Memory) : SameEngine s { s with fb := m } := by constructor <;> rfl

theorem SameEngine.draw (s : State) : SameEngine s s.drawNat.2 := by constructor <;> simp

theorem SameEngine.hookSlot (s : State) (k : HookKind) (h : Half) : SameEngine s (s.setHookSlot k h) := by
  constructor <;> simp

theorem SameEngine.retire (s : State) : SameEngine s s.retire := by
  cases h : s.tickPhase with
  | idle => rw [State.retire_main h]; constructor <;> rfl
  | hook k hd pc => rw [State.retire_hook h]; constructor <;> first | rfl | simp [h]

theorem SameEngine.keepOp (s : State) (op : MultiOp) : SameEngine s (s.keepOp op) := by
  unfold State.keepOp
  split <;> constructor <;> rfl

/-- What a command other than BEGIN and END leaves: the engine, and a history with only command events added. It
either completes or goes on, with no fault, or it raises one. -/
structure CommandFrame (s t : State) : Prop where
  engine : SameEngine s t
  hist : ∃ l, t.hist = s.hist ++ l ∧ (∀ e ∈ l, e.isCommand) ∧
    ((t.fault = s.fault ∧ ∀ c, Event.faulted c ∉ l) ∨ ∃ c, t.fault = some c ∧ l = [.faulted c])

theorem CommandFrame.raise (s : State) {c : Fault} (hc : c ≠ .dmaOverlap) : CommandFrame s (s.raise c) :=
  ⟨.raise s c, [.faulted c], rfl, by simpa [Event.isCommand] using hc, .inr ⟨c, rfl, rfl⟩⟩

theorem clearStep_frame {left : List Nat} {s t : State} (h : clearStep left s = .next t) : CommandFrame s t := by
  obtain ⟨r, m, -, -, -, -, ⟨-, rfl⟩ | ⟨-, rfl⟩⟩ := clearStep_next h
  · refine ⟨((((SameEngine.draw s).trans (.fb _ _)).trans (.record _ _)).trans (.retire _)), [.fbWrite r 0], ?_, ?_, ?_⟩
    · simp [State.retire_hist]
    · simp [Event.isCommand]
    · exact .inl ⟨by simp [State.retire_fault], by simp⟩
  · refine ⟨((((SameEngine.draw s).trans (.fb _ _)).trans (.record _ _)).trans (.keepOp _ _)), [.fbWrite r 0], ?_, ?_,
      ?_⟩
    · simp [State.keepOp_hist]
    · simp [Event.isCommand]
    · exact .inl ⟨by simp [State.keepOp_fault], by simp⟩

theorem pollAttempt_frame {e : Bool} {r : Reg} {v : Half} {s t : State} (h : pollAttempt e r v s = .next t) :
    CommandFrame s t := by
  obtain ⟨-, rfl⟩ | ⟨-, -, rfl⟩ | ⟨-, -, -, rfl⟩ | ⟨-, -, -, rfl⟩ := pollAttempt_next h
  · exact .raise s (by decide)
  · exact .raise s (by decide)
  · refine ⟨((SameEngine.polled s true).trans (.record _ _)).trans (.retire _), [.read (.reg r) (regValue s r)], ?_, ?_,
      ?_⟩
    · simp [State.retire_hist]
    · simp [Event.isCommand]
    · exact .inl ⟨by simp [State.retire_fault], by simp⟩
  · exact ⟨(SameEngine.polled s true).trans (.keepOp _ _), [], by simp [State.keepOp_hist], by simp,
      .inl ⟨by simp [State.keepOp_fault], by simp⟩⟩

theorem waitAttempt_frame {rem fl : Nat} {ph : WaitPhase} {s t : State} (h : waitAttempt rem ph fl s = .next t) :
    CommandFrame s t := by
  obtain ⟨rem', ph', -, -, rfl⟩ | ⟨-, -, -, rfl⟩ := waitAttempt_next h
  · exact ⟨(SameEngine.polled s true).trans (.keepOp _ _), [], by simp [State.keepOp_hist], by simp,
      .inl ⟨by simp [State.keepOp_fault], by simp⟩⟩
  · refine ⟨((SameEngine.polled s true).trans (.record _ _)).trans (.retire _),
      [.read (.reg .line) (BitVec.ofNat 32 s.line)], ?_, ?_, ?_⟩
    · simp [State.retire_hist]
    · simp [Event.isCommand]
    · exact .inl ⟨by simp [State.retire_fault], by simp⟩

/-- The frame of every command other than BEGIN and END. -/
theorem exec_command_frame {i : Instr} {s t : State} (he : i.isEvent = false) (hb : i.mnemonic ≠ .BEGIN)
    (hn : i.mnemonic ≠ .END) (h : exec i s = .next t) : CommandFrame s t := by
  cases i <;> simp only [Instr.isEvent, Bool.true_eq_false] at he <;>
    simp only [Instr.mnemonic, ne_eq, not_true_eq_false] at hb hn <;> simp only [exec] at h
  case cmdClear =>
    obtain ⟨-, ⟨l, -, hc⟩ | ⟨-, -, rfl⟩ | ⟨-, -, hc⟩⟩ := execClear_next h
    · exact clearStep_frame hc
    · exact .raise s (by decide)
    · exact clearStep_frame hc
  case cmdFbrd off =>
    obtain ⟨-, ⟨-, rfl⟩ | ⟨-, -, rfl⟩ | ⟨-, v, -, rfl⟩⟩ := execFbrd_next h
    · exact .raise s (by decide)
    · exact .raise s (by decide)
    · refine ⟨(SameEngine.record s _).trans (.retire _), [.read (.fb off.toNat) (v.setWidth 32)], ?_, ?_, ?_⟩
      · simp [State.retire_hist]
      · simp [Event.isCommand]
      · exact .inl ⟨by simp [State.retire_fault], by simp⟩
  case cmdFbwr data off =>
    obtain ⟨-, ⟨-, rfl⟩ | ⟨-, -, rfl⟩ | ⟨-, m, -, -, rfl⟩⟩ := execFbwr_next h
    · exact .raise s (by decide)
    · exact .raise s (by decide)
    · refine ⟨((SameEngine.fb s _).trans (.record _ _)).trans (.retire _), [.fbWrite off.toNat data], ?_, ?_, ?_⟩
      · simp [State.retire_hist]
      · simp [Event.isCommand]
      · exact .inl ⟨by simp [State.retire_fault], by simp⟩
  case cmdSethook k hd =>
    obtain ⟨-, rfl⟩ := execSethook_next h
    exact ⟨(SameEngine.hookSlot s k hd).trans (.retire _), [], by simp [State.retire_hist], by simp,
      .inl ⟨by simp [State.retire_fault], by simp⟩⟩
  case cmdRdreg r =>
    obtain ⟨-, ⟨-, rfl⟩ | ⟨-, rfl⟩⟩ := execRdreg_next h
    · refine ⟨(SameEngine.record s _).trans (.retire _), [.read (.reg r) (regValue s r)], ?_, ?_, ?_⟩
      · simp [State.retire_hist]
      · simp [Event.isCommand]
      · exact .inl ⟨by simp [State.retire_fault], by simp⟩
    · exact .raise s (by decide)
  case cmdPolleq r v => exact pollAttempt_frame (State.unlessFaulted_next.1 h).2
  case cmdPollne r v => exact pollAttempt_frame (State.unlessFaulted_next.1 h).2
  case cmdWaitf n =>
    obtain ⟨-, ⟨-, rfl⟩ | ⟨-, rem, ph, fl, -, hw⟩ | ⟨-, -, ⟨-, rfl⟩ | ⟨-, -, rfl⟩ | ⟨-, -, hw⟩⟩⟩ := execWaitf_next h
    · exact .raise s (by decide)
    · exact waitAttempt_frame hw
    · exact .raise s (by decide)
    · exact ⟨.retire s, [], by simp [State.retire_hist], by simp, .inl ⟨by simp [State.retire_fault], by simp⟩⟩
    · exact waitAttempt_frame hw

end Sys2Proof.Machine
end

