-- ==== Sys2Proof/Laws/Invariant.lean ====
section
/-! SUPPORT. How the shared operations keep the run invariant, and the arithmetic of the cursor along the lines (R75,
R77, R78). -/

namespace Sys2Proof.Machine

open Sys2Proof.Safety

/-! ### Lines and cursor -/

/-- What the configuration's check says of a profile, as linear facts (R11). -/
structure ProfileFacts (p : Profile) : Prop where
  rowBytes : 1 ≤ p.rowByteWidth
  height : 1 ≤ p.pixelHeight
  lines : p.scanLinesUsed = if p.lineDoubled then 2 * p.pixelHeight else p.pixelHeight
  linesPos : 1 ≤ p.scanLinesUsed
  linesLe : p.scanLinesUsed ≤ 235
  size : p.rowByteWidth * p.pixelHeight ≤ 65536

theorem Profile.facts {p : Profile} (h : p.wf = true) : ProfileFacts p := by
  simp only [Profile.wf, Bool.and_eq_true, decide_eq_true_eq] at h
  obtain ⟨⟨⟨⟨⟨⟨⟨-, h2⟩, h3⟩, h4⟩, h5⟩, h6⟩, h7⟩, h8⟩ := h
  exact ⟨by omega, h4, h5, h6, by simpa [Config.ntscLine, Config.ntscVTop] using h7, h8⟩

/-- The configuration's check is the conditions of R10 and R11, written out. -/
theorem params_wf_iff (c : Params) : c.wf = true ↔ ConfigurationAdmitted c := by
  have hp : ∀ p : Profile, p.wf = true ↔ ProfileAdmitted p := by
    intro p
    simp only [Profile.wf, ProfileAdmitted, Bool.and_eq_true, decide_eq_true_eq, Config.ntscLine, Config.ntscVTop]
    cases p.lineDoubled <;> simp <;> omega
  simp [Params.wf, ConfigurationAdmitted, hp, and_assoc]

theorem isActive_iff {p : Profile} (c : Nat) : isActive p c = true ↔ 30 ≤ c ∧ c < 30 + p.scanLinesUsed := by
  unfold isActive lastLine
  simp only [Config.ntscVTop, Bool.and_eq_true, decide_eq_true_eq]
  omega

theorem lineAdvance_eq (s : State) :
    s.lineAdvance = { s with
      polled := false
      line := if 264 ≤ s.line then 1 else s.line + 1
      cursor := if 264 ≤ s.line then 0 else s.cursor } := by
  unfold State.lineAdvance
  by_cases h : 264 ≤ s.line
  · have h' : 264 < s.line + 1 := by omega
    simp [h, h', Config.ntscLine]
  · have h' : ¬ 264 < s.line + 1 := by omega
    simp [h, h', Config.ntscLine]

/-- Up to the first active line the cursor is 0 (R77). -/
theorem cursorAt_low {p : Profile} {l : Nat} (h : l ≤ 30) : cursorAt p l = 0 := by simp [cursorAt, h]

/-- Along the active lines the cursor counts rows (R77). -/
theorem cursorAt_mid {p : Profile} {l : Nat} (h : 30 ≤ l) (h2 : l ≤ 30 + p.scanLinesUsed) :
    cursorAt p l = if p.lineDoubled then (l - 30) / 2 * p.rowByteWidth else (l - 30) * p.rowByteWidth := by
  unfold cursorAt
  by_cases c : l ≤ 30
  · have hl : l = 30 := by omega
    subst hl
    simp
  · rw [if_neg c, if_pos h2]

/-- After the last active line the cursor is the framebuffer's size (R77). -/
theorem cursorAt_high {p : Profile} (hw : ProfileFacts p) {l : Nat} (h : 30 + p.scanLinesUsed ≤ l) :
    cursorAt p l = fbSize p := by
  obtain ⟨-, -, r3, r4, -, -⟩ := hw
  by_cases c : l = 30 + p.scanLinesUsed
  · rw [cursorAt_mid (by omega) (by omega), c]
    unfold fbSize
    cases hd : p.lineDoubled <;> simp only [hd, if_true, if_false, Bool.false_eq_true] at *
    · rw [show 30 + p.scanLinesUsed - 30 = p.pixelHeight by omega, Nat.mul_comm]
    · rw [show (30 + p.scanLinesUsed - 30) / 2 = p.pixelHeight by omega, Nat.mul_comm]
  · unfold cursorAt
    rw [if_neg (by omega), if_neg (by omega)]

/-- One active tick takes the cursor from its line's value to the next line's (R75, R77). -/
theorem rowAdvance_cursorAt {p : Profile} {l : Nat} (h : 30 ≤ l) (h2 : l < 30 + p.scanLinesUsed) :
    cursorAt p l + rowAdvance p l = cursorAt p (l + 1) := by
  rw [cursorAt_mid h (by omega), cursorAt_mid (by omega) (by omega)]
  unfold rowAdvance
  simp only [Config.ntscVTop]
  cases hd : p.lineDoubled <;> simp only [if_true, if_false, Bool.false_eq_true]
  · rw [show l + 1 - 30 = (l - 30) + 1 by omega, Nat.add_mul, Nat.one_mul]
  · by_cases k : (l - 30) % 2 = 1
    · rw [if_pos k, show (l + 1 - 30) / 2 = (l - 30) / 2 + 1 by omega, Nat.add_mul, Nat.one_mul]
    · rw [if_neg k, show (l + 1 - 30) / 2 = (l - 30) / 2 by omega, Nat.add_zero]

/-- At an active line the cursor is at a row's start and the row lies inside the framebuffer (R77). -/
theorem cursorAt_row {p : Profile} (hw : ProfileFacts p) {l : Nat} (h1 : 30 ≤ l) (h2 : l < 30 + p.scanLinesUsed) :
    cursorAt p l % p.rowByteWidth = 0 ∧ cursorAt p l + p.rowByteWidth ≤ fbSize p := by
  obtain ⟨-, -, r3, -, -, -⟩ := hw
  rw [cursorAt_mid h1 (by omega)]
  unfold fbSize
  cases hd : p.lineDoubled <;> simp only [hd, if_true, if_false, Bool.false_eq_true] at *
  · refine ⟨by simp, ?_⟩
    have : l - 30 + 1 ≤ p.pixelHeight := by omega
    nlinarith
  · refine ⟨by simp, ?_⟩
    have : (l - 30) / 2 + 1 ≤ p.pixelHeight := by omega
    nlinarith

end Sys2Proof.Machine

/-! ### The run invariant -/

namespace Sys2Proof.Safety

open Sys2Proof.Machine

/-- The invariant reads fourteen fields: states that agree on them meet it together. -/
theorem RunInv.congr {s t : State} (h : RunInv s) (h1 : t.params = s.params) (h2 : t.active = s.active)
    (h3 : t.profId = s.profId) (h4 : t.prof = s.prof) (h5 : t.line = s.line) (h6 : t.cursor = s.cursor)
    (h7 : t.tickPending = s.tickPending) (h8 : t.tickPhase = s.tickPhase) (h9 : t.dma = s.dma)
    (h10 : t.donePending = s.donePending) (h11 : t.ser = s.ser) (h12 : t.fb = s.fb) (h13 : t.mainOp = s.mainOp)
    (h14 : t.hookOp = s.hookOp) : RunInv t := by
  obtain ⟨⟨a1, a2, a3, a4, a5, a6, a7, a8, a9⟩, b, ⟨c1, c2, c3, c4, c5⟩⟩ := h
  refine ⟨⟨?_, ?_, ?_, ?_, ?_, ?_, ?_, ?_, ?_⟩, ?_, ⟨?_, ?_, ?_, ?_, ?_⟩⟩ <;>
    simp only [FbOk, HookOk, CursorInv, ClearOk, State.hookProgram, h1, h2, h3, h4, h5, h6, h7, h8, h9, h10, h11, h12,
      h13, h14] <;>
    assumption

theorem RunInv.record {s : State} (h : RunInv s) (e : Event) : RunInv (s.record e) :=
  h.congr rfl rfl rfl rfl rfl rfl rfl rfl rfl rfl rfl rfl rfl rfl

theorem RunInv.raise {s : State} (h : RunInv s) (c : Fault) : RunInv (s.raise c) :=
  h.congr rfl rfl rfl rfl rfl rfl rfl rfl rfl rfl rfl rfl rfl rfl

theorem RunInv.polled {s : State} (h : RunInv s) (p : Bool) : RunInv { s with polled := p } :=
  h.congr rfl rfl rfl rfl rfl rfl rfl rfl rfl rfl rfl rfl rfl rfl

theorem RunInv.draw {s : State} (h : RunInv s) : RunInv s.drawNat.2 := by apply h.congr <;> simp

theorem RunInv.take {s : State} (h : RunInv s) : RunInv s.takeAgent.2 := by apply h.congr <;> simp

theorem RunInv.hookSlot {s : State} (h : RunInv s) (k : HookKind) (hd : Half) : RunInv (s.setHookSlot k hd) := by
  apply h.congr <;> simp

/-- The active profile is one of the table's, so it is well formed. -/
theorem RunInv.profileFacts {s : State} (h : RunInv s) (ha : s.active = true) : ProfileFacts s.prof := by
  have h1 := h.engine.profile ha
  have h2 := h.engine.config
  simp only [Params.wf, Bool.and_eq_true, List.all_eq_true] at h2
  exact Profile.facts (h2.2 _ (List.mem_of_getElem? h1))

/-- Retiring a command keeps the invariant, where a hook's program has the command that retires. -/
theorem RunInv.retire {s : State} (h : RunInv s)
    (hp : ∀ k hd pc, s.tickPhase = .hook k hd pc → pc < (s.hookProgram hd).length) : RunInv s.retire := by
  obtain ⟨⟨a1, a2, a3, a4, a5, a6, a7, a8, a9⟩, b, ⟨c1, c2, c3, c4, c5⟩⟩ := h
  cases ht : s.tickPhase with
  | idle =>
    rw [State.retire_main ht]
    refine ⟨⟨a1, a2, a3, a4, a5, a6, a7, a8, a9⟩, b, ⟨?_, ?_, ?_, c4, c5⟩⟩ <;> intros <;> contradiction
  | hook k hd pc =>
    rw [State.retire_hook ht]
    have h9 := a9 k hd pc ht
    refine ⟨⟨a1, a2, a3, a4, ?_, a6, a7, a8, ?_⟩, ?_, ⟨c1, c2, c3, ?_, ?_⟩⟩
    · intro ha
      have hi := (a5 ha).2.2.2.2.1
      rw [ht] at hi
      cases hi
    · intro k' h' pc' he
      simp only [TickPhase.hook.injEq] at he
      obtain ⟨rfl, rfl, rfl⟩ := he
      exact ⟨h9.1, hp _ _ _ ht, h9.2.2⟩
    · intro ha
      have hc := b ha
      rw [ht] at hc
      cases k <;> exact hc
    · intros
      contradiction
    · intros
      contradiction

/-- Keeping a main command's progress keeps the invariant, where the progress is one that its command makes. -/
theorem RunInv.keepMain {s : State} (h : RunInv s) (ht : s.inHook = false) (op : MultiOp)
    (hc : ∀ l, op = .clear l → ClearOk s l)
    (hw : ∀ rem phase fl, op = .waitf rem phase fl →
      s.active = true ∧ 1 ≤ rem ∧ rem < 65536 ∧ fl = 30 + s.prof.scanLinesUsed)
    (hp : ∀ e r v, op = .poll e r v → s.active = true ∨ readableInactive r = true) : RunInv (s.keepOp op) := by
  obtain ⟨a, b, ⟨-, -, -, c4, c5⟩⟩ := h
  have hk : s.keepOp op = { s with mainOp := some op } := by simp [State.keepOp, ht]
  rw [hk]
  refine ⟨⟨a.1, a.2, a.3, a.4, a.5, a.6, a.7, a.8, a.9⟩, b, ⟨?_, ?_, ?_, c4, c5⟩⟩
  · intro r hr
    exact hc r (by simpa using hr)
  · intro r p f hr
    exact hw r p f (by simpa using hr)
  · intro e r v hr
    exact hp e r v (by simpa using hr)

/-- Keeping a CLEAR's progress keeps the invariant in either context. -/
theorem RunInv.keepClear {s : State} (h : RunInv s) (l : List Nat) (hc : ClearOk s l) :
    RunInv (s.keepOp (.clear l)) := by
  cases ht : s.inHook with
  | false =>
    exact h.keepMain ht _ (by rintro _ ⟨⟩; exact hc) (by rintro _ _ _ ⟨⟩) (by rintro _ _ _ ⟨⟩)
  | true =>
    obtain ⟨a, b, ⟨c1, c2, c3, -, -⟩⟩ := h
    have hk : s.keepOp (.clear l) = { s with hookOp := some (.clear l) } := by simp [State.keepOp, ht]
    rw [hk]
    refine ⟨⟨a.1, a.2, a.3, a.4, a.5, a.6, a.7, a.8, a.9⟩, b, ⟨c1, c2, c3, ?_, ?_⟩⟩
    · rintro op ⟨⟩
      exact ⟨l, rfl, hc⟩
    · intro hi
      rw [← State.inHook_eq_false] at hi
      change s.inHook = false at hi
      rw [ht] at hi
      cases hi

/-- Writing a byte of the framebuffer keeps the invariant. -/
theorem RunInv.write {s : State} {m : Memory} {r : Nat} {v : Byte} (h : RunInv s) (hm : s.fb = some m)
    (hr : r < fbSize s.prof) : RunInv { s with fb := some (m.write r v) } := by
  obtain ⟨⟨a1, a2, a3, a4, a5, a6, a7, a8, a9⟩, b, ⟨c1, c2, c3, c4, c5⟩⟩ := h
  refine ⟨⟨a1, a2, a3, ?_, ?_, a6, a7, a8, a9⟩, b, ⟨c1, c2, c3, c4, c5⟩⟩
  · intro ha
    obtain ⟨m', hm', hw, hlt⟩ := a4 ha
    rw [hm] at hm'
    cases hm'
    exact ⟨_, rfl, Memory.wf_write _ _ hw, Memory.mem_write_lt _ hr hlt⟩
  · intro ha
    have hn := (a5 ha).1
    rw [hm] at hn
    cases hn

/-- A command that was fetched for a hook stands in the hook's program. -/
theorem fetch_hook_lt {a : Agent} {s : State} {i : Instr} (h : fetch a s = .run i) (hi : i.isEvent = false) :
    ∀ k hd pc, s.tickPhase = .hook k hd pc → pc < (s.hookProgram hd).length := by
  intro k hd pc ht
  unfold fetch at h
  split at h
  · next j hj =>
    cases h
    cases a <;> simp [agentEvent] at hj <;> subst hj <;> simp [Instr.isEvent] at hi
  · split at h
    · next h2 _ =>
      rw [ht] at h2
      cases h2
    · next h2 _ =>
      rw [ht] at h2
      cases h2
      unfold fetchCommand at h
      split at h
      · cases h
      · next w hw => exact (List.getElem?_eq_some_iff.1 hw).1
    · cases h

end Sys2Proof.Safety
end

