-- ==== Sys2Proof/Laws/PerInstr.lean ====
section
/-! SUPPORT. The family EncodeFormat, one lemma per instruction: its word matches its own row of the opcode table, so
every field that the row fixes holds the row's value (R62, R63, R65). -/

namespace Sys2Proof.Laws.EncodeFormat

/-- An instruction's word has its row's pattern under its row's mask (R65). -/
def Statement (i : Instr) : Prop := encode i &&& i.mnemonic.mask = i.mnemonic.pattern

/-- A word of three fields matches a row exactly where each masked field is the row's. -/
theorem of_fields {m : Mnemonic} {op a : Byte} {b : Half} (h1 : op &&& opField m.mask = opField m.pattern)
    (h2 : a &&& aField m.mask = aField m.pattern) (h3 : b &&& bField m.mask = bField m.pattern) :
    mkWord op a b &&& m.mask = m.pattern := by
  rw [← mkWord_fields m.mask, ← mkWord_fields m.pattern, mkWord_and, mkWord_inj]
  exact ⟨h1, h2, h3⟩

theorem cmdBegin (mode : Byte) : Statement (.cmdBegin mode) :=
  of_fields (m := .BEGIN) (by decide) (by simp [aField, Mnemonic.mask, Mnemonic.pattern]) (by decide)

theorem cmdEnd : Statement .cmdEnd := of_fields (m := .END) (by decide) (by decide) (by decide)

theorem cmdClear : Statement .cmdClear := of_fields (m := .CLEAR) (by decide) (by decide) (by decide)

theorem cmdFbrd (off : Half) : Statement (.cmdFbrd off) :=
  of_fields (m := .FBRD) (by decide) (by decide) (by simp [bField, Mnemonic.mask, Mnemonic.pattern])

theorem cmdFbwr (data : Byte) (off : Half) : Statement (.cmdFbwr data off) :=
  of_fields (m := .FBWR) (by decide) (by simp [aField, Mnemonic.mask, Mnemonic.pattern])
    (by simp [bField, Mnemonic.mask, Mnemonic.pattern])

theorem cmdSethook (kind : HookKind) (handle : Half) : Statement (.cmdSethook kind handle) :=
  of_fields (m := .SETHOOK) (by decide) (by cases kind <;> decide)
    (by simp [bField, Mnemonic.mask, Mnemonic.pattern])

theorem cmdRdreg (reg : Reg) : Statement (.cmdRdreg reg) :=
  of_fields (m := .RDREG) (by decide) (by cases reg <;> decide) (by decide)

theorem cmdPolleq (reg : Reg) (value : Half) : Statement (.cmdPolleq reg value) :=
  of_fields (m := .POLLEQ) (by decide) (by cases reg <;> decide) (by simp [bField, Mnemonic.mask, Mnemonic.pattern])

theorem cmdPollne (reg : Reg) (value : Half) : Statement (.cmdPollne reg value) :=
  of_fields (m := .POLLNE) (by decide) (by cases reg <;> decide) (by simp [bField, Mnemonic.mask, Mnemonic.pattern])

theorem cmdWaitf (n : Half) : Statement (.cmdWaitf n) :=
  of_fields (m := .WAITF) (by decide) (by decide) (by simp [bField, Mnemonic.mask, Mnemonic.pattern])

theorem evBoundary : Statement .evBoundary := of_fields (m := .EV_BOUNDARY) (by decide) (by decide) (by decide)

theorem evCompare : Statement .evCompare := of_fields (m := .EV_COMPARE) (by decide) (by decide) (by decide)

theorem evTick : Statement .evTick := of_fields (m := .EV_TICK) (by decide) (by decide) (by decide)

theorem evHookret : Statement .evHookret := of_fields (m := .EV_HOOKRET) (by decide) (by decide) (by decide)

theorem evDmabyte : Statement .evDmabyte := of_fields (m := .EV_DMABYTE) (by decide) (by decide) (by decide)

theorem evDmadone : Statement .evDmadone := of_fields (m := .EV_DMADONE) (by decide) (by decide) (by decide)

end Sys2Proof.Laws.EncodeFormat
end

