-- ==== Sys2Proof/Laws/Video.lean ====
section
/-! SUPPORT. The line records of a history: which record a PULSE opens, and how its row and its stretches follow the
events after it. Proofs about R93 cite these and do not unfold the records. -/

namespace Sys2Proof.Machine

open Sys2Proof.Safety

/-- The record that a PULSE opens stands in the records behind those of the PULSE events before it. -/
theorem lineRecordsFrom_get (ser : Ser) (before after : List Event) (l : Nat) (d : Duty) :
    (lineRecordsFrom ser (before ++ .pulse l d :: after))[(pulseList before).length]? =
      some (lineRecord (before.foldl serAfter ser) l d after) := by
  induction before generalizing ser with
  | nil => rfl
  | cons e t ih => cases e <;> simp_all [lineRecordsFrom, pulseList, serAfter]

theorem lineRecordsFrom_labels (ser : Ser) (hist : List Event) :
    (lineRecordsFrom ser hist).map (fun r => (r.label, r.pulse)) = pulseList hist := by
  induction hist generalizing ser with
  | nil => rfl
  | cons e t ih => cases e <;> simp_all [lineRecordsFrom, pulseList, lineRecord]

/-- Events that show nothing add no stretch. -/
theorem stretches_unseen {a : List Event} (h : a.all unseen = true) (b : List Event) :
    stretches (a ++ b) = stretches b := by
  induction a with
  | nil => rfl
  | cons e t ih => cases e <;> simp_all [stretches, unseen]

/-- What follows a period adds no stretch and no row to it. -/
theorem periodOf_rest {after period : List Event} (h : PeriodOf after period) :
    ∃ rest, after = period ++ rest ∧ stretches rest = [] ∧ periodRow rest = none := by
  obtain ⟨-, h | ⟨l, d, later, h⟩⟩ := h
  · exact ⟨[], by simp [h], rfl, rfl⟩
  · exact ⟨_, h, rfl, rfl⟩

/-- Events without a PULSE or a ROW_START before it leave the row to what follows. -/
theorem periodRow_append {a : List Event} (hp : ∀ l d, Event.pulse l d ∉ a) (hr : ∀ l off, Event.rowStart l off ∉ a)
    (b : List Event) : periodRow (a ++ b) = periodRow b := by
  induction a with
  | nil => rfl
  | cons e t ih =>
    have := ih (fun l d h => hp l d (List.mem_cons_of_mem _ h)) fun l off h => hr l off (List.mem_cons_of_mem _ h)
    cases e
    case pulse l d => exact absurd (List.mem_cons_self ..) (hp l d)
    case rowStart l off => exact absurd (List.mem_cons_self ..) (hr l off)
    all_goals exact this

/-- A row's bytes are the PIXBYTE values up to what ends it; a PULSE and an IDLE_FORCED do not. -/
theorem rowBytes_append {c : List Event}
    (hc : ∀ e ∈ c, unseen e = true ∨ e = .idleForced ∨ ∃ l d, e = .pulse l d) (rest : List Event) :
    rowBytes (c ++ rest) = pixValues c ++ rowBytes rest := by
  induction c with
  | nil => rfl
  | cons e t ih =>
    have := ih fun e he => hc e (List.mem_cons_of_mem _ he)
    have := hc e (List.mem_cons_self ..)
    cases e <;> simp_all [rowBytes, pixValues, unseen]

/-- The bytes of a complete row among events that show nothing. -/
theorem rowBytes_rowEnd {c : List Event} (hc : c.all unseen = true) (off : Nat) (rest : List Event) :
    rowBytes (c ++ .rowEnd off :: rest) = pixValues c := by
  simp [rowBytes_append fun e he => .inl (List.all_eq_true.1 hc e he), rowBytes]

/-- END ends what the period shows. -/
theorem stretches_ended {period : List Event} (hp : ∀ l d, Event.pulse l d ∉ period) (he : Event.ended ∈ period)
    (rest : List Event) : ∃ some, stretches (period ++ rest) = some ++ [.off] := by
  induction period with
  | nil => simp at he
  | cons e t ih =>
    have hp' : ∀ l d, Event.pulse l d ∉ t := fun l d h => hp l d (List.mem_cons_of_mem _ h)
    cases e
    case pulse l d => exact absurd (List.mem_cons_self ..) (hp l d)
    case ended => exact ⟨[], rfl⟩
    case idleForced | rowStart | rowEnd | begun =>
      obtain ⟨x, hx⟩ := ih hp' (by simpa using he)
      exact ⟨_ :: x, congrArg (_ :: ·) hx⟩
    all_goals exact ih hp' (by simpa using he)

/-- The last stretch from a serial line `ser` on is black, the RESIDUAL draw or pixels, as the line is after the
events. -/
def StretchShows (ser : Ser) (seg : Segment) : Prop :=
  (ser = .idle → seg.levels = [.black]) ∧ (ser = .residual → seg.levels = [.black, .white]) ∧
    (ser = .shifting → ∀ x ∈ seg.levels, x = .black ∨ x = .white)

theorem byteLevels_black_or_white {b : Byte} {x : Level} (h : x ∈ byteLevels b) : x = .black ∨ x = .white := by
  obtain ⟨k, -, rfl⟩ := List.mem_map.1 h
  unfold pixelLevel
  split <;> simp

theorem stretchOf_shows (ser : Ser) : StretchShows ser (stretchOf ser) := by
  cases ser <;> simp [StretchShows, stretchOf, Segment.levels]

/-- The stretches of a running period end with one that shows what the serial line is after its events. -/
theorem stretches_last (first : Segment) (ser : Ser) (h : StretchShows ser first) {after : List Event}
    (hp : ∀ l d, Event.pulse l d ∉ after) (he : Event.ended ∉ after) :
    ∃ last, (first :: stretches after).getLast? = some last ∧ StretchShows (after.foldl serAfter ser) last := by
  induction after generalizing first ser with
  | nil => exact ⟨first, rfl, h⟩
  | cons e t ih =>
    have hp' : ∀ l d, Event.pulse l d ∉ t := fun l d hm => hp l d (List.mem_cons_of_mem _ hm)
    have he' : Event.ended ∉ t := fun hm => he (List.mem_cons_of_mem _ hm)
    have drop : ∀ seg ser', StretchShows ser' seg → ∃ last, (first :: seg :: stretches t).getLast? = some last ∧
        StretchShows (t.foldl serAfter ser') last := by
      intro seg ser' hs
      simpa [List.getLast?_cons_cons] using ih seg ser' hs hp' he'
    cases e
    case pulse l d => exact absurd (List.mem_cons_self ..) (hp l d)
    case ended => exact absurd (List.mem_cons_self ..) he
    case idleForced => exact drop .black .idle (by simp [StretchShows, Segment.levels])
    case rowEnd => exact drop .residual .residual (by simp [StretchShows, Segment.levels])
    case begun => exact drop .residual .residual (by simp [StretchShows, Segment.levels])
    case rowStart l off =>
      refine drop (.pixels _) .shifting ⟨nofun, nofun, fun _ x hx => ?_⟩
      obtain ⟨b, -, hb⟩ := List.mem_flatMap.1 hx
      exact byteLevels_black_or_white hb
    all_goals exact ih first ser h hp' he'

end Sys2Proof.Machine
end

