-- ==== Sys2Proof/Machine/Assembler.lean ====
section
/-! DEFINITION. The assembler syntax of command words (R68), the pseudo-instructions (R69), and the schedule syntax
(R70), over the characters of one line. -/

namespace Sys2Proof.Machine

/-- A character between operands: a space, a tab or the comma (R68; log 19). -/
def isSeparator (c : Char) : Bool := c == ' ' || c == '\t' || c == ','

/-- A finished token, if it has characters; they were collected last first. -/
def flushToken (cur : List Char) : List (List Char) := if cur.isEmpty then [] else [cur.reverse]

/-- The tokens of a line; a comment starts with `;` (R68). -/
def tokenize : List Char → List Char → List (List Char)
  | cur, [] => flushToken cur
  | cur, c :: t =>
    if c == ';' then flushToken cur
    else if isSeparator c then flushToken cur ++ tokenize [] t
    else tokenize (c :: cur) t

/-- The value of a digit below a base. -/
def digitValue (base : Nat) (c : Char) : Option Nat :=
  let n := c.toNat
  let v :=
    if 48 ≤ n ∧ n ≤ 57 then n - 48
    else if 97 ≤ n ∧ n ≤ 102 then n - 87
    else if 65 ≤ n ∧ n ≤ 70 then n - 55
    else 16
  if v < base then some v else none

/-- A number from its digits, most significant first. -/
def digitsFrom (base : Nat) : Nat → List Char → Option Nat
  | acc, [] => some acc
  | acc, c :: t =>
    match digitValue base c with
    | some v => digitsFrom base (acc * base + v) t
    | none => none

/-- A number, decimal or hexadecimal with the prefix `0x` (R68). -/
def parseNumber : List Char → Option Nat
  | [] => none
  | '0' :: 'x' :: d :: t => digitsFrom 16 0 (d :: t)
  | d :: t => digitsFrom 10 0 (d :: t)

/-- The name of a register (R37, R68). -/
def regName : Reg → String
  | .status => "STATUS"
  | .line => "LINE"
  | .cursor => "CURSOR"
  | .profile => "PROFILE"
  | .width => "WIDTH"
  | .height => "HEIGHT"
  | .fbsize => "FBSIZE"
  | .rowbytes => "ROWBYTES"
  | .scanlines => "SCANLINES"
  | .doubled => "DOUBLED"
  | .divisor => "DIVISOR"
  | .frameline => "FRAMELINE"
  | .lastactive => "LASTACTIVE"
  | .hookstart => "HOOKSTART"
  | .hookend => "HOOKEND"
  | .fbbase => "FBBASE"

/-- Every register, by number. -/
def allRegs : List Reg :=
  [ .status, .line, .cursor, .profile, .width, .height, .fbsize, .rowbytes, .scanlines, .doubled, .divisor,
    .frameline, .lastactive, .hookstart, .hookend, .fbbase ]

/-- An 8-bit operand; above 255 the assembler rejects it (R68). -/
def byteOperand (t : List Char) : Option Byte :=
  match parseNumber t with
  | some n => if n ≤ 255 then some (BitVec.ofNat 8 n) else none
  | none => none

/-- A 16-bit operand; above 65535 the assembler rejects it (R68). -/
def halfOperand (t : List Char) : Option Half :=
  match parseNumber t with
  | some n => if n ≤ 65535 then some (BitVec.ofNat 16 n) else none
  | none => none

/-- A register operand: a name, or a bare number 0..255 (R68). -/
def regOperand (t : List Char) : Option Byte :=
  match allRegs.find? (fun r => (regName r).toList == t) with
  | some r => some r.num
  | none => byteOperand t

/-- A hook kind, `START` or `END` (R68). -/
def kindOperand (t : List Char) : Option Byte :=
  if t == "START".toList then some 0 else if t == "END".toList then some 1 else none

/-- What a source line assembles to. -/
inductive AsmResult
  /-- The line holds no command. -/
  | blank
  /-- The command word. -/
  | word (w : Word)
  /-- The assembler rejects the line. -/
  | rejected
deriving DecidableEq, Repr

/-- A word, or a rejection where an operand was rejected. -/
def AsmResult.ofOption : Option Word → AsmResult
  | some w => .word w
  | none => .rejected

/-- The forms of R68 and R69 by their operands: what a mnemonic's operands are and the word they make. -/
inductive AsmForm
  | fixed (w : Word)
  | byteA (op : Byte)
  | halfB (op a : Byte)
  | offData
  | kindHandle
  | regOnly
  | regValue (op : Byte)

/-- The mnemonics and pseudo-instructions with their forms (R68, R69). -/
def asmForms : List (String × AsmForm) :=
  [ ("BEGIN", .byteA 0x01), ("END", .fixed (mkWord 0x02 0 0)), ("CLEAR", .fixed (mkWord 0x03 0 0)),
    ("FBRD", .halfB 0x04 0), ("FBWR", .offData), ("SETHOOK", .kindHandle), ("RDREG", .regOnly),
    ("POLLEQ", .regValue 0x08), ("POLLNE", .regValue 0x09), ("WAITF", .halfB 0x0A 0) ]
  ++ [ ("begin", .byteA 0x01), ("end", .fixed (mkWord 0x02 0 0)), ("clear", .fixed (mkWord 0x03 0 0)),
    ("getFramebuffer", .fixed (mkWord 0x07 Reg.fbbase.num 0)), ("width", .fixed (mkWord 0x07 Reg.width.num 0)),
    ("height", .fixed (mkWord 0x07 Reg.height.num 0)), ("framebufferSize", .fixed (mkWord 0x07 Reg.fbsize.num 0)),
    ("activeProfileId", .fixed (mkWord 0x07 Reg.profile.num 0)), ("delayFrames", .halfB 0x0A 0),
    ("setBlankStartHook", .halfB 0x06 0), ("setBlankEndHook", .halfB 0x06 1),
    ("clearBlankStartHook", .fixed (mkWord 0x06 0 0)), ("clearBlankEndHook", .fixed (mkWord 0x06 1 0)) ]

/-- The word a form makes of its operand tokens (R68): FBWR's operands are the offset first, then the data. -/
def AsmForm.apply : AsmForm → List (List Char) → Option Word
  | .fixed w, [] => some w
  | .byteA op, [a] => (byteOperand a).map fun x => mkWord op x 0
  | .halfB op a, [b] => (halfOperand b).map fun y => mkWord op a y
  | .offData, [b, a] => (halfOperand b).bind fun y => (byteOperand a).map fun x => mkWord 0x05 x y
  | .kindHandle, [a, b] => (kindOperand a).bind fun x => (halfOperand b).map fun y => mkWord 0x06 x y
  | .regOnly, [a] => (regOperand a).map fun x => mkWord 0x07 x 0
  | .regValue op, [a, b] => (regOperand a).bind fun x => (halfOperand b).map fun y => mkWord op x y
  | _, _ => none

/-- Assembling one line (R68, R69). -/
def assembleLine (line : List Char) : AsmResult :=
  match tokenize [] line with
  | [] => .blank
  | m :: operands =>
    match asmForms.find? (fun f => f.1.toList == m) with
    | some f => .ofOption (f.2.apply operands)
    | none => .rejected

/-- The names of agent steps in a schedule: the event mnemonics, with or without `EV_`, `H` and `K` (R70), letter for
letter (log 19). -/
def agentNames : List (String × Agent) :=
  [ ("EV_BOUNDARY", .boundary), ("EV_COMPARE", .compare), ("EV_TICK", .tick), ("EV_HOOKRET", .hookret),
    ("EV_DMABYTE", .dmabyte), ("EV_DMADONE", .dmadone) ]
  ++ [ ("BOUNDARY", .boundary), ("COMPARE", .compare), ("TICK", .tick), ("HOOKRET", .hookret),
    ("DMABYTE", .dmabyte), ("DMADONE", .dmadone), ("H", .host), ("K", .hook) ]

/-- The agent step a schedule's token names (R70). -/
def parseAgent (t : List Char) : Option Agent := (agentNames.find? fun n => n.1.toList == t).map Prod.snd

/-- A schedule, written as agent steps on one line (R70). DESIGN CHOICE (log 19): R70 does not say how the steps are
separated or whether a schedule can hold a comment; as in an assembler line, a space, a tab or a comma separates them
and a `;` ends the schedule. -/
def parseSchedule (line : List Char) : Option (List Agent) := (tokenize [] line).mapM parseAgent

end Sys2Proof.Machine
end

