-- ==== Sys2Proof/Machine/SchedA.lean ====
section
/-! DEFINITION. The deterministic scheduler SCHED_A of 95_test_vectors.md section 2.2: one fixed schedule, for tests. -/

namespace Sys2Proof.Machine

/-- The first agent of SCHED_A's list whose step is enabled; none when no step is. -/
def schedA (s : State) : Option Agent :=
  [ Agent.hook, .hookret, .tick, .dmabyte, .dmadone ].find? (agentEnabled s)
    |>.orElse fun _ => (if !insidePoll s || !s.polled then [Agent.host] else []).find? (agentEnabled s)
    |>.orElse fun _ => [ Agent.boundary, .compare, .host ].find? (agentEnabled s)

end Sys2Proof.Machine
end

