-- ==== Sys2Proof/Tests/Slice0.lean ====
section
/-! SUPPORT. The model's own tests: the smoke tests of WellFormed, decoding of words written out from 30_encoding.md and
95_test_vectors.md section 3.1, single steps against the vectors of its sections 3.2 to 3.7, and a witness for the
hypotheses of every statement. Expected values are the spec's. -/

namespace Sys2Proof.Tests

open Sys2Proof Sys2Proof.Machine Sys2Proof.Safety

/-! ### Helpers -/

/-- The fixture profiles T0 to T3 (95_test_vectors.md section 2.1) and its hypothetical T4. -/
def t0 : Profile := ⟨224, 216, 216, 28, false, 1⟩
def t1 : Profile := ⟨224, 108, 216, 28, true, 1⟩
def t2 : Profile := ⟨16, 2, 2, 2, false, 2⟩
def t3 : Profile := ⟨8, 2, 4, 1, true, 3⟩
def t4 : Profile := ⟨8, 235, 235, 1, false, 0⟩

/-- The engine active with profile `p`, as BEGIN leaves it, with nothing recorded. -/
def bench (id : Nat) (p : Profile) : State :=
  { State.reset with
    active := true
    profId := id
    prof := p
    line := 1
    dutyNext := .narrow
    dutyCur := .narrow
    timerPhase := .nextCompare
    fb := some [] }

/-- The bench with a tick requested at a line, the cursor where the spec's vector has it. -/
def atLine (id : Nat) (p : Profile) (line cursor : Nat) : State :=
  { bench id p with line := line, cursor := cursor, tickPending := true, timerPhase := .nextBoundary }

/-- The bench inside the program of a hook. -/
def inHookOf (k : HookKind) (h : Half) (pc : Nat) : State :=
  { bench 2 t2 with line := 4, timerPhase := .nextBoundary, tickPhase := .hook k h pc }

/-- The next state, where there is one. -/
def nextOf : Result → Option State
  | .next t => some t
  | .fault _ => none
  | .refused _ => none

/-- What an instruction leaves in one part of the state. -/
def leaves {α : Type} (i : Instr) (s : State) (f : State → α) : Option α := (nextOf (exec i s)).map f

/-! ### WellFormed refuses -/

theorem test_fixtures_wf : [t0, t1, t2, t3, t4].all Profile.wf = true := by decide
theorem test_width_not_bytes : Profile.wf ⟨12, 2, 2, 1, false, 0⟩ = false := by decide
theorem test_width_zero : Profile.wf ⟨0, 2, 2, 0, false, 0⟩ = false := by decide
theorem test_row_bytes_wrong : Profile.wf ⟨16, 2, 2, 3, false, 0⟩ = false := by decide
theorem test_height_zero : Profile.wf ⟨16, 0, 0, 2, false, 0⟩ = false := by decide
theorem test_doubled_lines_wrong : Profile.wf ⟨16, 2, 5, 2, true, 0⟩ = false := by decide
theorem test_lines_wrong : Profile.wf ⟨16, 2, 4, 2, false, 0⟩ = false := by decide
theorem test_too_many_lines : Profile.wf ⟨8, 236, 236, 1, false, 0⟩ = false := by decide
theorem test_framebuffer_too_big : Profile.wf ⟨2800, 200, 200, 350, false, 0⟩ = false := by decide
theorem test_reset_params_wf : Config.resetParams.wf = true := by decide
theorem test_empty_table : Params.wf { Config.resetParams with profileTable := [] } = false := by decide
theorem test_long_table (c : Params) (h : 256 < c.profileTable.length) : c.wf = false := by
  simp only [Params.wf, Bool.and_eq_false_iff, decide_eq_false_iff_not]
  omega
theorem test_default_outside : Params.wf { Config.resetParams with defaultProfileId := 4 } = false := by decide
theorem test_bad_entry : Params.wf { Config.resetParams with profileTable := [t2, ⟨12, 2, 2, 1, false, 0⟩] } = false := by
  decide
theorem test_event_in_main : Instr.wellFormedIn .main .evTick = false := by decide
theorem test_wait_in_hook : Instr.wellFormedIn .hook (.cmdWaitf 1) = false := by decide
theorem test_begin_in_hook : Instr.wellFormedIn .hook (.cmdBegin 0) = false := by decide
theorem test_command_in_schedule : Instr.wellFormedIn .schedule .cmdEnd = false := by decide

/-! ### Decoding (words of R65 and of vectors E1 to E29) -/

theorem test_dec_begin : decode 0x01FF0000 = .ok (.cmdBegin 255) := by decide
theorem test_dec_end : decode 0x02000000 = .ok .cmdEnd := by decide
theorem test_dec_clear : decode 0x03000000 = .ok .cmdClear := by decide
theorem test_dec_fbrd : decode 0x04000003 = .ok (.cmdFbrd 3) := by decide
theorem test_dec_fbwr : decode 0x05A50000 = .ok (.cmdFbwr 0xA5 0) := by decide
theorem test_dec_sethook_start : decode 0x06000007 = .ok (.cmdSethook .start 7) := by decide
theorem test_dec_sethook_end : decode 0x06010005 = .ok (.cmdSethook .fin 5) := by decide
theorem test_dec_rdreg : decode 0x070F0000 = .ok (.cmdRdreg .fbbase) := by decide
theorem test_dec_polleq : decode 0x0801001F = .ok (.cmdPolleq .line 31) := by decide
theorem test_dec_pollne : decode 0x09010020 = .ok (.cmdPollne .line 32) := by decide
theorem test_dec_waitf : decode 0x0A000003 = .ok (.cmdWaitf 3) := by decide
theorem test_dec_boundary : decodeEvent 0x80000000 = .ok .evBoundary := by decide
theorem test_dec_compare : decodeEvent 0x81000000 = .ok .evCompare := by decide
theorem test_dec_tick : decodeEvent 0x82000000 = .ok .evTick := by decide
theorem test_dec_hookret : decodeEvent 0x83000000 = .ok .evHookret := by decide
theorem test_dec_dmabyte : decodeEvent 0x84000000 = .ok .evDmabyte := by decide
theorem test_dec_dmadone : decodeEvent 0x85000000 = .ok .evDmadone := by decide

/-- E1, E4, E6, E8, E10, E15, E18, E19, E22, E24, E25, E26, E27, E28, E29: words that are no commands. -/
theorem test_dec_illegal :
    ([0x00000000, 0x01020001, 0x02000001, 0x03010000, 0x04010003, 0x06020005, 0x07100000, 0x07010001, 0x08100000,
      0x0A010003, 0x0B000000, 0x80000000, 0x85000000, 0x80000001, 0xFFFFFFFF] : List Word).all
        (fun w => (decodeCommand w).toOption.isNone) = true := by decide

/-- E28: an event pattern with a low bit set is no event either. -/
theorem test_dec_not_an_event : decodeEvent 0x80000001 = .reject .fieldNotZero := by decide

theorem test_table_word : decodeTableWord 32 0x05810003 = some (.cmdFbwr 0x81 3) := by decide
theorem test_table_word_too_long : decodeTableWord 32 0x100000000 = none := by decide

/-! ### Assembler and schedules (R68, R69, R70) -/

theorem test_asm_fbwr : assembleLine "FBWR 3, 0x81 ; data last".toList = .word 0x05810003 := by decide
theorem test_asm_polleq : assembleLine "POLLEQ LINE, 246".toList = .word 0x080100F6 := by decide
theorem test_asm_clear_hook : assembleLine "clearBlankEndHook".toList = .word 0x06010000 := by decide
theorem test_asm_profile : assembleLine "activeProfileId".toList = .word 0x07030000 := by decide
theorem test_asm_delay : assembleLine "delayFrames 2".toList = .word 0x0A000002 := by decide
theorem test_asm_offset_too_big : assembleLine "FBWR 0x10000, 1".toList = .rejected := by decide
theorem test_asm_mode_too_big : assembleLine "BEGIN 256".toList = .rejected := by decide
theorem test_asm_unknown_register : assembleLine "RDREG BEAM".toList = .rejected := by decide
theorem test_schedule : parseSchedule "H BOUNDARY EV_TICK K".toList = some [.host, .boundary, .tick, .hook] := by decide

/-! ### Commands, one step each (section 3.5) -/

/-- H1: BEGIN 2 from power-on. -/
theorem test_begin : leaves (.cmdBegin 2) { State.reset with oracle := [0x20000400] }
    (fun t => (t.active, t.fbBase, t.line, t.hist)) = some (true, 0x20000400, 1, [.begun 2, .pulse 1 .narrow]) := by
  decide

/-- H2: a mode at PROFILE_COUNT selects the default. -/
theorem test_begin_default : leaves (.cmdBegin 4) { State.reset with oracle := [0] }
    (fun t => (t.profId, t.prof.pixelWidth)) = some (0, 224) := by decide

/-- H8: END abandons the transfer. -/
theorem test_end : leaves .cmdEnd { bench 2 t2 with line := 31, dma := .busy 2 2 1, ser := .shifting }
    (fun t => (t.active, t.dma, t.ser, t.hist)) = some (false, .idle, .residual, [.ended]) := by decide

/-- H9: END at power-on. -/
theorem test_end_inactive : leaves .cmdEnd State.reset (fun t => (t.fault, t.hist, t.hpc)) =
    some (some .notActive, [.faulted .notActive], 0) := by decide

/-- H10: the first step of CLEAR zeroes the drawn offset and keeps the other three. -/
theorem test_clear_step : leaves .cmdClear { bench 2 t2 with fb := some [(0, 0xA5), (1, 0x0F), (2, 0xFF)], oracle := [2] }
    (fun t => (t.fb, t.mainOp, t.hist, t.hpc)) =
      some (some [(0, 0xA5), (1, 0x0F)], some (.clear [0, 1, 3]), [.fbWrite 2 0], 0) := by decide

/-- R105: CLEAR's last step in a hook retires there. -/
theorem test_clear_last : leaves .cmdClear { inHookOf .fin 9 0 with hookOp := some (.clear [3]), oracle := [0] }
    (fun t => (t.hookOp, t.tickPhase, t.hpc)) = some (none, .hook .fin 9 1, 0) := by decide

/-- H13. -/
theorem test_fbrd : leaves (.cmdFbrd 3) { bench 2 t2 with fb := some [(3, 0x44)] } (fun t => (t.hist, t.hpc)) =
    some ([.read (.fb 3) 0x44], 1) := by decide

/-- H14. -/
theorem test_fbrd_range : leaves (.cmdFbrd 4) (bench 2 t2) (fun t => (t.fault, t.hpc)) = some (some .fbRange, 0) := by
  decide

/-- H15. -/
theorem test_fbwr : leaves (.cmdFbwr 0x81 3) (bench 2 t2) (fun t => (t.fb, t.hist)) =
    some (some [(3, 0x81)], [.fbWrite 3 0x81]) := by decide

/-- H17: inactive comes before range. -/
theorem test_fbwr_inactive : leaves (.cmdFbwr 0 0x1000) State.reset (fun t => t.fault) = some (some .notActive) := by
  decide

/-- H19, while inactive. -/
theorem test_sethook : leaves (.cmdSethook .start 7) State.reset (fun t => (t.hookStart, t.hookEnd, t.hpc)) =
    some (7, 0, 1) := by decide

/-- H21: in a hook, the slot changes and the hook goes on. -/
theorem test_sethook_in_hook : leaves (.cmdSethook .fin 0) { inHookOf .fin 9 0 with hookEnd := 9 }
    (fun t => (t.hookEnd, t.tickPhase)) = some (0, .hook .fin 9 1) := by decide

/-- H30, T2: every register but FBBASE. -/
theorem test_rdreg :
    ([.status, .line, .cursor, .profile, .width, .height, .fbsize, .rowbytes, .scanlines, .doubled, .divisor,
      .frameline, .lastactive, .hookstart, .hookend] : List Reg).map (regValue (bench 2 t2)) =
      [1, 1, 0, 2, 16, 2, 4, 2, 2, 0, 2, 32, 31, 0, 0] := by decide

/-- H32: STATUS in the onBlankStart hook. -/
theorem test_rdreg_status : leaves (.cmdRdreg .status)
    { bench 2 t2 with line := 31, dma := .busy 2 2 0, ser := .shifting, tickPhase := .hook .start 7 0 }
    (fun t => t.hist) = some [.read (.reg .status) 0x13] := by decide

/-- H40. -/
theorem test_polleq : leaves (.cmdPolleq .line 31) { bench 2 t2 with line := 31 } (fun t => (t.hist, t.hpc)) =
    some ([.read (.reg .line) 31], 1) := by decide

/-- H41. -/
theorem test_polleq_holds : leaves (.cmdPolleq .line 31) { bench 2 t2 with line := 30 }
    (fun t => (t.mainOp, t.polled, t.hpc)) = some (some (.poll true .line 31), true, 0) := by decide

/-- H42. -/
theorem test_pollne : leaves (.cmdPollne .line 31) { bench 2 t2 with line := 30 } (fun t => t.hist) =
    some [.read (.reg .line) 30] := by decide

/-- R110: POLLNE holds at its value. -/
theorem test_pollne_holds : leaves (.cmdPollne .line 31) { bench 2 t2 with line := 31 } (fun t => t.mainOp) =
    some (some (.poll false .line 31)) := by decide

/-- H51: WAITF 1 at FRAMELINE seeks to leave it at once. -/
theorem test_waitf_first : leaves (.cmdWaitf 1) { bench 2 t2 with line := 32 } (fun t => (t.mainOp, t.hist)) =
    some (some (.waitf 1 .seekNe 32), []) := by decide

/-- H51: and retires when it has left. -/
theorem test_waitf_last : leaves (.cmdWaitf 1) { bench 2 t2 with line := 33, mainOp := some (.waitf 1 .seekNe 32) }
    (fun t => (t.mainOp, t.hist, t.hpc)) = some (none, [.read (.reg .line) 33], 1) := by decide

/-! ### Events, one step each (sections 3.2 to 3.4) -/

/-- Y1. -/
theorem test_boundary : leaves .evBoundary { bench 2 t2 with timerPhase := .nextBoundary, line := 3, dutyNext := .wide }
    (fun t => (t.hist, t.dutyCur, t.timerPhase)) = some ([.pulse 3 .wide], .wide, .nextCompare) := by decide

/-- Y5: a deadline missed without TIMING_ASSUMPTIONS. -/
theorem test_boundary_miss : leaves .evBoundary
    { atLine 2 t2 2 0 with params := { Config.resetParams with timingAssumptions := false } } (fun t => t.hist) =
      some [.deadlineMiss 2, .pulse 2 .narrow] := by decide

/-- Y2. -/
theorem test_compare : leaves .evCompare (bench 2 t2) (fun t => (t.tickPending, t.timerPhase, t.hist)) =
    some (true, .nextBoundary, []) := by decide

/-- Y6: a lost tick without TIMING_ASSUMPTIONS. -/
theorem test_compare_lost : leaves .evCompare
    { bench 2 t2 with tickPending := true, params := { Config.resetParams with timingAssumptions := false } }
    (fun t => (t.tickPending, t.hist)) = some (true, [.lostTick 1]) := by decide

/-- L8: the last row's tick calls onBlankStart. -/
theorem test_tick_hook : leaves .evTick { atLine 0 t0 245 6020 with hookStart := 7 }
    (fun t => (t.hist, t.line, t.cursor, t.tickPhase, t.dma)) =
      some ([.tick 245, .rowStart 245 6020, .hookCall .start 7 245], 245, 6048, .hook .start 7 0, .busy 6020 28 0) := by
  decide

/-- L14: the odd tick of a pair advances the cursor of a doubled profile. -/
theorem test_tick_doubled : leaves .evTick (atLine 1 t1 31 0) (fun t => (t.hist, t.line, t.cursor, t.dutyNext)) =
    some ([.tick 31, .rowStart 31 0], 32, 28, .narrow) := by decide

/-- HR2: an empty hook program returns at once. -/
theorem test_hookret : leaves .evHookret (inHookOf .fin 9 0) (fun t => (t.hist, t.line, t.tickPhase)) =
    some ([.hookRet 4], 5, .idle) := by decide

/-- L18: at line 264 the return wraps the line and resets the cursor. -/
theorem test_hookret_wrap : leaves .evHookret { inHookOf .start 7 0 with line := 264, cursor := 235 }
    (fun t => (t.line, t.cursor)) = some (1, 0) := by decide

/-- M2. -/
theorem test_dmabyte : leaves .evDmabyte { bench 0 t0 with fb := some [(0, 0x5A)], dma := .busy 0 28 0 }
    (fun t => (t.hist, t.dma)) = some ([.pixByte 0 0x5A], .busy 0 28 1) := by decide

/-- M3. -/
theorem test_dmabyte_last : leaves .evDmabyte { bench 2 t2 with fb := some [(1, 0x0F)], dma := .busy 0 2 1 }
    (fun t => (t.hist, t.dma, t.donePending, t.ser)) =
      some ([.pixByte 1 0x0F, .rowEnd 0], .idle, true, .residual) := by decide

/-- M5. -/
theorem test_dmadone : leaves .evDmadone { bench 2 t2 with donePending := true }
    (fun t => (t.hist, t.ser, t.donePending)) = some ([.idleForced], .idle, false) := by decide

/-- M6: the done handler waits for a pending tick. -/
theorem test_dmadone_waits : leaves .evDmadone { atLine 2 t2 5 0 with donePending := true } (fun t => t.hist) = some [] := by
  decide

/-! ### Steps and the composite output -/

/-- Power-on runs a loaded SETHOOK as its first instruction. -/
theorem test_first_step : (nextOf (step (State.reset.withFetchWord 32 0x06000007))).map (fun t => (t.hookStart, t.hpc)) =
    some (7, 1) := by decide

/-- X1: in a hook, a word that is no command faults ILLEGAL_COMMAND. -/
theorem test_illegal_in_hook : (nextOf (step { inHookOf .fin 9 0 with
    sched := [.hook], params := { Config.resetParams with hookPrograms := [(9, [0x01020001])] } })).map
      (fun t => (t.fault, t.tickPhase)) = some (some .illegalCommand, .hook .fin 9 0) := by decide

/-- SCHED_A takes TICK before DMADONE (95_test_vectors.md section 2.2). -/
theorem test_sched_a : schedA { atLine 2 t2 5 0 with donePending := true } = some .tick := by decide

/-- The line record of period 30 of P1, from its events in the order P1 gives. -/
theorem test_line_record : lineRecords
    [.pulse 30 .narrow, .tick 30, .rowStart 30 0, .pixByte 0 0xA5, .pixByte 1 0x0F, .rowEnd 0, .idleForced] =
      [⟨30, .narrow, some (0, [0xA5, 0x0F]), [.sync .narrow, .residual,
        .pixels [.white, .black, .white, .black, .black, .white, .black, .white, .black, .black, .black, .black, .white,
          .white, .white, .white], .residual, .black]⟩] := by decide

/-- R91 and R93 item 2: an IDLE_FORCED after a period's PULSE makes the line black before the row, and END cuts the
period off (R92). -/
theorem test_line_record_late_done : (lineRecordsFrom .shifting
    [.rowEnd 0, .pulse 31 .narrow, .idleForced, .rowStart 31 2, .pixByte 2 0xFF, .ended]).map (fun r => r.shows) =
      [[.sync .narrow, .residual, .black, .pixels (List.replicate 8 .white), .off]] := by decide

/-- The pixel levels of 0xA5: W B W B B W B W. -/
theorem test_pixel_levels : byteLevels 0xA5 = [.white, .black, .white, .black, .black, .white, .black, .white] := by
  decide

/-! ### Witnesses for the hypotheses of the statements

One theorem for each statement that has hypotheses, with a concrete state and operands for each of its clauses. -/

/-- The bench with the main context at one command word, scheduled to step. -/
def mainAt (s : State) (w : Word) : State :=
  { s with sched := [.host], params := { s.params with mainProgram := [w] } }

/-- The bench inside hook 9 at one command word, scheduled to step. -/
def hookAt (w : Word) : State :=
  { inHookOf .fin 9 0 with sched := [.hook], params := { Config.resetParams with hookPrograms := [(9, [w])] } }

/-- The parameters without TIMING_ASSUMPTIONS. -/
def untimed : Params := { Config.resetParams with timingAssumptions := false }

/-- The bench with its history, from BEGIN on, and the compare event scheduled. -/
def firstLine : State := { bench 2 t2 with hist := [.begun 2, .pulse 1 .narrow], sched := [.compare] }

theorem mayBoundary_of {s : State} (h : s.active = true ∧ s.fault = none ∧ s.timerPhase = .nextBoundary ∧
    (s.params.timingAssumptions = true → s.tickPending = false ∧ s.tickPhase = .idle)) : MayBoundary s := h

theorem mayCompare_of {s : State} (h : s.active = true ∧ s.fault = none ∧ s.timerPhase = .nextCompare ∧
    (s.params.timingAssumptions = true → s.dma = .idle ∧ s.donePending = false)) : MayCompare s := h

theorem mayTick_of {s : State} (h : s.active = true ∧ s.fault = none ∧ s.tickPending = true ∧ s.tickPhase = .idle ∧
    s.params.pollDense = false) : MayTick s :=
  ⟨h.1, h.2.1, h.2.2.1, h.2.2.2.1, fun hc => by simp [h.2.2.2.2] at hc⟩

theorem runInv_of {s : State} (hw : s.params.wf = true) (hp : s.params.profileTable[s.profId]? = some s.prof)
    (ha : s.active = true) (hl : 1 ≤ s.line ∧ s.line ≤ 264) (hfb : s.fb = some []) (hd : s.dma = .idle)
    (hs : s.ser = .residual) (ht : s.tickPhase = .idle) (hc : s.cursor = cursorAt s.prof s.line)
    (hm : s.mainOp = none) (ho : s.hookOp = none) : RunInv s := by
  refine ⟨⟨hw, fun _ => hp, fun _ => hl, fun _ => ⟨[], hfb, rfl, by simp⟩, ?_, ?_, ?_, fun _ => hs, ?_⟩, ?_,
    ⟨?_, ?_, ?_, ?_, fun _ => ho⟩⟩
  · simp [ha]
  · simp [hd]
  · simp [hd, hs]
  · simp [ht]
  · intro _
    rw [ht]
    exact hc
  · simp [hm]
  · simp [hm]
  · simp [hm]
  · simp [ho]

theorem firstLine_inv : RunInv firstLine :=
  runInv_of (by decide) (by decide) rfl (by decide) rfl rfl rfl rfl (by decide) rfl rfl

theorem notClearing_of {s : State} (h : s.mainOp = none ∧ s.hookOp = none) (l : List Nat) : ¬ clearing s l := by
  unfold clearing
  cases s.tickPhase <;> simp [h.1, h.2]

theorem witness_EncodeInvertsDecode : ∃ w i, decode w = .ok i := ⟨0x05810003, .cmdFbwr 0x81 3, by decide⟩

theorem witness_DecodeAgreesWithMaskAndMatch :
    (∃ (w : Word) (m m' : Mnemonic), w &&& m.mask = m.pattern ∧ w &&& m'.mask = m'.pattern) ∧ ∃ w i, decode w = .ok i :=
  ⟨⟨0x0A00FFFF, .WAITF, .WAITF, by decide⟩, 0x0601FFFF, .cmdSethook .fin 0xFFFF, by decide⟩

theorem witness_ReservedWordsFaultWhereTheyAreReached :
    (∃ (w : Word) (s : State) (rest : List Agent), ReservedCommand w ∧ s.fault = none ∧ s.params.wf = true ∧
      s.sched = .host :: rest ∧ s.tickPhase = .idle ∧ s.mainOp = none ∧ s.params.mainProgram[s.hpc]? = some w) ∧
    ∃ (w : Word) (s : State) (rest : List Agent) (k : HookKind) (h : Half) (pc : Nat), ReservedCommand w ∧
      s.fault = none ∧ s.params.wf = true ∧ s.sched = .hook :: rest ∧ s.hookOp = none ∧ s.tickPhase = .hook k h pc ∧
      (s.hookProgram h)[pc]? = some w :=
  ⟨⟨0, mainAt (bench 2 t2) 0, [], by simp [ReservedCommand], by decide, by decide, by decide, by decide, by decide,
      by decide⟩,
    0x80000000, hookAt 0x80000000, [], .fin, 9, 0, by simp [ReservedCommand], by decide, by decide, by decide,
    by decide, by decide, by decide⟩

theorem witness_StepRunsTheDecodedInstruction :
    (∃ (s : State) (rest : List Agent) (w : Word) (i : Instr), s.fault = none ∧ s.params.wf = true ∧
      decodeCommand w = .ok i ∧ s.sched = .host :: rest ∧ s.tickPhase = .idle ∧ s.mainOp = none ∧
      s.params.mainProgram[s.hpc]? = some w) ∧
    (∃ (s : State) (rest : List Agent) (w : Word) (i : Instr) (k : HookKind) (h : Half) (pc : Nat), s.fault = none ∧
      s.params.wf = true ∧ decodeCommand w = .ok i ∧ s.sched = .hook :: rest ∧ s.tickPhase = .hook k h pc ∧
      s.hookOp = none ∧ (s.hookProgram h)[pc]? = some w) ∧
    ∃ (s : State) (rest : List Agent) (w : Word) (i : Instr), s.fault = none ∧ s.params.wf = true ∧
      decodeEvent w = .ok i ∧ s.sched = agentOf i :: rest :=
  ⟨⟨mainAt (bench 2 t2) 0x02000000, [], 0x02000000, .cmdEnd, by decide⟩,
    ⟨hookAt 0x03000000, [], 0x03000000, .cmdClear, .fin, 9, 0, by decide⟩,
    firstLine, [], 0x81000000, .evCompare, by decide⟩

theorem witness_StepGoesOnWithTheCommandInProgress :
    ([.clear [3], .poll true .line 31, .poll false .line 31, .waitf 1 .seekEq 32] : List MultiOp).all (fun op =>
      let s := { mainAt (bench 2 t2) 0x03000000 with mainOp := some op }
      decide (s.fault = none ∧ s.params.wf = true ∧ s.sched = .host :: [] ∧ s.tickPhase = .idle ∧
        s.hpc < s.params.mainProgram.length ∧ s.mainOp = some op)) = true ∧
    (∃ (s : State) (k : HookKind) (h : Half) (pc : Nat) (left : List Nat), s.fault = none ∧ s.params.wf = true ∧
      s.sched = .hook :: [] ∧ s.tickPhase = .hook k h pc ∧ pc < (s.hookProgram h).length ∧
      s.hookOp = some (.clear left)) ∧
    ∃ (s : State) (k : HookKind) (h : Half) (pc : Nat), s.fault = none ∧ s.params.wf = true ∧
      s.sched = .hook :: [] ∧ s.tickPhase = .hook k h pc ∧ (s.hookProgram h).length ≤ pc :=
  ⟨by decide, ⟨{ hookAt 0x03000000 with hookOp := some (.clear [3]) }, .fin, 9, 0, [3], by decide⟩,
    { inHookOf .fin 9 0 with sched := [.hook] }, .fin, 9, 0, by decide⟩

theorem witness_MainContextIsPreemptedByTheTick :
    (∃ s : State, s.fault = none ∧ s.params.wf = true ∧ s.sched = .host :: [] ∧ s.tickPhase ≠ .idle) ∧
    (∃ s : State, s.fault = none ∧ s.params.wf = true ∧ s.sched = .host :: [] ∧
      s.params.mainProgram.length ≤ s.hpc) ∧
    ∃ (s : State) (w : Word), s.fault = none ∧ s.params.wf = true ∧ s.sched = .host :: [] ∧ s.tickPhase = .idle ∧
      s.mainOp = none ∧ s.params.mainProgram[s.hpc]? = some w ∧ decodeCommand w = .ok .cmdEnd ∧ s.active = true :=
  ⟨⟨{ inHookOf .fin 9 0 with sched := [.host] }, by decide⟩, ⟨{ bench 2 t2 with sched := [.host] }, by decide⟩,
    mainAt (bench 2 t2) 0x02000000, 0x02000000, by decide⟩

theorem witness_DisabledEventChangesNothing :
    ∃ s : State, s.fault = none ∧ ¬ MayBoundary s ∧ ¬ MayCompare s ∧ ¬ MayTick s ∧ ¬ MayHookret s ∧ ¬ MayDmabyte s ∧
      ¬ MayDmadone s :=
  ⟨State.reset, rfl, by simp [MayBoundary, State.reset], by simp [MayCompare, State.reset],
    by simp [MayTick, State.reset], by simp [MayHookret, State.reset], by simp [MayDmabyte, State.reset],
    by simp [MayDmadone, State.reset]⟩

theorem witness_NoStepLeavesAFaultedState : ∃ (s : State) (c : Fault), s.fault = some c :=
  ⟨{ bench 2 t2 with fault := some .fbRange }, .fbRange, rfl⟩

theorem witness_FaultingCommandChangesOnlyFaultAndHistory :
    ∃ (i : Instr) (s t : State) (c : Fault), i.isEvent = false ∧ exec i s = .next t ∧ t.fault = some c :=
  ⟨.cmdEnd, State.reset, faulted State.reset .notActive, .notActive, rfl, rfl, rfl⟩

theorem witness_IllFormedConfigurationIsRefused :
    (∃ s : State, s.fault = none ∧ ConfigurationAdmitted s.params) ∧
    (∃ s : State, s.fault = none ∧ ¬ ConfigurationAdmitted s.params ∧ s.params.profileTable = []) ∧
    ∃ s : State, s.fault = none ∧ ¬ ConfigurationAdmitted s.params ∧ ∃ p ∈ s.params.profileTable, ¬ ProfileAdmitted p :=
  ⟨⟨State.reset, rfl, by
      refine ⟨by decide, by decide, by decide, ?_⟩
      simp [State.reset, Config.resetParams, Config.fixtureTable, ProfileAdmitted]⟩,
    ⟨{ State.reset with params := { Config.resetParams with profileTable := [] } }, rfl,
      by simp [ConfigurationAdmitted], rfl⟩,
    { State.reset with params := { Config.resetParams with profileTable := [⟨12, 2, 2, 1, false, 0⟩] } }, rfl,
    by simp [ConfigurationAdmitted, ProfileAdmitted], ⟨12, 2, 2, 1, false, 0⟩, by decide, by simp [ProfileAdmitted]⟩

theorem witness_PlacedWordRunsNext :
    ∃ (s : State) (i j : Instr), s.fault = none ∧ s.params.wf = true ∧ i.isEvent = true ∧ j.isEvent = false :=
  ⟨State.reset, .evTick, .cmdEnd, by decide⟩

theorem witness_BeginStartsTheEngine :
    ∃ (m : Byte) (s : State) (id : Nat) (p : Profile), s.fault = none ∧ s.params.wf = true ∧ s.tickPhase = .idle ∧
      s.active = false ∧
      id = (if m.toNat < s.params.profileTable.length then m.toNat else s.params.defaultProfileId) ∧
      s.params.profileTable[id]? = some p ∧ p.rowByteWidth * p.pixelHeight ∉ s.params.allocFails :=
  ⟨4, State.reset, 0, t0, by decide⟩

theorem witness_BeginFaultsInOrder :
    (∃ s : State, s.fault = none ∧ s.tickPhase ≠ .idle) ∧
    (∃ s : State, s.fault = none ∧ s.tickPhase = .idle ∧ s.active = true) ∧
    ∃ (m : Byte) (s : State) (p : Profile), s.fault = none ∧ s.tickPhase = .idle ∧ s.active = false ∧
      s.params.profileTable[if m.toNat < s.params.profileTable.length then m.toNat
        else s.params.defaultProfileId]? = some p ∧ p.rowByteWidth * p.pixelHeight ∈ s.params.allocFails :=
  ⟨⟨inHookOf .fin 9 0, by decide⟩, ⟨bench 2 t2, by decide⟩, 0,
    { State.reset with params := { Config.resetParams with allocFails := [6048] } }, t0, by decide⟩

theorem witness_DrawsReachEveryAllowedValue :
    (∃ (s : State) (m : Byte) (p : Profile) (a : Word), s.fault = none ∧ s.params.wf = true ∧ s.tickPhase = .idle ∧
      s.active = false ∧
      s.params.profileTable[if m.toNat < s.params.profileTable.length then m.toNat
        else s.params.defaultProfileId]? = some p ∧ p.rowByteWidth * p.pixelHeight ∉ s.params.allocFails ∧
      a.toNat + p.rowByteWidth * p.pixelHeight ≤ 2 ^ 32) ∧
    (∃ (s : State) (left : List Nat) (m : Memory) (r : Nat), s.fault = none ∧ clearing s left ∧ s.fb = some m ∧
      r ∈ left ∧ ∀ x ∈ left, x < fbSize s.prof) ∧
    ∃ (s : State) (left : List Nat) (m : Memory) (r : Nat), s.fault = none ∧ s.active = true ∧
      (∀ l, ¬ clearing s l) ∧ left = List.range (fbSize s.prof) ∧ s.fb = some m ∧ r ∈ left ∧
      ∀ x ∈ left, x < fbSize s.prof :=
  ⟨⟨State.reset, 2, t2, 0xFFFFFFFC, by decide⟩,
    ⟨{ bench 2 t2 with mainOp := some (.clear [1, 3]) }, [1, 3], [], 3, rfl, rfl, rfl, by decide, by decide⟩,
    bench 2 t2, List.range 4, [], 3, rfl, rfl, notClearing_of ⟨rfl, rfl⟩, by decide, rfl, by decide, by decide⟩

theorem witness_EndStopsTheEngine : ∃ s : State, s.fault = none ∧ s.tickPhase = .idle ∧ s.active = true :=
  ⟨bench 2 t2, by decide⟩

theorem witness_NothingRunsAfterEnd :
    ∃ s t : State, s.active = true ∧ exec .cmdEnd s = .next t ∧ t.fault = none ∧ t.params.wf = true ∧
      t.sched = .hook :: [] :=
  ⟨{ bench 2 t2 with sched := [.hook] },
    { (({ bench 2 t2 with sched := [.hook] } : State).stopped.record .ended) with hpc := 1 }, rfl, rfl, by decide⟩

theorem witness_BlockingCommandsFaultInAHook :
    ∃ (i : Instr) (s : State), i.mainOnly = true ∧ s.fault = none ∧ s.tickPhase ≠ .idle :=
  ⟨.cmdWaitf 1, inHookOf .fin 9 0, by decide⟩

theorem witness_CommandsFaultWhileInactive :
    ∃ (s : State) (r : Reg), s.fault = none ∧ s.active = false ∧ (∀ left, ¬ clearing s left) ∧ r ≠ .status ∧
      r ≠ .hookstart ∧ r ≠ .hookend ∧ s.tickPhase = .idle ∧ ∀ rem ph fl, s.mainOp ≠ some (.waitf rem ph fl) :=
  ⟨State.reset, .line, rfl, rfl, notClearing_of ⟨rfl, rfl⟩, by decide, by decide, by decide, rfl, by simp [State.reset]⟩

theorem witness_FbrdRecordsTheByte :
    ∃ (off : Half) (v : Byte) (s : State), s.fault = none ∧ s.active = true ∧ s.readByte off.toNat = some v :=
  ⟨3, 0x44, { bench 2 t2 with fb := some [(3, 0x44)] }, by decide⟩

theorem witness_FbwrWritesOnlyItsByte :
    ∃ (off : Half) (m : Memory) (s : State), s.fault = none ∧ s.active = true ∧ s.fb = some m ∧ m.wf = true ∧
      off.toNat < fbSize s.prof :=
  ⟨3, [], bench 2 t2, by decide⟩

theorem witness_FramebufferAccessOutOfRangeFaults :
    ∃ (off : Half) (s : State), s.fault = none ∧ s.active = true ∧
      s.prof.rowByteWidth * s.prof.pixelHeight ≤ off.toNat :=
  ⟨4, bench 2 t2, by decide⟩

theorem witness_ClearStepZeroesOneRemainingByte :
    (∃ (s : State) (m : Memory) (left : List Nat), s.fault = none ∧ s.fb = some m ∧ m.wf = true ∧ left ≠ [] ∧
      (∀ r ∈ left, r < fbSize s.prof) ∧ clearing s left) ∧
    ∃ (s : State) (m : Memory) (left : List Nat), s.fault = none ∧ s.fb = some m ∧ m.wf = true ∧ left ≠ [] ∧
      (∀ r ∈ left, r < fbSize s.prof) ∧ s.active = true ∧ (∀ l, ¬ clearing s l) ∧ left = List.range (fbSize s.prof) :=
  ⟨⟨{ inHookOf .fin 9 0 with hookOp := some (.clear [3]) }, [], [3], rfl, rfl, rfl, by decide, by decide, rfl⟩,
    bench 2 t2, [], [0, 1, 2, 3], rfl, rfl, rfl, by decide, by decide, rfl, notClearing_of ⟨rfl, rfl⟩, by decide⟩

theorem witness_ClearZeroesEveryByte :
    ∃ (s : State) (m : Memory), s.fault = none ∧ s.active = true ∧ s.fb = some m ∧ m.wf = true ∧ 1 ≤ fbSize s.prof ∧
      ∀ l, ¬ clearing s l :=
  ⟨{ bench 2 t2 with fb := some [(0, 0xA5), (3, 0xFF)] }, [(0, 0xA5), (3, 0xFF)], rfl, rfl, rfl, by decide, by decide,
    notClearing_of ⟨rfl, rfl⟩⟩

theorem witness_WrittenByteStaysUntilOverwritten :
    (∃ (data : Byte) (off : Half) (m : Memory) (s t : State), s.active = true ∧ s.fb = some m ∧ m.wf = true ∧
      exec (.cmdFbwr data off) s = .next t ∧ t.fault = none) ∧
    ∃ (i : Instr) (s t : State) (m : Memory) (a : Nat) (v : Byte), exec i s = .next t ∧ s.fb = some m ∧ m.wf = true ∧
      s.active = true ∧ s.readByte a = some v ∧ t.readByte a ≠ some v :=
  ⟨⟨0x81, 3, [], bench 2 t2, { bench 2 t2 with fb := some [(3, 0x81)], hist := [.fbWrite 3 0x81], hpc := 1 }, rfl, rfl,
      rfl, rfl, rfl⟩,
    .cmdEnd, bench 2 t2, { ((bench 2 t2).stopped.record .ended) with hpc := 1 }, [], 3, 0, rfl, rfl, rfl, rfl,
    by decide, by decide⟩

theorem witness_FramebufferRaceShowsEitherValue :
    ∃ (old : Byte) (off : Half) (base n i : Nat) (m : Memory) (s : State), s.fault = none ∧ s.active = true ∧
      s.fb = some m ∧ m.wf = true ∧ s.dma = .busy base n i ∧ base + i = off.toNat ∧ s.readByte off.toNat = some old :=
  ⟨0x0F, 1, 0, 2, 1, [(1, 0x0F)], { bench 2 t2 with fb := some [(1, 0x0F)], dma := .busy 0 2 1 }, by decide⟩

theorem witness_SethookWritesItsSlot : ∃ s : State, s.fault = none := ⟨State.reset, rfl⟩

theorem witness_RdregRecordsTheRegister :
    (∃ (s : State) (r : Reg), s.fault = none ∧ s.active = true ∧ r = .fbbase) ∧
    ([.status, .hookstart, .hookend] : List Reg).all (fun r => decide (State.reset.fault = none ∧
      (State.reset.active = true ∨ r = .status ∨ r = .hookstart ∨ r = .hookend))) = true :=
  ⟨⟨bench 2 t2, .fbbase, by decide⟩, by decide⟩

theorem witness_PollRetiresOrHolds :
    ∃ (s : State) (r : Reg) (v w : Half), s.fault = none ∧ s.tickPhase = .idle ∧ s.active = true ∧
      (regValue s r).toNat = v.toNat ∧ (regValue s r).toNat ≠ w.toNat :=
  ⟨{ bench 2 t2 with line := 31 }, .line, 31, 32, by decide⟩

theorem witness_WaitfCountsReachThenLeave :
    (∃ (s : State) (rem fl : Nat), s.fault = none ∧ s.tickPhase = .idle ∧ s.mainOp = some (.waitf rem .seekEq fl)) ∧
    (∃ (s : State) (rem fl : Nat), s.fault = none ∧ s.tickPhase = .idle ∧ s.mainOp = some (.waitf rem .seekNe fl) ∧
      s.line = fl) ∧
    (∃ (s : State) (rem fl : Nat), s.fault = none ∧ s.tickPhase = .idle ∧
      s.mainOp = some (.waitf (rem + 2) .seekNe fl) ∧ s.line ≠ fl) ∧
    (∃ (s : State) (fl : Nat), s.fault = none ∧ s.tickPhase = .idle ∧ s.mainOp = some (.waitf 1 .seekNe fl) ∧
      s.line ≠ fl) ∧
    ∃ (s : State) (n n' : Half), s.fault = none ∧ s.tickPhase = .idle ∧ s.active = true ∧
      (∀ rem ph fl, s.mainOp ≠ some (.waitf rem ph fl)) ∧ n = 0 ∧ n' ≠ 0 :=
  ⟨⟨{ bench 2 t2 with mainOp := some (.waitf 1 .seekEq 32) }, 1, 32, by decide⟩,
    ⟨{ bench 2 t2 with line := 32, mainOp := some (.waitf 1 .seekNe 32) }, 1, 32, by decide⟩,
    ⟨{ bench 2 t2 with line := 33, mainOp := some (.waitf 2 .seekNe 32) }, 0, 32, by decide⟩,
    ⟨{ bench 2 t2 with line := 33, mainOp := some (.waitf 1 .seekNe 32) }, 32, by decide⟩,
    bench 2 t2, 0, 1, rfl, rfl, rfl, by simp [bench, State.reset], by decide, by decide⟩

theorem witness_ReadsHaveNoSideEffect :
    ∃ (i : Instr) (s t : State) (r : Reg) (v n off : Half),
      (i = .cmdRdreg r ∨ i = .cmdPolleq r v ∨ i = .cmdPollne r v ∨ i = .cmdWaitf n ∨ i = .cmdFbrd off) ∧
      exec i s = .next t ∧ t.fault = none ∧ s.tickPhase = .hook .fin 9 0 :=
  ⟨.cmdRdreg .line, inHookOf .fin 9 0,
    { inHookOf .fin 9 1 with hist := [.read (.reg .line) 4] }, .line, 0, 0, 0, .inl rfl, rfl, rfl, rfl⟩

theorem witness_BoundaryLatchesTheDuty :
    (∃ s : State, MayBoundary s ∧ s.tickPending = false) ∧ ∃ s : State, MayBoundary s ∧ s.tickPending = true :=
  ⟨⟨{ bench 2 t2 with timerPhase := .nextBoundary, line := 3, dutyNext := .wide }, mayBoundary_of (by decide), rfl⟩,
    { atLine 2 t2 2 0 with params := untimed }, mayBoundary_of (by decide), rfl⟩

theorem witness_CompareRequestsTheTick :
    (∃ s : State, MayCompare s ∧ s.tickPending = false) ∧ ∃ s : State, MayCompare s ∧ s.tickPending = true :=
  ⟨⟨bench 2 t2, mayCompare_of (by decide), rfl⟩, { bench 2 t2 with tickPending := true, params := untimed }, mayCompare_of (by decide), rfl⟩

theorem witness_TickOffTheActiveLines :
    ([(1, 0), (4, 0), (29, 0), (32, 4), (264, 4)] : List (Nat × Nat)).Forall fun c =>
      MayTick (atLine 2 t2 c.1 c.2) ∧ 1 ≤ (atLine 2 t2 c.1 c.2).prof.scanLinesUsed ∧
      ((atLine 2 t2 c.1 c.2).line < 30 ∨ 30 + (atLine 2 t2 c.1 c.2).prof.scanLinesUsed ≤ (atLine 2 t2 c.1 c.2).line) ∧
      ((atLine 2 t2 c.1 c.2).line = 4 → (atLine 2 t2 c.1 c.2).hookEnd = 0) := by
  simp only [List.Forall]
  refine ⟨⟨mayTick_of (by decide), by decide⟩, ⟨mayTick_of (by decide), by decide⟩, ⟨mayTick_of (by decide), by decide⟩,
    ⟨mayTick_of (by decide), by decide⟩, mayTick_of (by decide), by decide⟩

theorem witness_TickDispatchesARow :
    (∃ s : State, MayTick s ∧ s.line = 30 ∧ s.line < 30 + s.prof.scanLinesUsed ∧ s.dma = .idle ∧
      s.donePending = false ∧ (s.line = 29 + s.prof.scanLinesUsed → s.hookStart = 0) ∧ s.prof.lineDoubled = true) ∧
    ∃ s : State, MayTick s ∧ s.line = 264 ∧ s.line < 30 + s.prof.scanLinesUsed ∧ s.dma = .idle ∧
      s.donePending = false ∧ (s.line = 29 + s.prof.scanLinesUsed → s.hookStart = 0) ∧ s.prof.lineDoubled = false :=
  ⟨⟨atLine 3 t3 30 0, mayTick_of (by decide), by decide⟩, atLine 0 t4 264 234, mayTick_of (by decide), by decide⟩

theorem witness_TickFaultsOnAnOutstandingTransfer :
    (∃ s : State, MayTick s ∧ 30 ≤ s.line ∧ s.line < 30 + s.prof.scanLinesUsed ∧ s.dma ≠ .idle) ∧
    ∃ s : State, MayTick s ∧ 30 ≤ s.line ∧ s.line < 30 + s.prof.scanLinesUsed ∧ s.donePending = true :=
  ⟨⟨{ atLine 2 t2 31 2 with dma := .busy 0 2 1 }, mayTick_of (by decide), by decide⟩,
    { atLine 2 t2 31 2 with donePending := true }, mayTick_of (by decide), by decide⟩

theorem witness_TickCallsTheHooksAtTheirLines :
    (∃ s : State, MayTick s ∧ 1 ≤ s.prof.scanLinesUsed ∧ s.line = 4 ∧ s.hookEnd ≠ 0) ∧
    ∃ s : State, MayTick s ∧ 1 ≤ s.prof.scanLinesUsed ∧ s.line = 29 + s.prof.scanLinesUsed ∧ s.hookStart ≠ 0 ∧
      s.dma = .idle ∧ s.donePending = false :=
  ⟨⟨{ atLine 0 t0 4 0 with hookEnd := 9 }, mayTick_of (by decide), by decide⟩,
    { atLine 0 t0 245 6020 with hookStart := 7 }, mayTick_of (by decide), by decide⟩

theorem witness_HookretFinishesTheTick :
    (∃ s : State, MayHookret s ∧ s.line = 4) ∧ ∃ s : State, MayHookret s ∧ s.line = 264 :=
  ⟨⟨inHookOf .fin 9 0, ⟨rfl, rfl, .fin, 9, rfl⟩, rfl⟩,
    { inHookOf .start 7 0 with line := 264 }, ⟨rfl, rfl, .start, 7, rfl⟩, rfl⟩

theorem witness_DmabyteSendsTheNextByte :
    (∃ (s : State) (off n i : Nat) (b : Byte), s.active = true ∧ s.fault = none ∧ s.dma = .busy off n i ∧
      s.readByte (off + i) = some b ∧ i + 1 < n) ∧
    ∃ (s : State) (off n i : Nat) (b : Byte), s.active = true ∧ s.fault = none ∧ s.dma = .busy off n i ∧
      s.readByte (off + i) = some b ∧ ¬ i + 1 < n :=
  ⟨⟨{ bench 2 t2 with dma := .busy 2 2 0 }, 2, 2, 0, 0, by decide⟩, { bench 2 t2 with dma := .busy 2 2 1 }, 2, 2, 1, 0,
    by decide⟩

theorem witness_TransferSendsTheWholeRow :
    ∃ (s : State) (m : Memory) (off n : Nat), s.active = true ∧ s.fault = none ∧ s.fb = some m ∧
      s.dma = .busy off n 0 ∧ 1 ≤ n ∧ off + n ≤ fbSize s.prof :=
  ⟨{ bench 2 t2 with dma := .busy 2 2 0 }, [], 2, 2, by decide⟩

theorem witness_ActiveTickSendsTheRowOfItsLine :
    (∃ s : State, RunInv s ∧ MayTick s ∧ s.line = 31 ∧ s.line < 30 + s.prof.scanLinesUsed ∧ s.dma = .idle ∧
      s.donePending = false ∧ s.prof.lineDoubled = false) ∧
    ∃ s : State, RunInv s ∧ MayTick s ∧ s.line = 30 ∧ s.line < 30 + s.prof.scanLinesUsed ∧ s.dma = .idle ∧
      s.donePending = false ∧ s.prof.lineDoubled = true :=
  ⟨⟨atLine 2 t2 31 2, runInv_of (by decide) (by decide) rfl (by decide) rfl rfl rfl rfl (by decide) rfl rfl,
      mayTick_of (by decide), by decide⟩,
    atLine 3 t3 30 0, runInv_of (by decide) (by decide) rfl (by decide) rfl rfl rfl rfl (by decide) rfl rfl,
    mayTick_of (by decide), by decide⟩

theorem witness_DmadoneForcesTheLineIdle : ∃ s : State, MayDmadone s :=
  ⟨{ bench 2 t2 with donePending := true }, rfl, rfl, rfl, rfl, rfl⟩

theorem witness_TickHasPriorityOverDone :
    (∃ s : State, s.active = true ∧ s.fault = none ∧ s.donePending = true ∧ s.tickPhase ≠ .idle) ∧
    (∃ s : State, s.active = true ∧ s.fault = none ∧ s.donePending = true ∧ s.tickPending = true ∧ MayTick s ∧
      s.line < 30) ∧
    ∃ s : State, s.active = true ∧ s.fault = none ∧ s.donePending = true ∧ MayTick s ∧ 30 ≤ s.line ∧
      s.line < 30 + s.prof.scanLinesUsed :=
  ⟨⟨{ inHookOf .start 7 0 with donePending := true }, by decide⟩,
    ⟨{ atLine 2 t2 5 0 with donePending := true }, rfl, rfl, rfl, rfl, mayTick_of (by decide), by decide⟩,
    { atLine 2 t2 31 2 with donePending := true }, rfl, rfl, rfl, mayTick_of (by decide), by decide, by decide⟩

theorem witness_OnlyListedRulesWriteEachField : ∃ (i : Instr) (s t : State), exec i s = .next t ∧ t.fb ≠ s.fb :=
  ⟨.cmdEnd, bench 2 t2, { ((bench 2 t2).stopped.record .ended) with hpc := 1 }, rfl, by decide⟩

theorem firstLine_step :
    step firstLine = .next { firstLine with tickPending := true, timerPhase := .nextBoundary, sched := [] } := rfl

theorem witness_ProfileIsConstantWhileActive : ∃ s t : State, s.active = true ∧ step s = .next t :=
  ⟨firstLine, _, rfl, firstLine_step⟩

theorem witness_HistoryOnlyGrows : ∃ s t : State, step s = .next t := ⟨firstLine, _, firstLine_step⟩

theorem witness_BaseAddressInfluencesNothing :
    ∃ (i : Instr) (s u v t : State) (c : Fault) (r : Refusal),
      (∀ x, i ≠ .cmdRdreg .fbbase ∧ i ≠ .cmdPolleq .fbbase x ∧ i ≠ .cmdPollne .fbbase x) ∧ exec i s = .next t ∧
      exec i u = .fault c ∧ exec i v = .refused r :=
  ⟨.cmdFbrd 3, bench 2 t2, { bench 2 t2 with fault := some .fbRange }, { bench 2 t2 with fb := none },
    { bench 2 t2 with hist := [.read (.fb 3) 0], hpc := 1 }, .fbRange, .outsideEveryRun, by simp, rfl, rfl, rfl⟩

theorem witness_LineCycleVisitsEveryLineOnce :
    ∃ (s : State) (l l' : Nat), 1 ≤ s.line ∧ s.line ≤ 264 ∧ l = 1 ∧ l' = 264 := ⟨bench 2 t2, 1, 264, by decide⟩

theorem witness_StepKeepsTheEngineInvariant : ∃ s t : State, RunInv s ∧ step s = .next t :=
  ⟨firstLine, _, firstLine_inv, firstLine_step⟩

theorem witness_StepAlwaysAnswersInARun : ∃ s : State, RunInv s ∧ s.fault = none := ⟨firstLine, firstLine_inv, rfl⟩

theorem firstLine_timing : TimingInv firstLine :=
  ⟨by simp [NoMiss, firstLine], fun _ _ => ⟨rfl, rfl⟩, by decide⟩

theorem firstLine_pulses : PulseInv firstLine := by
  refine ⟨?_, fun _ _ => rfl, by decide, by decide⟩
  simp [firstLine, PulsesInOrder, pulseDuty]

theorem witness_DeadlinesHoldUnderTimingAssumptions :
    ∃ s t : State, s.params.timingAssumptions = true ∧ RunInv s ∧ TimingInv s ∧ step s = .next t :=
  ⟨firstLine, _, rfl, firstLine_inv, firstLine_timing, firstLine_step⟩

theorem witness_PulsesStayInOrderUnderTimingAssumptions :
    ∃ s t : State, s.params.timingAssumptions = true ∧ RunInv s ∧ TimingInv s ∧ PulseInv s ∧ step s = .next t :=
  ⟨firstLine, _, rfl, firstLine_inv, firstLine_timing, firstLine_pulses, firstLine_step⟩

theorem witness_HistoryDeterminesSerialLineAndFault :
    ∃ s t : State, SerialFollowsHistory s ∧ FaultFollowsHistory s ∧ step s = .next t :=
  ⟨firstLine, _, rfl, by simp [FaultFollowsHistory, firstLine, bench, State.reset], firstLine_step⟩

theorem witness_PixelsGoMostSignificantBitFirst : ∃ (p : Profile) (x : Nat), x < 8 * p.rowByteWidth ∧ x = 15 :=
  ⟨t2, 15, by decide⟩

theorem witness_ResetMeetsTheInvariants : ∃ c : Params, c.wf = true ∧ c ≠ Config.resetParams :=
  ⟨{ Config.resetParams with profileTable := [t2], pollDense := true, timingAssumptions := false }, by decide⟩

theorem witness_LineRecordsFollowTheHistory :
    (∃ after period : List Event, PeriodOf after period ∧ (∀ l off, Event.rowStart l off ∉ period) ∧
      after = [.tick 1, .pulse 2 .narrow]) ∧
    ∃ (after a c rest : List Event) (l off : Nat), after = a ++ .rowStart l off :: (c ++ rest) ∧
      (∀ l' d, Event.pulse l' d ∉ a) ∧ (∀ l' off', Event.rowStart l' off' ∉ a) ∧
      (∀ e ∈ c, unseen e = true ∨ e = .idleForced ∨ ∃ l' d, e = .pulse l' d) ∧ rest.head? = some (.rowEnd off) ∧
      c ≠ [] :=
  ⟨⟨_, [.tick 1], ⟨by simp, .inr ⟨2, .narrow, [], rfl⟩⟩, by simp, rfl⟩,
    _, [.tick 30], [.pixByte 0 0xA5, .pulse 31 .narrow, .pixByte 1 0x0F], [.rowEnd 0], 30, 0, rfl, by simp, by simp,
    by simp [unseen], rfl, by simp⟩

theorem witness_PeriodShowsItsStretchesInOrder :
    (∃ a b after : List Event, (a ++ b).all unseen = true ∧ PeriodOf after (a ++ [.idleForced] ++ b)) ∧
    (∃ a b after : List Event, (a ++ b).all unseen = true ∧ PeriodOf after (a ++ [] ++ b)) ∧
    (∃ (a b c e f after : List Event) (l off : Nat), (a ++ b ++ c ++ e ++ f).all unseen = true ∧
      PeriodOf after (a ++ [.idleForced] ++ b ++ [.rowStart l off] ++ c ++ [.rowEnd off] ++ e ++ [.idleForced] ++ f)) ∧
    (∃ after period : List Event, PeriodOf after period ∧ Event.ended ∈ period) ∧
    ∃ after : List Event, (∀ l d, Event.pulse l d ∉ after) ∧ Event.ended ∉ after ∧
      after.foldl serAfter .residual = .shifting :=
  ⟨⟨[], [.tick 1], _, by decide, by simp, .inr ⟨2, .narrow, [], rfl⟩⟩,
    ⟨[], [.tick 1], _, by decide, by simp, .inl rfl⟩,
    ⟨[], [.tick 31], [.pixByte 2 0xFF, .pixByte 3 0x00], [], [], _, 31, 2, by decide, by simp,
      .inr ⟨32, .narrow, [], rfl⟩⟩,
    ⟨_, [.tick 1, .ended], ⟨by simp, .inl rfl⟩, by simp⟩,
    [.rowStart 30 0], by simp, by simp, rfl⟩

end Sys2Proof.Tests
end

/-! ### Events whose enabling condition fails (R6; log 4) -/

section

namespace Sys2Proof.Safety

open Sys2Proof.Machine

theorem boundaryEnabled_iff {s : State} (hf : s.fault = none) : boundaryEnabled s = true ↔ MayBoundary s := by
  unfold boundaryEnabled MayBoundary
  cases s.params.timingAssumptions <;> simp [hf, and_assoc]

theorem compareEnabled_iff {s : State} (hf : s.fault = none) : compareEnabled s = true ↔ MayCompare s := by
  unfold compareEnabled MayCompare
  cases s.params.timingAssumptions <;> simp [hf, and_assoc]

theorem insidePoll_iff {s : State} : insidePoll s = true ↔ InsidePoll s := by
  unfold insidePoll InsidePoll
  rcases s.mainOp with - | ⟨_ | _ | _⟩ <;> simp

theorem tickEnabled_iff {s : State} (hf : s.fault = none) : tickEnabled s = true ↔ MayTick s := by
  unfold tickEnabled MayTick
  rw [← insidePoll_iff]
  cases s.params.pollDense <;> cases insidePoll s <;> simp [hf, and_assoc]

theorem hookretEnabled_iff {s : State} (hf : s.fault = none) : hookretEnabled s = true ↔ MayHookret s := by
  unfold hookretEnabled MayHookret
  cases s.tickPhase <;> simp [hf, and_comm]

theorem dmadoneEnabled_iff {s : State} (hf : s.fault = none) : dmadoneEnabled s = true ↔ MayDmadone s := by
  simp [dmadoneEnabled, MayDmadone, hf, and_assoc]

/-- DMABYTE has no guard of its own name in its meaning: it holds by its two matches (R96). -/
theorem execDmabyte_hold {s : State} (hf : s.fault = none) (h : ¬ MayDmabyte s) : execDmabyte s = .next s := by
  rw [execDmabyte, State.unlessFaulted_of_none hf]
  split
  · next ha =>
    split
    · rfl
    · next off n i hd => exact absurd ⟨ha, hf, off, n, i, hd⟩ h
  · rfl

/-- A guarded meaning whose condition fails holds (log 4). -/
theorem unlessFaulted_guard_hold {s : State} {enabled : Bool} {May : Prop} {k : Result} (hf : s.fault = none)
    (hm : enabled = true ↔ May) (h : ¬ May) :
    s.unlessFaulted (if enabled then k else s.hold) = .next s := by
  rw [State.unlessFaulted_of_none hf, if_neg (mt hm.1 h), State.hold]

end Sys2Proof.Safety

open Sys2Proof Sys2Proof.Machine Sys2Proof.Safety

/-- Settles O9: each meaning's guard is its rule's "Enabled when", and where the guard fails the meaning holds. -/
theorem disabledEventChangesNothing : Obligations.DisabledEventChangesNothing := fun _ hf =>
  ⟨unlessFaulted_guard_hold hf (boundaryEnabled_iff hf), unlessFaulted_guard_hold hf (compareEnabled_iff hf),
    unlessFaulted_guard_hold hf (tickEnabled_iff hf), unlessFaulted_guard_hold hf (hookretEnabled_iff hf),
    execDmabyte_hold hf, unlessFaulted_guard_hold hf (dmadoneEnabled_iff hf)⟩

end

/-! ### What a step answers where the configuration is admitted (R6, R10, R11, R116) -/

section

namespace Sys2Proof.Machine

/-- The states that the spec derives to be unreachable and in which an instruction is refused as outsideEveryRun
(log 9): each case names what is missing. -/
inductive OutsideEveryRun (s : State) : Prop
  | noFramebuffer (active : s.active = true) (missing : s.fb = none)
  | emptyFramebuffer (active : s.active = true) (empty : fbSize s.prof = 0)
  | transfer (off n i : Nat) (busy : s.dma = .busy off n i) (outside : fbSize s.prof ≤ off + i)
  | clearNothing (clearing : s.currentOp = some (.clear []))
  | clearNoFramebuffer (left : List Nat) (clearing : s.currentOp = some (.clear left)) (missing : s.fb = none)
  | clearOutside (left : List Nat) (clearing : s.currentOp = some (.clear left)) (r : Nat) (mem : r ∈ left)
      (outside : fbSize s.prof ≤ r)

/-- An instruction's answer from a state that is not faulted: a next state, or the refusal of log 9 with its reason. -/
def Answers (s : State) (k : Result) : Prop :=
  (∃ t, k = .next t) ∨ (k = .refused .outsideEveryRun ∧ OutsideEveryRun s)

theorem answers_next (s t : State) : Answers s (.next t) := .inl ⟨t, rfl⟩

theorem answers_hold (s t : State) : Answers s t.hold := answers_next s t

theorem answers_outside {s : State} (h : OutsideEveryRun s) : Answers s (.refused .outsideEveryRun) := .inr ⟨rfl, h⟩

/-- The guard on a faulted state is passed where no fault is set (R116). -/
theorem Answers.unlessFaulted {s : State} {k : Result} (hf : s.fault = none) (h : Answers s k) :
    Answers s (s.unlessFaulted k) := by
  rwa [State.unlessFaulted_of_none hf]

/-- A branch answers where both of its branches do. -/
theorem Answers.ite {s : State} {c : Prop} [Decidable c] {a b : Result} (ha : c → Answers s a)
    (hb : ¬ c → Answers s b) : Answers s (if c then a else b) := by
  split
  · next h => exact ha h
  · next h => exact hb h

/-- A check that raises its fault, or any other next state, answers where what follows it does. -/
theorem answers_check {s t : State} {c : Prop} [Decidable c] {k : Result} (hk : ¬ c → Answers s k) :
    Answers s (if c then .next t else k) :=
  .ite (fun _ => answers_next s t) hk

/-- A meaning that is one branch between two next states. -/
theorem answers_branch {s t u : State} {c : Prop} [Decidable c] (hf : s.fault = none) :
    Answers s (s.unlessFaulted (if c then .next t else .next u)) :=
  .unlessFaulted hf <| answers_check fun _ => answers_next _ _

theorem State.readByte_eq_none {s : State} {off : Nat} :
    s.readByte off = none ↔ s.fb = none ∨ fbSize s.prof ≤ off := by
  unfold State.readByte
  cases s.fb <;> simp

theorem State.writeByte_eq_none {s : State} {off : Nat} {v : Byte} :
    s.writeByte off v = none ↔ s.fb = none ∨ fbSize s.prof ≤ off := by
  unfold State.writeByte
  cases s.fb <;> simp

/-- One step of CLEAR answers a next state, or nothing is left to zero, or a byte that is left cannot be written. -/
theorem clearStep_cases (left : List Nat) (s : State) :
    (∃ t, clearStep left s = .next t) ∨
      (clearStep left s = .refused .outsideEveryRun ∧
        (left = [] ∨ s.fb = none ∨ ∃ r ∈ left, fbSize s.prof ≤ r)) := by
  unfold clearStep
  split
  · next hr =>
    refine .inr ⟨rfl, .inl ?_⟩
    by_contra hl
    exact absurd (List.getElem?_eq_none_iff.1 hr) (Nat.not_le.2 (Nat.mod_lt _ (List.length_pos_iff.2 hl)))
  · next r hr =>
    split
    · next hw =>
      rw [State.writeByte_eq_none, State.drawNat_fb, State.drawNat_prof] at hw
      exact .inr ⟨rfl, .inr (hw.imp_right fun ho => ⟨r, List.mem_of_getElem? hr, ho⟩)⟩
    · exact .inl (by dsimp only; split <;> exact ⟨_, rfl⟩)

theorem execClear_answers {s : State} (hf : s.fault = none) : Answers s (execClear s) := by
  refine Answers.unlessFaulted hf ?_
  split
  · next left hc =>
    rw [State.clearLeft_eq_some] at hc
    obtain h | ⟨h, rfl | hn | ⟨r, hr, ho⟩⟩ := clearStep_cases left s
    · exact .inl h
    · exact .inr ⟨h, .clearNothing hc⟩
    · exact .inr ⟨h, .clearNoFramebuffer left hc hn⟩
    · exact .inr ⟨h, .clearOutside left hc r hr ho⟩
  · refine answers_check fun ha => ?_
    have ha' : s.active = true := by simpa using ha
    obtain h | ⟨h, he | hn | ⟨r, hr, ho⟩⟩ := clearStep_cases (List.range (fbSize s.prof)) s
    · exact .inl h
    · exact .inr ⟨h, .emptyFramebuffer ha' (List.range_eq_nil.1 he)⟩
    · exact .inr ⟨h, .noFramebuffer ha' hn⟩
    · exact absurd (List.mem_range.1 hr) (Nat.not_lt.2 ho)

theorem execFbrd_answers {s : State} (hf : s.fault = none) (off : Half) : Answers s (execFbrd off s) := by
  refine Answers.unlessFaulted hf <| answers_check fun ha => answers_check fun hr => ?_
  split
  · next hn =>
    exact answers_outside (.noFramebuffer (by simpa using ha) ((State.readByte_eq_none.1 hn).resolve_right hr))
  · exact answers_next _ _

theorem execFbwr_answers {s : State} (hf : s.fault = none) (data : Byte) (off : Half) :
    Answers s (execFbwr data off s) := by
  refine Answers.unlessFaulted hf <| answers_check fun ha => answers_check fun hr => ?_
  split
  · next hn =>
    exact answers_outside (.noFramebuffer (by simpa using ha) ((State.writeByte_eq_none.1 hn).resolve_right hr))
  · exact answers_next _ _

theorem execDmabyte_answers {s : State} (hf : s.fault = none) : Answers s (execDmabyte s) := by
  refine Answers.unlessFaulted hf <| Answers.ite (fun ha => ?_) fun _ => answers_hold _ _
  split
  · exact answers_hold _ _
  · next off n i hd =>
    split
    · next hn =>
      obtain hn | ho := State.readByte_eq_none.1 hn
      · exact answers_outside (.noFramebuffer ha hn)
      · exact answers_outside (.transfer off n i hd ho)
    · exact answers_next _ _

/-- The profile a BEGIN mode selects is in the table of an admitted configuration (R10, R103). -/
theorem resolveMode_lt {c : Params} (hw : c.wf = true) (mode : Byte) :
    resolveMode c mode < c.profileTable.length := by
  obtain ⟨-, -, hd, -⟩ := (params_wf_iff c).1 hw
  unfold resolveMode
  split <;> assumption

theorem execBegin_answers {s : State} (hf : s.fault = none) (hw : s.params.wf = true) (mode : Byte) :
    Answers s (execBegin mode s) := by
  refine Answers.unlessFaulted hf <| answers_check fun _ => answers_check fun _ => ?_
  rw [List.getElem?_eq_getElem (resolveMode_lt hw mode)]
  exact answers_check fun _ => answers_next _ _

theorem pollAttempt_answers (e : Bool) (r : Reg) (v : Half) (s : State) : Answers s (pollAttempt e r v s) :=
  answers_check fun _ => answers_check fun _ => answers_check fun _ => answers_next _ _

theorem waitAttempt_answers (rem : Nat) (ph : WaitPhase) (fl : Nat) (s : State) :
    Answers s (waitAttempt rem ph fl s) := by
  cases ph with
  | seekEq => exact answers_next _ _
  | seekNe =>
    exact answers_check fun _ => answers_check fun _ => answers_next _ _

theorem execWaitf_answers {s : State} (hf : s.fault = none) (n : Half) : Answers s (execWaitf n s) := by
  refine Answers.unlessFaulted hf <| answers_check fun _ => ?_
  split
  · exact waitAttempt_answers _ _ _ s
  · exact answers_check fun _ => answers_check fun _ => waitAttempt_answers _ _ _ s

/-- Every instruction answers from a state that is not faulted, where the configuration is admitted. -/
theorem exec_answers {s : State} (hf : s.fault = none) (hw : s.params.wf = true) (i : Instr) :
    Answers s (exec i s) := by
  cases i with
  | cmdBegin mode => exact execBegin_answers hf hw mode
  | cmdEnd =>
    exact Answers.unlessFaulted hf <| answers_check fun _ => answers_check fun _ => answers_next _ _
  | cmdClear => exact execClear_answers hf
  | cmdFbrd off => exact execFbrd_answers hf off
  | cmdFbwr data off => exact execFbwr_answers hf data off
  | cmdSethook kind handle => exact Answers.unlessFaulted hf <| answers_next _ _
  | cmdRdreg reg => exact answers_branch hf
  | cmdPolleq reg value => exact Answers.unlessFaulted hf <| pollAttempt_answers _ _ _ s
  | cmdPollne reg value => exact Answers.unlessFaulted hf <| pollAttempt_answers _ _ _ s
  | cmdWaitf n => exact execWaitf_answers hf n
  | evBoundary => exact answers_branch hf
  | evCompare => exact answers_branch hf
  | evTick => exact answers_branch hf
  | evHookret => exact answers_branch hf
  | evDmabyte => exact execDmabyte_answers hf
  | evDmadone => exact answers_branch hf

/-- A step from a state that is not faulted, where the configuration is admitted. -/
theorem step_answers {s : State} (hf : s.fault = none) (hw : s.params.wf = true) :
    Answers s.takeAgent.2 (step s) := by
  unfold step
  simp only [hf, hw, if_true]
  split
  · exact exec_answers (by simpa using hf) (by simpa using hw) _
  · exact answers_next _ _
  · exact answers_hold _ _

/-- No run starts from a configuration that is not admitted (R11; log 10). -/
theorem step_not_wf {s : State} (hf : s.fault = none) (hw : ¬ s.params.wf = true) :
    step s = .refused .configurationNotAdmitted := by
  unfold step
  simp only [hf, if_neg hw]

end Sys2Proof.Machine

namespace Sys2Proof.Safety

open Sys2Proof.Machine

/-- The CLEAR in progress in a run's running context has offsets of the framebuffer left (R105). -/
theorem RunInv.clearOk {s : State} (h : RunInv s) {left : List Nat} (hc : s.currentOp = some (.clear left)) :
    ClearOk s left := by
  unfold State.currentOp at hc
  split at hc
  · obtain ⟨left', he, hk⟩ := h.progress.hookClear _ hc
    cases he
    exact hk
  · exact h.progress.mainClear left hc

theorem RunInv.fbSize_pos {s : State} (h : RunInv s) (ha : s.active = true) : 0 < fbSize s.prof :=
  Nat.mul_pos (h.profileFacts ha).rowBytes (h.profileFacts ha).height

theorem RunInv.fb_ne_none {s : State} (h : RunInv s) (ha : s.active = true) : s.fb ≠ none := by
  obtain ⟨m, hm, -, -⟩ := h.engine.framebuffer ha
  simp [hm]

/-- The run invariant excludes every state that is refused as outsideEveryRun: log 9's derivation. -/
theorem RunInv.not_outsideEveryRun {s : State} (h : RunInv s) : ¬ OutsideEveryRun s := by
  intro ho
  cases ho with
  | noFramebuffer ha hn => exact h.fb_ne_none ha hn
  | emptyFramebuffer ha he => exact (h.fbSize_pos ha).ne' he
  | transfer off n i hd ho =>
    obtain ⟨hi, -, -, hle⟩ := h.engine.transfer off n i hd
    omega
  | clearNothing hc =>
    obtain ⟨-, hne, -, -⟩ := h.clearOk hc
    exact hne rfl
  | clearNoFramebuffer left hc hn =>
    obtain ⟨ha, -, -, -⟩ := h.clearOk hc
    exact h.fb_ne_none ha hn
  | clearOutside left hc r hr ho =>
    obtain ⟨-, -, -, hlt⟩ := h.clearOk hc
    exact absurd (hlt r hr) (Nat.not_lt.2 ho)

end Sys2Proof.Safety

open Sys2Proof Sys2Proof.Machine Sys2Proof.Safety

/-- Settles O12: where the check of R10 and R11 passes, a step answers, or refuses by the other name only. -/
theorem illFormedConfigurationIsRefused : Obligations.IllFormedConfigurationIsRefused := by
  intro s hf
  rw [← params_wf_iff]
  refine ⟨fun hr hw => ?_, step_not_wf hf⟩
  obtain ⟨t, ht⟩ | ⟨ho, -⟩ := step_answers hf hw
  · simp [ht] at hr
  · simp [ho] at hr

/-- Settles O53: a run's configuration is admitted, so a step answers a next state unless the state is outside every
run, which the run invariant excludes. -/
theorem stepAlwaysAnswersInARun : Obligations.StepAlwaysAnswersInARun := fun _ h hf =>
  (step_answers hf h.engine.config).resolve_right fun ho => h.take.not_outsideEveryRun ho.2

end

/-! ### The history only grows (R16, R35) -/

section

namespace Sys2Proof.Machine

/-- `t` follows `s`: its history is that of `s` with events appended, and its parameters are the same (R13, R35). -/
structure Follows (s t : State) : Prop where
  hist : s.hist <+: t.hist
  params : t.params = s.params

theorem Follows.of_append {s t : State} (l : List Event) (hh : t.hist = s.hist ++ l) (hp : t.params = s.params) :
    Follows s t := ⟨⟨l, hh.symm⟩, hp⟩

theorem Follows.refl (s : State) : Follows s s := ⟨List.prefix_rfl, rfl⟩

theorem Follows.trans {s t u : State} (h : Follows s t) (k : Follows t u) : Follows s u :=
  ⟨h.hist.trans k.hist, k.params.trans h.params⟩

theorem Follows.record (s : State) (e : Event) : Follows s (s.record e) := .of_append [e] rfl rfl

theorem Follows.raise (s : State) (c : Fault) : Follows s (s.raise c) := .of_append [.faulted c] rfl rfl

theorem CommandFrame.follows {s t : State} (h : CommandFrame s t) : Follows s t := by
  obtain ⟨l, hl, -, -⟩ := h.hist
  exact .of_append l hl h.engine.params

theorem execBegin_follows {m : Byte} {s t : State} (h : execBegin m s = .next t) : Follows s t := by
  obtain ⟨-, ⟨-, rfl⟩ | ⟨-, -, rfl⟩ | ⟨-, -, p, -, ⟨-, rfl⟩ | ⟨-, rfl⟩⟩⟩ := execBegin_next h
  · exact .raise s _
  · exact .raise s _
  · exact .raise s _
  · exact .of_append [.begun (resolveMode s.params m), .pulse 1 .narrow] (by simp [State.begin])
      (by simp [State.begin])

theorem execEnd_follows {s t : State} (h : execEnd s = .next t) : Follows s t := by
  obtain ⟨-, ⟨-, rfl⟩ | ⟨-, -, rfl⟩ | ⟨-, -, rfl⟩⟩ := execEnd_next h
  · exact .raise s _
  · exact .raise s _
  · exact .of_append [.ended] (by simp [State.stopped]) (by simp [State.stopped])

theorem State.latch_follows (s : State) : Follows s s.latch := .of_append [.pulse s.line s.dutyNext] rfl rfl

theorem execBoundary_follows {s t : State} (h : execBoundary s = .next t) : Follows s t := by
  obtain ⟨-, ⟨-, rfl⟩ | ⟨-, rfl⟩⟩ := execBoundary_next h
  · exact .refl _
  · split
    · exact (Follows.record _ _).trans (State.latch_follows _)
    · exact State.latch_follows _

theorem execCompare_follows {s t : State} (h : execCompare s = .next t) : Follows s t := by
  obtain ⟨-, ⟨-, rfl⟩ | ⟨-, rfl⟩⟩ := execCompare_next h
  · exact .refl _
  · split
    · exact .of_append [.lostTick s.line] rfl rfl
    · exact .of_append [] (by simp) rfl

theorem State.finishTick_follows (s : State) (c : Nat) : Follows s (s.finishTick c) := by
  obtain ⟨-, -, h⟩ | ⟨-, -, -, h⟩ | ⟨-, -, h⟩ := s.finishTick_cases c <;> rw [h]
  · exact .of_append [.hookCall .fin s.hookEnd c] (by simp) (by simp)
  · exact .of_append [.hookCall .start s.hookStart c] (by simp) (by simp)
  · exact .of_append [] (by simp) (by simp)

theorem State.enterTick_follows (s : State) : Follows s s.enterTick := .of_append [.tick s.line] rfl rfl

theorem State.dispatchRow_follows (s : State) : Follows s s.dispatchRow :=
  .of_append [.tick s.line, .rowStart s.line s.cursor] (by simp [State.dispatchRow, State.enterTick]) rfl

theorem State.runTick_follows (s : State) : Follows s s.runTick := by
  obtain ⟨-, h⟩ | ⟨-, -, h⟩ | ⟨-, -, h⟩ := s.runTick_cases <;> rw [h]
  · exact s.enterTick_follows.trans (State.finishTick_follows _ _)
  · exact s.enterTick_follows.trans (.raise _ _)
  · exact s.dispatchRow_follows.trans (State.finishTick_follows _ _)

theorem execTick_follows {s t : State} (h : execTick s = .next t) : Follows s t := by
  obtain ⟨-, ⟨-, rfl⟩ | ⟨-, rfl⟩⟩ := execTick_next h
  · exact .refl _
  · exact s.runTick_follows

theorem execHookret_follows {s t : State} (h : execHookret s = .next t) : Follows s t := by
  obtain ⟨-, ⟨-, rfl⟩ | ⟨-, rfl⟩⟩ := execHookret_next h
  · exact .refl _
  · exact .of_append [.hookRet s.line] (by simp [State.returnFromHook]) (by simp [State.returnFromHook])

theorem execDmabyte_follows {s t : State} (h : execDmabyte s = .next t) : Follows s t := by
  obtain ⟨-, ⟨-, rfl⟩ | ⟨-, off, n, i, b, -, -, rfl⟩⟩ := execDmabyte_next h
  · exact .refl _
  · obtain ⟨-, h⟩ | ⟨-, h⟩ := s.shiftByte_cases off n i b <;> rw [h]
    · exact .of_append [.pixByte (off + i) b] rfl rfl
    · exact .of_append [.pixByte (off + i) b, .rowEnd off] (by simp) rfl

theorem execDmadone_follows {s t : State} (h : execDmadone s = .next t) : Follows s t := by
  obtain ⟨-, ⟨-, rfl⟩ | ⟨-, rfl⟩⟩ := execDmadone_next h
  · exact .refl _
  · exact .of_append [.idleForced] rfl rfl

/-- Every instruction only appends to the history and keeps the parameters. -/
theorem exec_follows {i : Instr} {s t : State} (h : exec i s = .next t) : Follows s t := by
  cases i with
  | cmdBegin mode => exact execBegin_follows h
  | cmdEnd => exact execEnd_follows h
  | evBoundary => exact execBoundary_follows h
  | evCompare => exact execCompare_follows h
  | evTick => exact execTick_follows h
  | evHookret => exact execHookret_follows h
  | evDmabyte => exact execDmabyte_follows h
  | evDmadone => exact execDmadone_follows h
  | cmdClear | cmdFbrd | cmdFbwr | cmdSethook | cmdRdreg | cmdPolleq | cmdPollne | cmdWaitf =>
    exact (exec_command_frame rfl (by simp [Instr.mnemonic]) (by simp [Instr.mnemonic]) h).follows

theorem State.takeAgent_follows (s : State) : Follows s s.takeAgent.2 := .of_append [] (by simp) (by simp)

/-- Every step only appends to the history and keeps the parameters. -/
theorem step_follows {s t : State} (h : step s = .next t) : Follows s t := by
  obtain ⟨-, -, ⟨i, -, hi⟩ | ⟨-, rfl⟩ | ⟨-, rfl⟩⟩ := step_next h
  · exact s.takeAgent_follows.trans (exec_follows hi)
  · exact s.takeAgent_follows.trans (.raise _ _)
  · exact s.takeAgent_follows

end Sys2Proof.Machine

open Sys2Proof Sys2Proof.Machine

/-- Settles O49: each instruction's next state follows the state it runs in, and so does each step's. -/
theorem historyOnlyGrows : Obligations.HistoryOnlyGrows := by
  intro s t h
  obtain ⟨⟨l, hl⟩, hp⟩ := step_follows h
  exact ⟨⟨l, hl.symm⟩, hp⟩

end

/-! ### Every step keeps the run invariant (R23..R33, R77, R105, R111) -/

section

namespace Sys2Proof.Safety

open Sys2Proof.Machine

/-- The suspended tick's hook, if there is one, has a command at its pointer: what a fetched command gives (R81). -/
def HookAtCommand (s : State) : Prop :=
  ∀ k hd pc, s.tickPhase = .hook k hd pc → pc < (s.hookProgram hd).length

theorem HookAtCommand.congr {s t : State} (h : HookAtCommand s) (ht : t.tickPhase = s.tickPhase)
    (hp : t.params = s.params) : HookAtCommand t := by
  simpa only [HookAtCommand, State.hookProgram, ht, hp] using h

/-! #### Commands -/

/-- After BEGIN the engine is at line 1 with a zeroed framebuffer of the selected profile (R40, R103). -/
theorem RunInv.begin {s : State} (h : RunInv s) {id : Nat} {p : Profile} (base : Word)
    (hp : s.params.profileTable[id]? = some p) (hi : s.inHook = false) : RunInv (s.begin id p base).retire := by
  have hop := h.progress.hookIdle (State.inHook_eq_false.1 hi)
  rw [State.retire_main rfl]
  exact
    { engine :=
        { config := h.engine.config
          profile := fun _ => hp
          line := fun _ => by simp [State.begin]
          framebuffer := fun _ => ⟨[], rfl, rfl, nofun⟩
          inactive := nofun
          transfer := nofun
          serial := by simp [State.begin]
          completion := nofun
          hook := nofun }
      cursor := fun _ => rfl
      progress :=
        { mainClear := nofun
          mainWait := nofun
          mainPoll := nofun
          hookClear := fun op ho => by cases hop.symm.trans ho
          hookIdle := fun _ => hop } }

/-- After END nothing is pending, running or allocated (R40, R104). -/
theorem RunInv.stopped {s : State} (h : RunInv s) (hi : s.inHook = false) :
    RunInv (s.stopped.record .ended).retire := by
  have hidle := State.inHook_eq_false.1 hi
  have hop := h.progress.hookIdle hidle
  rw [State.retire_main (by exact hidle)]
  exact
    { engine :=
        { config := h.engine.config
          profile := nofun
          line := nofun
          framebuffer := nofun
          inactive := fun _ => ⟨rfl, rfl, rfl, rfl, hidle, rfl⟩
          transfer := nofun
          serial := by simp [State.stopped]
          completion := nofun
          hook := fun k hd pc ht => by cases hidle.symm.trans ht }
      cursor := nofun
      progress :=
        { mainClear := nofun
          mainWait := nofun
          mainPoll := nofun
          hookClear := fun op ho => by cases hop.symm.trans ho
          hookIdle := fun _ => hop } }

theorem execBegin_runInv {m : Byte} {s t : State} (h : RunInv s) (he : execBegin m s = .next t) : RunInv t := by
  obtain ⟨-, ⟨-, rfl⟩ | ⟨-, -, rfl⟩ | ⟨hi, -, p, hp, ⟨-, rfl⟩ | ⟨-, rfl⟩⟩⟩ := execBegin_next he
  · exact h.raise _
  · exact h.raise _
  · exact h.raise _
  · exact h.draw.begin _ (by simpa using hp) (by simpa [State.inHook] using hi)

theorem execEnd_runInv {s t : State} (h : RunInv s) (he : execEnd s = .next t) : RunInv t := by
  obtain ⟨-, ⟨-, rfl⟩ | ⟨-, -, rfl⟩ | ⟨hi, -, rfl⟩⟩ := execEnd_next he
  · exact h.raise _
  · exact h.raise _
  · exact h.stopped hi

/-- Zeroing one of the offsets left keeps the invariant, whether that was the last one or not (R105). -/
theorem clearStep_runInv {left : List Nat} {s t : State} (h : RunInv s) (hp : HookAtCommand s)
    (hc : ClearOk s left) (he : clearStep left s = .next t) : RunInv t := by
  obtain ⟨r, m, -, -, hm, hr, ht⟩ := clearStep_next he
  have hu := (h.draw.write (r := r) (v := 0) (by simpa using hm) (by simpa using hr)).record (.fbWrite r 0)
  obtain ⟨-, rfl⟩ | ⟨hne, rfl⟩ := ht
  · exact hu.retire (hp.congr (by simp) (by simp))
  · obtain ⟨ha, -, hnd, hlt⟩ := hc
    exact hu.keepClear _
      ⟨by simpa using ha, hne, hnd.filter _, fun x hx => by simpa using hlt x (List.mem_filter.1 hx).1⟩

theorem execClear_runInv {s t : State} (h : RunInv s) (hp : HookAtCommand s) (he : execClear s = .next t) :
    RunInv t := by
  obtain ⟨-, ⟨left, hop, hs⟩ | ⟨-, -, rfl⟩ | ⟨-, ha, hs⟩⟩ := execClear_next he
  · exact clearStep_runInv h hp (h.clearOk hop) hs
  · exact h.raise _
  · have hne : List.range (fbSize s.prof) ≠ [] := by simpa using (h.fbSize_pos ha).ne'
    exact clearStep_runInv h hp ⟨ha, hne, List.nodup_range, fun x => List.mem_range.1⟩ hs

theorem execFbrd_runInv {off : Half} {s t : State} (h : RunInv s) (hp : HookAtCommand s)
    (he : execFbrd off s = .next t) : RunInv t := by
  obtain ⟨-, ⟨-, rfl⟩ | ⟨-, -, rfl⟩ | ⟨-, v, -, rfl⟩⟩ := execFbrd_next he
  · exact h.raise _
  · exact h.raise _
  · exact (h.record _).retire hp

theorem execFbwr_runInv {data : Byte} {off : Half} {s t : State} (h : RunInv s) (hp : HookAtCommand s)
    (he : execFbwr data off s = .next t) : RunInv t := by
  obtain ⟨-, ⟨-, rfl⟩ | ⟨-, -, rfl⟩ | ⟨-, m, hm, hr, rfl⟩⟩ := execFbwr_next he
  · exact h.raise _
  · exact h.raise _
  · exact ((h.write hm hr).record _).retire hp

theorem execSethook_runInv {k : HookKind} {hd : Half} {s t : State} (h : RunInv s) (hp : HookAtCommand s)
    (he : execSethook k hd s = .next t) : RunInv t := by
  obtain ⟨-, rfl⟩ := execSethook_next he
  exact (h.hookSlot k hd).retire (hp.congr (by simp) (by simp))

theorem execRdreg_runInv {r : Reg} {s t : State} (h : RunInv s) (hp : HookAtCommand s)
    (he : execRdreg r s = .next t) : RunInv t := by
  obtain ⟨-, ⟨-, rfl⟩ | ⟨-, rfl⟩⟩ := execRdreg_next he
  · exact (h.record _).retire hp
  · exact h.raise _

theorem pollAttempt_runInv {e : Bool} {r : Reg} {v : Half} {s t : State} (h : RunInv s) (hp : HookAtCommand s)
    (he : pollAttempt e r v s = .next t) : RunInv t := by
  obtain ⟨-, rfl⟩ | ⟨-, -, rfl⟩ | ⟨-, -, -, rfl⟩ | ⟨hi, hr, -, rfl⟩ := pollAttempt_next he
  · exact h.raise _
  · exact h.raise _
  · exact ((h.polled true).record _).retire hp
  · refine (h.polled true).keepMain hi _ nofun nofun ?_
    rintro _ _ _ ⟨⟩
    simpa [regReadable] using hr

/-- An attempt keeps the invariant from a counter and a line that WAITF itself can have kept (R111). -/
theorem waitAttempt_runInv {rem fl : Nat} {ph : WaitPhase} {s t : State} (h : RunInv s) (hp : HookAtCommand s)
    (hi : s.inHook = false) (ha : s.active = true) (h1 : 1 ≤ rem) (h2 : rem < 65536)
    (hfl : fl = 30 + s.prof.scanLinesUsed) (he : waitAttempt rem ph fl s = .next t) : RunInv t := by
  obtain ⟨rem', ph', hle, hge, rfl⟩ | ⟨-, -, -, rfl⟩ := waitAttempt_next he
  · refine (h.polled true).keepMain hi _ nofun ?_ nofun
    rintro _ _ _ ⟨⟩
    exact ⟨ha, hge h1, by omega, hfl⟩
  · exact ((h.polled true).record _).retire hp

theorem execWaitf_runInv {n : Half} {s t : State} (h : RunInv s) (hp : HookAtCommand s)
    (he : execWaitf n s = .next t) : RunInv t := by
  obtain ⟨-, ⟨-, rfl⟩ | ⟨hi, rem, ph, fl, hop, hw⟩ | ⟨hi, -, ⟨-, rfl⟩ | ⟨-, -, rfl⟩ | ⟨ha, hn, hw⟩⟩⟩ :=
    execWaitf_next he
  · exact h.raise _
  · obtain ⟨ha, h1, h2, hfl⟩ := h.progress.mainWait rem ph fl hop
    exact waitAttempt_runInv h hp hi ha h1 h2 hfl hw
  · exact h.raise _
  · exact h.retire hp
  · have hn1 : 1 ≤ n.toNat := Nat.one_le_iff_ne_zero.2 fun h0 => hn (BitVec.eq_of_toNat_eq h0)
    exact waitAttempt_runInv h hp hi ha hn1 n.isLt rfl hw

/-! #### The tick and its hooks -/

/-- Requesting or taking up the tick of an active engine keeps the invariant (R29). -/
theorem RunInv.tickPending {s : State} (h : RunInv s) (ha : s.active = true) (b : Bool) :
    RunInv { s with tickPending := b } where
  engine := { h.engine with inactive := fun hn => nomatch ha.symm.trans hn }
  cursor := h.cursor
  progress := { h.progress with }

/-- A tick that has dispatched its row and moved the cursor, and has yet to call a hook or to advance the line: the
cursor is the next line's already (R74, R75, R77). -/
structure MidTick (s : State) : Prop where
  engine : EngineInv s
  progress : ProgressInv s
  facts : ProfileFacts s.prof
  active : s.active = true
  idle : s.tickPhase = .idle
  cursor : s.cursor = cursorAt s.prof (s.line + 1)

theorem MidTick.duty {s : State} (h : MidTick s) (d : Duty) : MidTick { s with dutyNext := d } :=
  { h with engine := { h.engine with }, progress := { h.progress with } }

/-- Advancing the line finishes the tick: at the frame's last line the cursor starts again at 0 (R75, R78). -/
theorem MidTick.lineAdvance {s : State} (h : MidTick s) : RunInv s.lineAdvance := by
  rw [lineAdvance_eq]
  refine ⟨{ h.engine with line := fun _ => ?_, hook := fun k hd pc ht => nomatch h.idle.symm.trans ht },
    fun _ => ?_, { h.progress with }⟩
  · dsimp only
    split <;> omega
  by_cases hl : 264 ≤ s.line
  · simp [h.idle, hl, cursorAt_low]
  · simp [h.idle, hl, h.cursor]

/-- The line at which a hook is called (R79): `BLANK_END_LINE` or the last active line. -/
def hookLine (p : Profile) : HookKind → Nat
  | .fin => 4
  | .start => 30 + p.scanLinesUsed - 1

/-- The cursor while a hook runs (R77). -/
def hookCursor (p : Profile) : HookKind → Nat
  | .fin => 0
  | .start => fbSize p

theorem hookOk_iff {s : State} {k : HookKind} {hd : Half} {pc : Nat} :
    HookOk s k hd pc ↔ hd ≠ 0 ∧ pc ≤ (s.hookProgram hd).length ∧ s.line = hookLine s.prof k := by
  cases k <;> rfl

theorem cursorInv_hook {s : State} {k : HookKind} {hd : Half} {pc : Nat} (ht : s.tickPhase = .hook k hd pc) :
    CursorInv s ↔ (s.active = true → s.cursor = hookCursor s.prof k) := by
  cases k <;> simp [CursorInv, hookCursor, ht]

/-- At a hook's line the next line's cursor is the one that stands while the hook runs (R77). -/
theorem cursorAt_hookLine {p : Profile} (hp : ProfileFacts p) (k : HookKind) :
    cursorAt p (hookLine p k + 1) = hookCursor p k := by
  cases k with
  | fin => exact cursorAt_low (by simp [hookLine])
  | start => exact cursorAt_high hp (by simp only [hookLine]; omega)

/-- Calling a registered hook at its line suspends the tick at the start of the hook's program (R79). -/
theorem MidTick.callHook {s : State} (h : MidTick s) {k : HookKind} {hd : Half} (hne : hd ≠ 0)
    (hl : s.line = hookLine s.prof k) (c : Nat) : RunInv (s.callHook k hd c) where
  engine :=
    { h.engine with
      inactive := fun hn => nomatch h.active.symm.trans hn
      hook := by
        rintro _ _ _ ⟨⟩
        exact hookOk_iff.2 ⟨hne, Nat.zero_le _, hl⟩ }
  cursor := by
    have hc := h.cursor
    rw [hl, cursorAt_hookLine h.facts k] at hc
    exact (cursorInv_hook rfl).2 fun _ => hc
  progress := { h.progress with hookIdle := nofun }

/-- Steps 2 to 5 of the tick keep the invariant (R74). -/
theorem MidTick.finishTick {s : State} (h : MidTick s) : RunInv (s.finishTick s.line) := by
  have hd := h.duty (tickDuty s.line)
  obtain ⟨hl, hne, he⟩ | ⟨-, hl, hne, he⟩ | ⟨-, -, he⟩ := s.finishTick_cases s.line <;> rw [he]
  · exact hd.callHook (k := .fin) hne hl _
  · exact hd.callHook (k := .start) hne hl _
  · exact hd.lineAdvance

/-- The tick off the active lines dispatches nothing and leaves the cursor (R75, R77). -/
theorem RunInv.midTick {s : State} (h : RunInv s) (ha : s.active = true) (hi : s.tickPhase = .idle)
    (hl : isActive s.prof s.line = false) : MidTick s := by
  have hf := h.profileFacts ha
  refine ⟨h.engine, h.progress, hf, ha, hi, ?_⟩
  have hc : s.cursor = cursorAt s.prof s.line := by simpa [hi] using h.cursor ha
  have hl' : s.line < 30 ∨ 30 + s.prof.scanLinesUsed ≤ s.line := by
    rw [← Bool.not_eq_true, isActive_iff] at hl
    omega
  obtain hl | hl := hl'
  · rw [hc, cursorAt_low (by omega), cursorAt_low (by omega)]
  · rw [hc, cursorAt_high hf hl, cursorAt_high hf (by omega)]

/-- The tick at an active line starts the transfer of its line's row and moves the cursor to the next line's
(R75, R77, R95). -/
theorem RunInv.dispatchRow {s : State} (h : RunInv s) (ha : s.active = true) (hi : s.tickPhase = .idle)
    (hl : isActive s.prof s.line = true) (ho : dmaOutstanding s = false) : MidTick s.dispatchRow := by
  have hf := h.profileFacts ha
  have hc : s.cursor = cursorAt s.prof s.line := by simpa [hi] using h.cursor ha
  have hdone : s.donePending = false := (Bool.or_eq_false_iff.1 ho).2
  obtain ⟨hlow, hhigh⟩ := (isActive_iff s.line).1 hl
  exact
    { engine :=
        { h.engine with
          inactive := fun hn => nomatch ha.symm.trans hn
          transfer := by
            rintro _ _ _ ⟨⟩
            obtain ⟨hmod, hfit⟩ := cursorAt_row hf hlow hhigh
            rw [← hc] at hmod hfit
            exact ⟨hf.rowBytes, rfl, hmod, hfit⟩
          serial := by simp [State.dispatchRow]
          completion := fun hd => nomatch hdone.symm.trans hd }
      progress := { h.progress with }
      facts := hf
      active := ha
      idle := hi
      cursor := (congrArg (· + _) hc).trans (rowAdvance_cursorAt hlow hhigh) }

theorem RunInv.enterTick {s : State} (h : RunInv s) (ha : s.active = true) : RunInv s.enterTick :=
  (h.tickPending ha false).record _

theorem RunInv.runTick {s : State} (h : RunInv s) (ha : s.active = true) (hi : s.tickPhase = .idle) :
    RunInv s.runTick := by
  obtain ⟨hl, he⟩ | ⟨-, -, he⟩ | ⟨hl, ho, he⟩ := s.runTick_cases <;> rw [he]
  · exact ((h.enterTick ha).midTick ha hi hl).finishTick
  · exact (h.enterTick ha).raise _
  · exact (h.dispatchRow ha hi hl ho).finishTick

theorem execTick_runInv {s t : State} (h : RunInv s) (he : execTick s = .next t) : RunInv t := by
  obtain ⟨hf, ⟨-, rfl⟩ | ⟨hen, rfl⟩⟩ := execTick_next he
  · exact h
  · obtain ⟨ha, -, -, hi, -⟩ := (tickEnabled_iff hf).1 hen
    exact h.runTick ha hi

/-- A suspended tick belongs to an active engine (R29, R40). -/
theorem EngineInv.active_of_hook {s : State} (h : EngineInv s) {k : HookKind} {hd : Half} {pc : Nat}
    (ht : s.tickPhase = .hook k hd pc) : s.active = true := by
  by_contra hn
  obtain ⟨-, -, -, -, hi, -⟩ := h.inactive (by simpa using hn)
  cases hi.symm.trans ht

/-- A hook whose program is done leaves the tick where it was when it called the hook (R82). -/
theorem RunInv.hookDone {s : State} (h : RunInv s) {k : HookKind} {hd : Half} {pc : Nat}
    (ht : s.tickPhase = .hook k hd pc) (hop : s.hookOp = none) (e : Event) :
    MidTick { s.record e with tickPhase := .idle } := by
  have ha := h.engine.active_of_hook ht
  have hf := h.profileFacts ha
  obtain ⟨-, -, hl⟩ := hookOk_iff.1 (h.engine.hook k hd pc ht)
  exact
    { engine := { h.engine with inactive := fun hn => (nomatch ha.symm.trans hn), hook := nofun }
      progress := { h.progress with hookIdle := fun _ => hop }
      facts := hf
      active := ha
      idle := rfl
      cursor := by
        change s.cursor = cursorAt s.prof (s.line + 1)
        rw [hl, cursorAt_hookLine hf, (cursorInv_hook ht).1 h.cursor ha] }

theorem returnFromHook_eq (s : State) :
    s.returnFromHook = ({ s.record (.hookRet s.line) with tickPhase := .idle } : State).lineAdvance := by
  simp only [State.returnFromHook, lineAdvance_eq]

theorem execHookret_runInv {s t : State} (h : RunInv s) (he : execHookret s = .next t) : RunInv t := by
  obtain ⟨hf, ⟨-, rfl⟩ | ⟨hen, rfl⟩⟩ := execHookret_next he
  · exact h
  · obtain ⟨-, hop, k, hd, ht⟩ := (hookretEnabled_iff hf).1 hen
    rw [returnFromHook_eq]
    exact (h.hookDone ht hop _).lineAdvance

/-! #### The line timer and the serializer -/

theorem execBoundary_runInv {s t : State} (h : RunInv s) (he : execBoundary s = .next t) : RunInv t := by
  have hlatch : ∀ {u : State}, RunInv u → RunInv u.latch := fun hu =>
    hu.congr rfl rfl rfl rfl rfl rfl rfl rfl rfl rfl rfl rfl rfl rfl
  obtain ⟨-, ⟨-, rfl⟩ | ⟨-, rfl⟩⟩ := execBoundary_next he
  · exact h
  · split
    · exact hlatch (h.record _)
    · exact hlatch h

theorem execCompare_runInv {s t : State} (h : RunInv s) (he : execCompare s = .next t) : RunInv t := by
  have hrequest : ∀ {u : State}, RunInv u → u.active = true →
      RunInv { u with tickPending := true, timerPhase := .nextBoundary } := fun hu ha =>
    (hu.tickPending ha true).congr rfl rfl rfl rfl rfl rfl rfl rfl rfl rfl rfl rfl rfl rfl
  obtain ⟨hf, ⟨-, rfl⟩ | ⟨hen, rfl⟩⟩ := execCompare_next he
  · exact h
  · obtain ⟨ha, -⟩ := (compareEnabled_iff hf).1 hen
    split
    · exact hrequest (h.record _) ha
    · exact hrequest h ha

/-- A byte of a transfer sent: the transfer goes on inside its row, or its completion is requested (R30, R96). -/
theorem RunInv.shiftByte {s : State} (h : RunInv s) (ha : s.active = true) {off n i : Nat}
    (hd : s.dma = .busy off n i) (b : Byte) : RunInv (s.shiftByte off n i b) := by
  obtain ⟨-, hn, hmod, hfit⟩ := h.engine.transfer off n i hd
  have hshift : s.ser = .shifting := h.engine.serial.1 (by simp [hd])
  obtain ⟨hlt, he⟩ | ⟨-, he⟩ := s.shiftByte_cases off n i b <;> rw [he]
  · refine ⟨{ h.engine with inactive := fun hn => (nomatch ha.symm.trans hn), transfer := ?_, serial := ?_ },
      h.cursor, { h.progress with }⟩
    · rintro _ _ _ ⟨⟩
      exact ⟨hlt, hn, hmod, hfit⟩
    · simp [hshift]
  · exact
      ⟨{ h.engine with
          inactive := fun hn => nomatch ha.symm.trans hn
          transfer := nofun
          serial := by simp
          completion := fun _ => rfl },
        h.cursor, { h.progress with }⟩

theorem execDmabyte_runInv {s t : State} (h : RunInv s) (he : execDmabyte s = .next t) : RunInv t := by
  obtain ⟨-, ⟨-, rfl⟩ | ⟨ha, off, n, i, b, hd, -, rfl⟩⟩ := execDmabyte_next he
  · exact h
  · exact h.shiftByte ha hd b

/-- The line forced idle: no transfer is in flight while a completion is pending (R31, R97). -/
theorem RunInv.forceIdle {s : State} (h : RunInv s) (ha : s.active = true) (hd : s.donePending = true) :
    RunInv { s with ser := .idle, donePending := false } := by
  have hidle : s.dma = .idle := by simpa [h.engine.completion hd] using h.engine.serial
  exact
    ⟨{ h.engine with
        inactive := fun hn => nomatch ha.symm.trans hn
        serial := by simp [hidle]
        completion := nofun },
      h.cursor, { h.progress with }⟩

theorem execDmadone_runInv {s t : State} (h : RunInv s) (he : execDmadone s = .next t) : RunInv t := by
  obtain ⟨hf, ⟨-, rfl⟩ | ⟨hen, rfl⟩⟩ := execDmadone_next he
  · exact h
  · obtain ⟨ha, -, hd, -, -⟩ := (dmadoneEnabled_iff hf).1 hen
    exact (h.forceIdle ha hd).record _

/-! #### Every instruction, every step -/

/-- Every instruction keeps the invariant; a command in a hook does where the hook's program holds one to run. -/
theorem exec_runInv {i : Instr} {s t : State} (h : RunInv s) (hp : i.isEvent = false → HookAtCommand s)
    (he : exec i s = .next t) : RunInv t := by
  cases i with
  | cmdBegin mode => exact execBegin_runInv h he
  | cmdEnd => exact execEnd_runInv h he
  | cmdClear => exact execClear_runInv h (hp rfl) he
  | cmdFbrd off => exact execFbrd_runInv h (hp rfl) he
  | cmdFbwr data off => exact execFbwr_runInv h (hp rfl) he
  | cmdSethook kind handle => exact execSethook_runInv h (hp rfl) he
  | cmdRdreg reg => exact execRdreg_runInv h (hp rfl) he
  | cmdPolleq reg value => exact pollAttempt_runInv h (hp rfl) (State.unlessFaulted_next.1 he).2
  | cmdPollne reg value => exact pollAttempt_runInv h (hp rfl) (State.unlessFaulted_next.1 he).2
  | cmdWaitf n => exact execWaitf_runInv h (hp rfl) he
  | evBoundary => exact execBoundary_runInv h he
  | evCompare => exact execCompare_runInv h he
  | evTick => exact execTick_runInv h he
  | evHookret => exact execHookret_runInv h he
  | evDmabyte => exact execDmabyte_runInv h he
  | evDmadone => exact execDmadone_runInv h he

end Sys2Proof.Safety

open Sys2Proof Sys2Proof.Machine Sys2Proof.Safety

/-- Settles O52: each instruction keeps the run invariant, and a command that a hook runs was fetched from the hook's
program, so the pointer stays inside it. -/
theorem stepKeepsTheEngineInvariant : Obligations.StepKeepsTheEngineInvariant := by
  intro s t h hs
  obtain ⟨-, -, ⟨i, hi, he⟩ | ⟨-, rfl⟩ | ⟨-, rfl⟩⟩ := step_next hs
  · exact exec_runInv h.take (fetch_hook_lt hi) he
  · exact h.take.raise _
  · exact h.take

end

/-! ### Reset and lifecycle (R40, R103, R104, R133) -/

section

namespace Sys2Proof.Safety

open Sys2Proof.Machine

/-- The state at power-on with a configuration of its own. -/
def resetWith (c : Params) : State := { State.reset with params := c }

theorem runInv_resetWith {c : Params} (hw : c.wf = true) : RunInv (resetWith c) where
  engine :=
    { config := hw
      profile := nofun
      line := nofun
      framebuffer := nofun
      inactive := fun _ => ⟨rfl, rfl, rfl, rfl, rfl, rfl⟩
      transfer := nofun
      serial := by simp [resetWith, State.reset]
      completion := nofun
      hook := nofun }
  cursor := nofun
  progress :=
    { mainClear := nofun
      mainWait := nofun
      mainPoll := nofun
      hookClear := nofun
      hookIdle := fun _ => rfl }

theorem timingInv_resetWith (c : Params) : TimingInv (resetWith c) where
  noMiss := ⟨nofun, nofun, nofun⟩
  compareNext := nofun
  tickReady := nofun

theorem pulseInv_resetWith (c : Params) : PulseInv (resetWith c) where
  order := trivial
  current := nofun
  waiting := nofun
  running := nofun

theorem serialFollowsHistory_resetWith (c : Params) : SerialFollowsHistory (resetWith c) := rfl

theorem faultFollowsHistory_resetWith (c : Params) : FaultFollowsHistory (resetWith c) := fun _ =>
  ⟨nofun, nofun⟩

/-- The base address that a draw gives leaves room for the framebuffer (R42). -/
theorem fbBaseOf_add_le {size v : Nat} (h : size ≤ 2 ^ 32) : (fbBaseOf size v).toNat + size ≤ 2 ^ 32 := by
  have hm : v % (2 ^ 32 - size + 1) < 2 ^ 32 - size + 1 := Nat.mod_lt _ (Nat.succ_pos _)
  have hle : (fbBaseOf size v).toNat ≤ v % (2 ^ 32 - size + 1) :=
    (BitVec.toNat_ofNat ..).trans_le (Nat.mod_le ..)
  omega

/-- Every entry of an admitted table is a well-formed profile (R11). -/
theorem profileFacts_of_mem {c : Params} (hw : c.wf = true) {id : Nat} {p : Profile}
    (hp : c.profileTable[id]? = some p) : ProfileFacts p := by
  simp only [Params.wf, Bool.and_eq_true, List.all_eq_true] at hw
  exact Profile.facts (hw.2 _ (List.mem_of_getElem? hp))

/-- BEGIN's answer from an inactive engine whose allocation succeeds (R103). -/
theorem execBegin_started {m : Byte} {s : State} {p : Profile} (hf : s.fault = none) (hi : s.tickPhase = .idle)
    (ha : s.active = false) (hp : s.params.profileTable[resolveMode s.params m]? = some p)
    (hal : fbSize p ∉ s.params.allocFails) :
    execBegin m s =
      .next (s.drawNat.2.begin (resolveMode s.params m) p (fbBaseOf (fbSize p) s.drawNat.1)).retire := by
  have hok : allocOk s.params (fbSize p) = true := by simpa [allocOk] using hal
  rw [execBegin, State.unlessFaulted_of_none hf, State.inHook_eq_false.2 hi, ha, hp]
  simp only [hok, if_true, Bool.false_eq_true, if_false]

/-- A draw changes nothing but the oracle and the counter (R16; log 3). -/
theorem drawNat_eq (s : State) :
    s.drawNat.2 = { s with oracle := s.drawNat.2.oracle, draws := s.drawNat.2.draws } := by
  unfold State.drawNat
  split <;> rfl

/-- END's answer from an active engine in the main context (R104). -/
theorem execEnd_stopped {s : State} (hf : s.fault = none) (hi : s.tickPhase = .idle) (ha : s.active = true) :
    execEnd s = .next (s.stopped.record .ended).retire := by
  rw [execEnd, State.unlessFaulted_of_none hf, State.inHook_eq_false.2 hi, ha]
  rfl

end Sys2Proof.Safety

open Sys2Proof Sys2Proof.Machine Sys2Proof.Safety

/-- Settles O14: the reset state's fields, as written out. -/
theorem powerOnStateIsInactive : Obligations.PowerOnStateIsInactive :=
  ⟨rfl, rfl, rfl, rfl, rfl, rfl, rfl, rfl, rfl, rfl, rfl, rfl, rfl, rfl, rfl, rfl⟩

/-- Settles O15: an inactive engine with an empty history meets each invariant, and the fixture table is admitted. -/
theorem resetMeetsTheInvariants : Obligations.ResetMeetsTheInvariants :=
  ⟨fun c hw => ⟨runInv_resetWith hw, timingInv_resetWith c, pulseInv_resetWith c, serialFollowsHistory_resetWith c,
      faultFollowsHistory_resetWith c⟩,
    by decide⟩

/-- Settles O16: BEGIN's answer read off field by field, with the empty memory as the zeroed framebuffer. -/
theorem beginStartsTheEngine : Obligations.BeginStartsTheEngine := by
  rintro m s id p hf hw hi ha rfl hp hal
  have hpf := profileFacts_of_mem hw hp
  refine ⟨_, execBegin_started hf hi ha hp hal, ?_, fun off ho => ?_, ?_⟩
  · rw [State.retire_main rfl, drawNat_eq s]
    simp [State.begin, resolveMode, hi]
  · exact State.readByte_eq_some.2 ⟨[], by simp [State.begin], by simpa [State.begin, fbSize] using ho, rfl⟩
  · rw [State.retire_fbBase]
    exact fbBaseOf_add_le (size := fbSize p) (hpf.size.trans (by norm_num))

/-- Settles O19: what END stops, then the record and the retirement in the main context. -/
theorem endStopsTheEngine : Obligations.EndStopsTheEngine := by
  intro s hf hi ha
  change execEnd s = _
  rw [execEnd_stopped hf hi ha, State.retire_main (by exact hi)]
  rfl

end

/-! ### RDREG and the register view (R37, R38, R109) -/

section

namespace Sys2Proof.Safety

open Sys2Proof.Machine

/-- A number made of bits has those bits, and none above them. -/
theorem testBit_bitsToNat (bits : List Bool) (k : Nat) : (bitsToNat bits).testBit k = bits.getD k false := by
  induction bits generalizing k with
  | nil => simp [bitsToNat]
  | cons b t ih =>
    cases k with
    | zero => cases b <;> simp [bitsToNat, Nat.testBit_zero]
    | succ k =>
      have hhalf : (b.toNat + 2 * bitsToNat t) / 2 = bitsToNat t := by
        rw [Nat.add_mul_div_left _ _ two_pos, Nat.div_eq_of_lt b.toNat_lt, Nat.zero_add]
      rw [bitsToNat, Nat.testBit_succ, hhalf, ih]
      rfl

theorem getLsbD_statusWord {s : State} {k : Nat} (hk : k < 32) :
    (statusWord s).getLsbD k = (statusBits s).getD k false := by
  rw [statusWord, BitVec.getLsbD_ofNat, testBit_bitsToNat]
  simp [hk]

/-- The register view holds the value column of R37. -/
theorem registerHolds_regValue (s : State) (r : Reg) : RegisterHolds s r (regValue s r) := by
  cases r with
  | status =>
    intro k hk
    rw [regValue, getLsbD_statusWord hk]
    simp [statusBits, bne, beq_eq_decide]
  | doubled => cases hd : s.prof.lineDoubled <;> simp [RegisterHolds, regValue, hd]
  | hookstart => simp [RegisterHolds, regValue]; omega
  | hookend => simp [RegisterHolds, regValue]; omega
  | divisor => rfl
  | fbbase => rfl
  | line | cursor | profile | width | height | fbsize | rowbytes | scanlines | frameline | lastactive =>
    exact BitVec.toNat_ofNat ..

/-- Retiring advances the running context's pointer, whatever was recorded before (R100). -/
theorem retire_record_eq (s : State) (e : Event) :
    (s.record e).retire = { advanced s with hist := s.hist ++ [e] } := by
  cases h : s.tickPhase with
  | idle =>
    rw [State.retire_main (by exact h)]
    simp [advanced, h, State.record]
  | hook k hd pc =>
    rw [State.retire_hook (by exact h)]
    simp [advanced, h, State.record]

end Sys2Proof.Safety

open Sys2Proof Sys2Proof.Machine Sys2Proof.Safety

/-- Settles O31: where the register is readable, RDREG records its value in the register view and retires. -/
theorem rdregRecordsTheRegister : Obligations.RdregRecordsTheRegister := by
  intro r s hf hr
  have hread : regReadable s r = true := by
    obtain h | rfl | rfl | rfl := hr <;> simp [regReadable, readableInactive, *]
  refine ⟨regValue s r, registerHolds_regValue s r, ?_⟩
  rw [← retire_record_eq]
  change execRdreg r s = _
  rw [execRdreg, State.unlessFaulted_of_none hf, if_pos hread]

end

/-! ### Which instruction writes which field (R39) -/

section

namespace Sys2Proof.Machine

/-- The table of R39 for one instruction: a field that differs is one that its row writes. -/
def WritesAsListed (m : Mnemonic) (s t : State) : Prop :=
  (t.line ≠ s.line → m ∈ [.EV_TICK, .EV_HOOKRET, .BEGIN]) ∧
  (t.cursor ≠ s.cursor → m ∈ [.EV_TICK, .EV_HOOKRET, .BEGIN]) ∧
  (t.dutyNext ≠ s.dutyNext → m ∈ [.EV_TICK, .BEGIN]) ∧
  (t.dutyCur ≠ s.dutyCur → m ∈ [.EV_BOUNDARY, .BEGIN]) ∧
  (t.tickPending ≠ s.tickPending → m ∈ [.EV_COMPARE, .EV_TICK, .BEGIN, .END]) ∧
  (t.dma ≠ s.dma → m ∈ [.EV_TICK, .EV_DMABYTE, .BEGIN, .END]) ∧
  (t.donePending ≠ s.donePending → m ∈ [.EV_DMABYTE, .EV_DMADONE, .BEGIN, .END]) ∧
  (t.ser ≠ s.ser → m ∈ [.EV_TICK, .EV_DMABYTE, .EV_DMADONE, .BEGIN, .END]) ∧
  (t.hookStart ≠ s.hookStart ∨ t.hookEnd ≠ s.hookEnd → m = .SETHOOK) ∧
  (t.fb ≠ s.fb → m ∈ [.BEGIN, .END, .FBWR, .CLEAR]) ∧
  (t.active ≠ s.active → m ∈ [.BEGIN, .END])

theorem WritesAsListed.refl (m : Mnemonic) (s : State) : WritesAsListed m s s := by simp [WritesAsListed]

theorem WritesAsListed.raise (m : Mnemonic) (s : State) (c : Fault) : WritesAsListed m s (s.raise c) := by
  simp [WritesAsListed]

/-- Both hook slots hold the same handles in both states. -/
structure SameHooks (s t : State) : Prop where
  hookStart : t.hookStart = s.hookStart
  hookEnd : t.hookEnd = s.hookEnd

/-- A command that leaves the engine and the hooks alone writes as listed where its framebuffer does. -/
theorem SameEngine.writesAsListed {m : Mnemonic} {s t : State} (h : SameEngine s t) (hh : SameHooks s t)
    (hb : t.fb ≠ s.fb → m ∈ [.BEGIN, .END, .FBWR, .CLEAR]) : WritesAsListed m s t := by
  obtain ⟨h1, -, -, h2, h3, h4, h5, -, h6, h7, h8, h9, -⟩ := h
  obtain ⟨hs, he⟩ := hh
  exact ⟨(absurd h2 ·), (absurd h3 ·), (absurd h4 ·), (absurd h5 ·), (absurd h6 ·), (absurd h7 ·), (absurd h8 ·),
    (absurd h9 ·), fun hn => hn.elim (absurd hs ·) (absurd he ·), hb, (absurd h1 ·)⟩

/-! #### The commands -/

theorem clearStep_sameHooks {left : List Nat} {s t : State} (h : clearStep left s = .next t) : SameHooks s t := by
  obtain ⟨r, m, -, -, -, -, ⟨-, rfl⟩ | ⟨-, rfl⟩⟩ := clearStep_next h <;> exact ⟨by simp, by simp⟩

theorem execClear_sameHooks {s t : State} (h : execClear s = .next t) : SameHooks s t := by
  obtain ⟨-, ⟨l, -, hc⟩ | ⟨-, -, rfl⟩ | ⟨-, -, hc⟩⟩ := execClear_next h
  · exact clearStep_sameHooks hc
  · exact ⟨rfl, rfl⟩
  · exact clearStep_sameHooks hc

theorem execFbwr_sameHooks {data : Byte} {off : Half} {s t : State} (h : execFbwr data off s = .next t) :
    SameHooks s t := by
  obtain ⟨-, ⟨-, rfl⟩ | ⟨-, -, rfl⟩ | ⟨-, m, -, -, rfl⟩⟩ := execFbwr_next h <;> exact ⟨by simp, by simp⟩

/-- SETHOOK writes a hook slot and no other field of R39's table (R108). -/
theorem execSethook_writes {k : HookKind} {hd : Half} {s t : State} (h : execSethook k hd s = .next t) :
    WritesAsListed .SETHOOK s t := by
  obtain ⟨-, rfl⟩ := execSethook_next h
  simp [WritesAsListed]

/-- The hook slots and the framebuffer are the same in both states. -/
structure SameStores (s t : State) : Prop extends SameHooks s t where
  fb : t.fb = s.fb

theorem execFbrd_sameStores {off : Half} {s t : State} (h : execFbrd off s = .next t) : SameStores s t := by
  obtain ⟨-, ⟨-, rfl⟩ | ⟨-, -, rfl⟩ | ⟨-, v, -, rfl⟩⟩ := execFbrd_next h <;>
    exact ⟨⟨by simp, by simp⟩, by simp⟩

theorem execRdreg_sameStores {r : Reg} {s t : State} (h : execRdreg r s = .next t) : SameStores s t := by
  obtain ⟨-, ⟨-, rfl⟩ | ⟨-, rfl⟩⟩ := execRdreg_next h <;> exact ⟨⟨by simp, by simp⟩, by simp⟩

theorem pollAttempt_sameStores {e : Bool} {r : Reg} {v : Half} {s t : State} (h : pollAttempt e r v s = .next t) :
    SameStores s t := by
  obtain ⟨-, rfl⟩ | ⟨-, -, rfl⟩ | ⟨-, -, -, rfl⟩ | ⟨-, -, -, rfl⟩ := pollAttempt_next h <;>
    exact ⟨⟨by simp, by simp⟩, by simp⟩

theorem waitAttempt_sameStores {rem fl : Nat} {ph : WaitPhase} {s t : State} (h : waitAttempt rem ph fl s = .next t) :
    SameStores s t := by
  obtain ⟨rem', ph', -, -, rfl⟩ | ⟨-, -, -, rfl⟩ := waitAttempt_next h <;> exact ⟨⟨by simp, by simp⟩, by simp⟩

theorem execWaitf_sameStores {n : Half} {s t : State} (h : execWaitf n s = .next t) : SameStores s t := by
  obtain ⟨-, ⟨-, rfl⟩ | ⟨-, rem, ph, fl, -, hw⟩ | ⟨-, -, ⟨-, rfl⟩ | ⟨-, -, rfl⟩ | ⟨-, -, hw⟩⟩⟩ := execWaitf_next h
  · exact ⟨⟨rfl, rfl⟩, rfl⟩
  · exact waitAttempt_sameStores hw
  · exact ⟨⟨rfl, rfl⟩, rfl⟩
  · exact ⟨⟨by simp, by simp⟩, by simp⟩
  · exact waitAttempt_sameStores hw

/-- BEGIN starts every field of the engine but not the hook slots (R103). -/
theorem execBegin_writes {m : Byte} {s t : State} (h : execBegin m s = .next t) : WritesAsListed .BEGIN s t := by
  obtain ⟨-, ⟨-, rfl⟩ | ⟨-, -, rfl⟩ | ⟨-, -, p, -, ⟨-, rfl⟩ | ⟨-, rfl⟩⟩⟩ := execBegin_next h
  · exact .raise _ _ _
  · exact .raise _ _ _
  · exact .raise _ _ _
  · simp [WritesAsListed, State.begin]

/-- END stops what is pending and in flight, and leaves the line, the cursor and the duties (R104). -/
theorem execEnd_writes {s t : State} (h : execEnd s = .next t) : WritesAsListed .END s t := by
  obtain ⟨-, ⟨-, rfl⟩ | ⟨-, -, rfl⟩ | ⟨-, -, rfl⟩⟩ := execEnd_next h
  · exact .raise _ _ _
  · exact .raise _ _ _
  · simp [WritesAsListed, State.stopped]

/-! #### The events -/

theorem execBoundary_writes {s t : State} (h : execBoundary s = .next t) : WritesAsListed .EV_BOUNDARY s t := by
  obtain ⟨-, ⟨-, rfl⟩ | ⟨-, rfl⟩⟩ := execBoundary_next h
  · exact .refl _ _
  · split <;> simp [WritesAsListed, State.latch]

theorem execCompare_writes {s t : State} (h : execCompare s = .next t) : WritesAsListed .EV_COMPARE s t := by
  obtain ⟨-, ⟨-, rfl⟩ | ⟨-, rfl⟩⟩ := execCompare_next h
  · exact .refl _ _
  · split <;> simp [WritesAsListed]

/-- Steps 2 to 5 of the tick change no field that R39 keeps from the tick. -/
theorem finishTick_writes {s u : State} (c : Nat) (h : WritesAsListed .EV_TICK s u) :
    WritesAsListed .EV_TICK s (u.finishTick c) := by
  obtain ⟨-, -, he⟩ | ⟨-, -, -, he⟩ | ⟨-, -, he⟩ := u.finishTick_cases c <;> rw [he] <;>
    simpa [WritesAsListed] using h

theorem runTick_writes (s : State) : WritesAsListed .EV_TICK s s.runTick := by
  obtain ⟨-, he⟩ | ⟨-, -, he⟩ | ⟨-, -, he⟩ := s.runTick_cases <;> rw [he]
  · exact finishTick_writes _ (by simp [WritesAsListed, State.enterTick])
  · simp [WritesAsListed, State.enterTick]
  · exact finishTick_writes _ (by simp [WritesAsListed, State.dispatchRow, State.enterTick])

theorem execTick_writes {s t : State} (h : execTick s = .next t) : WritesAsListed .EV_TICK s t := by
  obtain ⟨-, ⟨-, rfl⟩ | ⟨-, rfl⟩⟩ := execTick_next h
  · exact .refl _ _
  · exact runTick_writes s

theorem execHookret_writes {s t : State} (h : execHookret s = .next t) : WritesAsListed .EV_HOOKRET s t := by
  obtain ⟨-, ⟨-, rfl⟩ | ⟨-, rfl⟩⟩ := execHookret_next h
  · exact .refl _ _
  · simp [WritesAsListed, State.returnFromHook]

theorem execDmabyte_writes {s t : State} (h : execDmabyte s = .next t) : WritesAsListed .EV_DMABYTE s t := by
  obtain ⟨-, ⟨-, rfl⟩ | ⟨-, off, n, i, b, -, -, rfl⟩⟩ := execDmabyte_next h
  · exact .refl _ _
  · obtain ⟨-, he⟩ | ⟨-, he⟩ := s.shiftByte_cases off n i b <;> rw [he] <;> simp [WritesAsListed]

theorem execDmadone_writes {s t : State} (h : execDmadone s = .next t) : WritesAsListed .EV_DMADONE s t := by
  obtain ⟨-, ⟨-, rfl⟩ | ⟨-, rfl⟩⟩ := execDmadone_next h
  · exact .refl _ _
  · simp [WritesAsListed]

/-- Every instruction writes as R39 lists. -/
theorem exec_writesAsListed {i : Instr} {s t : State} (h : exec i s = .next t) : WritesAsListed i.mnemonic s t := by
  have hengine : i.isEvent = false → i.mnemonic ≠ .BEGIN → i.mnemonic ≠ .END → SameEngine s t :=
    fun he hb hn => (exec_command_frame he hb hn h).engine
  have hstores : SameEngine s t → SameStores s t → WritesAsListed i.mnemonic s t :=
    fun he hs => he.writesAsListed hs.toSameHooks (absurd hs.fb ·)
  cases i with
  | cmdBegin mode => exact execBegin_writes h
  | cmdEnd => exact execEnd_writes h
  | cmdClear => exact (hengine rfl nofun nofun).writesAsListed (execClear_sameHooks h) fun _ => by simp [Instr.mnemonic]
  | cmdFbwr data off =>
    exact (hengine rfl nofun nofun).writesAsListed (execFbwr_sameHooks h) fun _ => by simp [Instr.mnemonic]
  | cmdSethook kind handle => exact execSethook_writes h
  | cmdFbrd off => exact hstores (hengine rfl nofun nofun) (execFbrd_sameStores h)
  | cmdRdreg reg => exact hstores (hengine rfl nofun nofun) (execRdreg_sameStores h)
  | cmdPolleq reg value =>
    exact hstores (hengine rfl nofun nofun) (pollAttempt_sameStores (State.unlessFaulted_next.1 h).2)
  | cmdPollne reg value =>
    exact hstores (hengine rfl nofun nofun) (pollAttempt_sameStores (State.unlessFaulted_next.1 h).2)
  | cmdWaitf n => exact hstores (hengine rfl nofun nofun) (execWaitf_sameStores h)
  | evBoundary => exact execBoundary_writes h
  | evCompare => exact execCompare_writes h
  | evTick => exact execTick_writes h
  | evHookret => exact execHookret_writes h
  | evDmabyte => exact execDmabyte_writes h
  | evDmadone => exact execDmadone_writes h

end Sys2Proof.Machine

open Sys2Proof Sys2Proof.Machine

/-- Settles O47: the table of R39, instruction by instruction. -/
theorem onlyListedRulesWriteEachField : Obligations.OnlyListedRulesWriteEachField := fun _ _ _ => exec_writesAsListed

end

/-! ### The line cycle (R25, R78) -/

section

namespace Sys2Proof.Machine

/-- One line advance from a line of the frame, counted modulo the frame (R78). -/
theorem lineAdvance_line {s : State} (h1 : 1 ≤ s.line) (h2 : s.line ≤ 264) :
    s.lineAdvance.line = s.line % 264 + 1 := by
  rw [lineAdvance_eq]
  dsimp only
  split <;> omega

/-- The line after `k` line advances from a line of the frame. -/
theorem iterate_lineAdvance_line {s : State} (h1 : 1 ≤ s.line) (h2 : s.line ≤ 264) (k : Nat) :
    (State.lineAdvance^[k] s).line = (s.line - 1 + k) % 264 + 1 := by
  induction k with
  | zero => simp only [Function.iterate_zero, id]; omega
  | succ k ih =>
    rw [Function.iterate_succ_apply', lineAdvance_line (by omega) (by omega), ih]
    omega

end Sys2Proof.Machine

open Sys2Proof Sys2Proof.Machine

/-- Settles O51: the line counts modulo 264, so a line is reached at its distance from the first one only. -/
theorem lineCycleVisitsEveryLineOnce : Obligations.LineCycleVisitsEveryLineOnce := by
  intro s h1 h2
  refine ⟨?_, fun l hl1 hl2 => ⟨(l + 264 - s.line) % 264, ⟨Nat.mod_lt _ (by norm_num), ?_⟩, ?_⟩⟩
  · rw [iterate_lineAdvance_line h1 h2]
    omega
  · rw [iterate_lineAdvance_line h1 h2]
    omega
  · rintro k ⟨hk, hkl⟩
    rw [iterate_lineAdvance_line h1 h2] at hkl
    omega

end

/-! ### The history determines the serial line and the fault (R31, R35, R115, R116) -/

section

namespace Sys2Proof.Machine

open Sys2Proof.Safety

/-- `t` comes from `s` by recording events that say what became of the serial line and of the fault (R31, R116). -/
def Recorded (s t : State) : Prop :=
  ∃ l, t.hist = s.hist ++ l ∧ t.ser = l.foldl serAfter s.ser ∧
    ∀ c, t.fault = some c ↔ s.fault = some c ∨ Event.faulted c ∈ l

theorem Recorded.refl (s : State) : Recorded s s := ⟨[], by simp⟩

theorem Recorded.trans {s t u : State} (h : Recorded s t) (k : Recorded t u) : Recorded s u := by
  obtain ⟨l, hl, hs, hf⟩ := h
  obtain ⟨l', hl', hs', hf'⟩ := k
  exact ⟨l ++ l', by simp [hl, hl'], by simp [hs, hs'], fun c => by simp [hf', hf, or_assoc]⟩

/-- Events that fault nothing, with the serial line that they make. -/
theorem Recorded.of_events {s t : State} (l : List Event) (hh : t.hist = s.hist ++ l)
    (hs : t.ser = l.foldl serAfter s.ser) (hf : t.fault = s.fault) (hl : ∀ c, Event.faulted c ∉ l) : Recorded s t :=
  ⟨l, hh, hs, fun c => by simp [hf, hl c]⟩

theorem Recorded.raise {s : State} (h : s.fault = none) (c : Fault) : Recorded s (s.raise c) :=
  ⟨[.faulted c], rfl, rfl, fun c' => by simp [h, eq_comm]⟩

/-- A command's events leave the serial line as it is (R31). -/
theorem serAfter_isCommand {e : Event} (h : e.isCommand) (ser : Ser) : serAfter ser e = ser := by
  cases e with
  | read | fbWrite | faulted => rfl
  | _ => exact h.elim

theorem foldl_serAfter_isCommand {l : List Event} (h : ∀ e ∈ l, e.isCommand) (ser : Ser) :
    l.foldl serAfter ser = ser := by
  induction l with
  | nil => rfl
  | cons e t ih =>
    rw [List.foldl_cons, serAfter_isCommand (h e (List.mem_cons_self ..))]
    exact ih fun e he => h e (List.mem_cons_of_mem _ he)

theorem CommandFrame.recorded {s t : State} (h : CommandFrame s t) (hf : s.fault = none) : Recorded s t := by
  obtain ⟨l, hl, hc, hfault⟩ := h.hist
  refine ⟨l, hl, ?_, fun c => ?_⟩
  · rw [foldl_serAfter_isCommand hc, h.engine.ser]
  · obtain ⟨he, hn⟩ | ⟨c', he, rfl⟩ := hfault
    · simp [he, hn c]
    · simp [he, hf, eq_comm]

theorem execBegin_recorded {m : Byte} {s t : State} (h : execBegin m s = .next t) : Recorded s t := by
  obtain ⟨hf, ⟨-, rfl⟩ | ⟨-, -, rfl⟩ | ⟨-, -, p, -, ⟨-, rfl⟩ | ⟨-, rfl⟩⟩⟩ := execBegin_next h
  · exact .raise hf _
  · exact .raise hf _
  · exact .raise hf _
  · exact .of_events [.begun (resolveMode s.params m), .pulse 1 .narrow] (by simp [State.begin])
      (by simp [State.begin, serAfter]) (by simp [State.begin]) (by simp)

theorem execEnd_recorded {s t : State} (h : execEnd s = .next t) : Recorded s t := by
  obtain ⟨hf, ⟨-, rfl⟩ | ⟨-, -, rfl⟩ | ⟨-, -, rfl⟩⟩ := execEnd_next h
  · exact .raise hf _
  · exact .raise hf _
  · exact .of_events [.ended] (by simp [State.stopped]) (by simp [State.stopped, serAfter]) (by simp [State.stopped])
      (by simp)

/-- Recording an event that leaves the serial line and faults nothing. -/
theorem Recorded.record (s : State) {e : Event} (hs : serAfter s.ser e = s.ser) (hf : ∀ c, e ≠ .faulted c) :
    Recorded s (s.record e) :=
  .of_events [e] rfl hs.symm rfl fun c hc => hf c (List.mem_singleton.1 hc).symm

theorem latch_recorded (s : State) : Recorded s s.latch := .of_events [.pulse s.line s.dutyNext] rfl rfl rfl (by simp)

theorem execBoundary_recorded {s t : State} (h : execBoundary s = .next t) : Recorded s t := by
  obtain ⟨-, ⟨-, rfl⟩ | ⟨-, rfl⟩⟩ := execBoundary_next h
  · exact .refl _
  · split
    · exact (Recorded.record s (e := .deadlineMiss s.line) rfl nofun).trans (latch_recorded _)
    · exact latch_recorded _

theorem execCompare_recorded {s t : State} (h : execCompare s = .next t) : Recorded s t := by
  obtain ⟨-, ⟨-, rfl⟩ | ⟨-, rfl⟩⟩ := execCompare_next h
  · exact .refl _
  · split
    · exact .of_events [.lostTick s.line] rfl rfl rfl (by simp)
    · exact .of_events [] (by simp) rfl rfl (by simp)

theorem finishTick_recorded (s : State) (c : Nat) : Recorded s (s.finishTick c) := by
  obtain ⟨-, -, h⟩ | ⟨-, -, -, h⟩ | ⟨-, -, h⟩ := s.finishTick_cases c <;> rw [h]
  · exact .of_events [.hookCall .fin s.hookEnd c] (by simp) (by simp [serAfter]) (by simp) (by simp)
  · exact .of_events [.hookCall .start s.hookStart c] (by simp) (by simp [serAfter]) (by simp) (by simp)
  · exact .of_events [] (by simp) (by simp) (by simp) (by simp)

theorem enterTick_recorded (s : State) : Recorded s s.enterTick := .of_events [.tick s.line] rfl rfl rfl (by simp)

/-- A dispatched row starts shifting with its ROW_START (R31, R95). -/
theorem dispatchRow_recorded (s : State) : Recorded s s.dispatchRow :=
  .of_events [.tick s.line, .rowStart s.line s.cursor] (by simp [State.dispatchRow, State.enterTick]) rfl rfl (by simp)

theorem runTick_recorded {s : State} (hf : s.fault = none) : Recorded s s.runTick := by
  obtain ⟨-, h⟩ | ⟨-, -, h⟩ | ⟨-, -, h⟩ := s.runTick_cases <;> rw [h]
  · exact (enterTick_recorded s).trans (finishTick_recorded _ _)
  · exact (enterTick_recorded s).trans (.raise (s := s.enterTick) hf _)
  · exact (dispatchRow_recorded s).trans (finishTick_recorded _ _)

theorem execTick_recorded {s t : State} (h : execTick s = .next t) : Recorded s t := by
  obtain ⟨hf, ⟨-, rfl⟩ | ⟨-, rfl⟩⟩ := execTick_next h
  · exact .refl _
  · exact runTick_recorded hf

theorem execHookret_recorded {s t : State} (h : execHookret s = .next t) : Recorded s t := by
  obtain ⟨-, ⟨-, rfl⟩ | ⟨-, rfl⟩⟩ := execHookret_next h
  · exact .refl _
  · exact .of_events [.hookRet s.line] (by simp [State.returnFromHook]) (by simp [State.returnFromHook, serAfter])
      (by simp [State.returnFromHook]) (by simp)

/-- The last byte of a row leaves the line RESIDUAL with its ROW_END (R31, R96). -/
theorem shiftByte_recorded (s : State) (off n i : Nat) (b : Byte) : Recorded s (s.shiftByte off n i b) := by
  obtain ⟨-, h⟩ | ⟨-, h⟩ := s.shiftByte_cases off n i b <;> rw [h]
  · exact .of_events [.pixByte (off + i) b] rfl rfl rfl (by simp)
  · exact .of_events [.pixByte (off + i) b, .rowEnd off] (by simp) rfl rfl (by simp)

theorem execDmabyte_recorded {s t : State} (h : execDmabyte s = .next t) : Recorded s t := by
  obtain ⟨-, ⟨-, rfl⟩ | ⟨-, off, n, i, b, -, -, rfl⟩⟩ := execDmabyte_next h
  · exact .refl _
  · exact shiftByte_recorded s off n i b

theorem execDmadone_recorded {s t : State} (h : execDmadone s = .next t) : Recorded s t := by
  obtain ⟨-, ⟨-, rfl⟩ | ⟨-, rfl⟩⟩ := execDmadone_next h
  · exact .refl _
  · exact .of_events [.idleForced] rfl rfl rfl (by simp)

theorem exec_recorded {i : Instr} {s t : State} (hf : s.fault = none) (h : exec i s = .next t) : Recorded s t := by
  cases i with
  | cmdBegin mode => exact execBegin_recorded h
  | cmdEnd => exact execEnd_recorded h
  | evBoundary => exact execBoundary_recorded h
  | evCompare => exact execCompare_recorded h
  | evTick => exact execTick_recorded h
  | evHookret => exact execHookret_recorded h
  | evDmabyte => exact execDmabyte_recorded h
  | evDmadone => exact execDmadone_recorded h
  | cmdClear | cmdFbrd | cmdFbwr | cmdSethook | cmdRdreg | cmdPolleq | cmdPollne | cmdWaitf =>
    exact (exec_command_frame rfl (by simp [Instr.mnemonic]) (by simp [Instr.mnemonic]) h).recorded hf

theorem takeAgent_recorded (s : State) : Recorded s s.takeAgent.2 :=
  .of_events [] (by simp) (by simp) (by simp) (by simp)

theorem step_recorded {s t : State} (h : step s = .next t) : Recorded s t := by
  obtain ⟨hf, -, ⟨i, -, hi⟩ | ⟨-, rfl⟩ | ⟨-, rfl⟩⟩ := step_next h
  · exact (takeAgent_recorded s).trans (exec_recorded (by simpa using hf) hi)
  · exact (takeAgent_recorded s).trans (.raise (by simpa using hf) _)
  · exact takeAgent_recorded s

/-- Where the history determines the serial line and the fault, it still does after what is recorded. -/
theorem Recorded.followsHistory {s t : State} (h : Recorded s t) (hs : SerialFollowsHistory s)
    (hf : FaultFollowsHistory s) : SerialFollowsHistory t ∧ FaultFollowsHistory t := by
  obtain ⟨l, hl, hser, hfault⟩ := h
  refine ⟨?_, fun c => ?_⟩
  · rw [SerialFollowsHistory, hl, List.foldl_append, ← hs, hser]
  · rw [hl, List.mem_append, hf c, hfault c]

end Sys2Proof.Machine

open Sys2Proof Sys2Proof.Machine Sys2Proof.Safety

/-- Settles O56: the events that a step records say what became of the serial line and of the fault. -/
theorem historyDeterminesSerialLineAndFault : Obligations.HistoryDeterminesSerialLineAndFault :=
  fun _ _ hs hf h => (step_recorded h).followsHistory hs hf

end

/-! ### The line records (R93) -/

section

namespace Sys2Proof.Machine

/-- What ends a row, END or its ROW_END, adds no byte to it, and neither does the end of the history (R93; log 22). -/
theorem rowBytes_stop {rest : List Event} {off : Nat}
    (h : rest = [] ∨ rest.head? = some (.rowEnd off) ∨ rest.head? = some .ended) : rowBytes rest = [] := by
  cases rest with
  | nil => rfl
  | cons e t =>
    obtain h | h | h := h <;> cases h <;> rfl

end Sys2Proof.Machine

open Sys2Proof Sys2Proof.Machine Sys2Proof.Safety

/-- Settles O59: a PULSE's record is the one behind those of the PULSE events before it, and its row is what the events
after it give. -/
theorem lineRecordsFollowTheHistory : Obligations.LineRecordsFollowTheHistory := by
  refine ⟨lineRecordsFrom_labels .residual, fun before after l d =>
    ⟨_, lineRecordsFrom_get .residual before after l d, rfl, rfl, ?_, ?_⟩⟩
  · intro period hp hr
    obtain ⟨rest, rfl, -, hrest⟩ := periodOf_rest hp
    exact (periodRow_append hp.1 hr rest).trans hrest
  · rintro a c rest l' off rfl ha hr hc hrest
    change periodRow (a ++ .rowStart l' off :: (c ++ rest)) = _
    rw [periodRow_append ha hr, periodRow, rowBytes_append hc, rowBytes_stop hrest, List.append_nil]

end

/-! ### The framebuffer's bytes: FBRD, FBWR and the DMA read (R49, R51, R55, R96, R106, R107) -/

section

namespace Sys2Proof.Machine

open Sys2Proof.Safety

/-- A byte read depends on the framebuffer and the profile alone. -/
theorem readByte_congr {s t : State} (hfb : t.fb = s.fb) (hp : t.prof = s.prof) (a : Nat) :
    t.readByte a = s.readByte a := by
  rw [State.readByte, hfb, hp, State.readByte]

/-- The state FBWR leaves: its byte written, recorded, and the command retired (R107). -/
def State.fbWritten (s : State) (m : Memory) (off : Nat) (v : Byte) : State :=
  (({ s with fb := some (m.write off v) } : State).record (.fbWrite off v)).retire

@[simp] theorem State.fbWritten_active (s : State) (m : Memory) (off : Nat) (v : Byte) :
    (s.fbWritten m off v).active = s.active := by simp [State.fbWritten]

@[simp] theorem State.fbWritten_fault (s : State) (m : Memory) (off : Nat) (v : Byte) :
    (s.fbWritten m off v).fault = s.fault := by simp [State.fbWritten]

@[simp] theorem State.fbWritten_prof (s : State) (m : Memory) (off : Nat) (v : Byte) :
    (s.fbWritten m off v).prof = s.prof := by simp [State.fbWritten]

@[simp] theorem State.fbWritten_dma (s : State) (m : Memory) (off : Nat) (v : Byte) :
    (s.fbWritten m off v).dma = s.dma := by simp [State.fbWritten]

@[simp] theorem State.fbWritten_fb (s : State) (m : Memory) (off : Nat) (v : Byte) :
    (s.fbWritten m off v).fb = some (m.write off v) := by simp [State.fbWritten]

/-- The byte written reads back. -/
theorem readByte_fbWritten_same {s : State} {m : Memory} {off : Nat} (v : Byte) (hm : m.wf = true)
    (hlt : off < fbSize s.prof) : (s.fbWritten m off v).readByte off = some v :=
  State.readByte_eq_some.2 ⟨_, State.fbWritten_fb .., by simpa using hlt, Memory.read_write_same off v hm⟩

/-- Every other byte reads as before the write. -/
theorem readByte_fbWritten_ne {s : State} {m : Memory} {off a : Nat} (v : Byte) (hs : s.fb = some m)
    (hm : m.wf = true) (ha : a ≠ off) : (s.fbWritten m off v).readByte a = s.readByte a := by
  simp [State.readByte, hs, Memory.read_write_ne v hm ha]

/-- FBRD's answer at a byte that is readable (R106). -/
theorem execFbrd_read {off : Half} {s : State} {v : Byte} (hf : s.fault = none) (ha : s.active = true)
    (hv : s.readByte off.toNat = some v) :
    execFbrd off s = .next (s.record (.read (.fb off.toNat) (v.setWidth 32))).retire := by
  obtain ⟨m, -, hlt, -⟩ := State.readByte_eq_some.1 hv
  rw [execFbrd, State.unlessFaulted_of_none hf, if_neg (by simp [ha]), if_neg (Nat.not_le.2 hlt), hv]

/-- FBWR's answer at an offset inside the framebuffer (R107). -/
theorem execFbwr_written {data : Byte} {off : Half} {s : State} {m : Memory} (hf : s.fault = none)
    (ha : s.active = true) (hm : s.fb = some m) (hlt : off.toNat < fbSize s.prof) :
    execFbwr data off s = .next (s.fbWritten m off.toNat data) := by
  rw [execFbwr, State.unlessFaulted_of_none hf, if_neg (by simp [ha]), if_neg (Nat.not_le.2 hlt),
    State.writeByte_eq_some.2 ⟨m, hm, hlt, rfl⟩]
  rfl

/-- An FBWR that does not fault wrote its byte. -/
theorem execFbwr_unfaulted {data : Byte} {off : Half} {s t : State} {m : Memory} (h : execFbwr data off s = .next t)
    (hf : t.fault = none) (hm : s.fb = some m) : off.toNat < fbSize s.prof ∧ t = s.fbWritten m off.toNat data := by
  obtain ⟨-, ⟨-, rfl⟩ | ⟨-, -, rfl⟩ | ⟨-, m', hm', hlt, rfl⟩⟩ := execFbwr_next h
  · cases hf
  · cases hf
  · obtain rfl : m = m' := Option.some.inj (hm.symm.trans hm')
    exact ⟨hlt, rfl⟩

/-- Whether FBWR faults or not, a byte at another offset reads as before. -/
theorem execFbwr_readByte_ne {data : Byte} {off : Half} {s t : State} {m : Memory} {a : Nat}
    (h : execFbwr data off s = .next t) (hs : s.fb = some m) (hm : m.wf = true) (ha : a ≠ off.toNat) :
    t.readByte a = s.readByte a := by
  obtain ⟨-, ⟨-, rfl⟩ | ⟨-, -, rfl⟩ | ⟨-, m', hm', -, rfl⟩⟩ := execFbwr_next h
  · rfl
  · rfl
  · obtain rfl : m = m' := Option.some.inj (hs.symm.trans hm')
    exact readByte_fbWritten_ne data hs hm ha

/-- FBWR's state beside the one it started from: nothing but the framebuffer, the history and the pointer differs. -/
theorem State.fbWritten_eq (s : State) (m : Memory) (off : Nat) (v : Byte) :
    s.fbWritten m off v = { advanced s with fb := some (m.write off v), hist := s.hist ++ [.fbWrite off v] } := by
  rw [State.fbWritten, retire_record_eq]
  cases h : s.tickPhase <;> simp [advanced, h]

/-- DMABYTE where a transfer is in flight and its next byte, at `a`, is readable: the byte is shifted and recorded
(R96). -/
theorem execDmabyte_shifts {s : State} {off n i a : Nat} {b : Byte} (hf : s.fault = none) (ha : s.active = true)
    (hd : s.dma = .busy off n i) (hi : off + i = a) (hb : s.readByte a = some b) :
    execDmabyte s = .next (s.shiftByte off n i b) ∧
      Event.pixByte a b ∈ (s.shiftByte off n i b).hist.drop s.hist.length := by
  subst hi
  refine ⟨by simp only [execDmabyte, State.unlessFaulted_of_none hf, if_pos ha, hd, hb], ?_⟩
  obtain ⟨-, he⟩ | ⟨-, he⟩ := s.shiftByte_cases off n i b <;> simp [he]

/-- The shift of a byte leaves what FBWR reads as it was. -/
theorem shiftByte_frame (s : State) (off n i : Nat) (b : Byte) :
    (s.shiftByte off n i b).fault = s.fault ∧ (s.shiftByte off n i b).active = s.active ∧
      (s.shiftByte off n i b).fb = s.fb ∧ (s.shiftByte off n i b).prof = s.prof := by
  obtain ⟨-, he⟩ | ⟨-, he⟩ := s.shiftByte_cases off n i b <;> simp [he]

@[simp] theorem State.finishTick_prof (s : State) (c : Nat) : (s.finishTick c).prof = s.prof := by
  obtain ⟨-, -, he⟩ | ⟨-, -, -, he⟩ | ⟨-, -, he⟩ := s.finishTick_cases c <;> simp [he]

@[simp] theorem State.runTick_prof (s : State) : s.runTick.prof = s.prof := by
  obtain ⟨-, he⟩ | ⟨-, -, he⟩ | ⟨-, -, he⟩ := s.runTick_cases <;> simp [he, State.enterTick, State.dispatchRow]

/-- No event changes the profile (R24). -/
theorem exec_event_prof {i : Instr} {s t : State} (he : i.isEvent = true) (h : exec i s = .next t) :
    t.prof = s.prof := by
  cases i with
  | evBoundary =>
    obtain ⟨-, ⟨-, rfl⟩ | ⟨-, rfl⟩⟩ := execBoundary_next h
    · rfl
    · split <;> rfl
  | evCompare =>
    obtain ⟨-, ⟨-, rfl⟩ | ⟨-, rfl⟩⟩ := execCompare_next h
    · rfl
    · split <;> rfl
  | evTick =>
    obtain ⟨-, ⟨-, rfl⟩ | ⟨-, rfl⟩⟩ := execTick_next h
    · rfl
    · exact s.runTick_prof
  | evHookret =>
    obtain ⟨-, ⟨-, rfl⟩ | ⟨-, rfl⟩⟩ := execHookret_next h
    · rfl
    · simp [State.returnFromHook]
  | evDmabyte =>
    obtain ⟨-, ⟨-, rfl⟩ | ⟨-, off, n, i, b, -, -, rfl⟩⟩ := execDmabyte_next h
    · rfl
    · obtain ⟨-, -, -, hp⟩ := shiftByte_frame s off n i b
      exact hp
  | evDmadone =>
    obtain ⟨-, ⟨-, rfl⟩ | ⟨-, rfl⟩⟩ := execDmadone_next h <;> rfl
  | _ => cases he

/-- While active, only FBWR, CLEAR and END can change what the framebuffer reads as (R39, R49): BEGIN faults. -/
theorem exec_readByte {i : Instr} {s t : State} (h : exec i s = .next t) (ha : s.active = true)
    (hi : i.mnemonic ∉ [.FBWR, .CLEAR, .END]) (a : Nat) : t.readByte a = s.readByte a := by
  simp only [List.mem_cons, List.not_mem_nil, or_false, not_or] at hi
  obtain ⟨hwr, hcl, hend⟩ := hi
  by_cases hb : i.mnemonic = .BEGIN
  · cases i with
    | cmdBegin mode =>
      obtain ⟨-, ⟨-, rfl⟩ | ⟨-, -, rfl⟩ | ⟨-, hn, -⟩⟩ := execBegin_next h
      · rfl
      · rfl
      · exact absurd (ha.symm.trans hn) nofun
    | _ => cases hb
  · obtain ⟨-, -, -, -, -, -, -, -, -, hfb, -⟩ := exec_writesAsListed h
    have hfb' : t.fb = s.fb := by
      by_contra hne
      simpa [hwr, hcl, hend, hb] using hfb hne
    have hp : t.prof = s.prof := by
      cases he : i.isEvent with
      | false => exact (exec_command_frame he hb hend h).engine.prof
      | true => exact exec_event_prof he h
    exact readByte_congr hfb' hp a

end Sys2Proof.Machine

open Sys2Proof Sys2Proof.Machine Sys2Proof.Safety

/-- Settles O24: FBWR's answer, read with the memory's law of a read after a write. -/
theorem fbwrWritesOnlyItsByte : Obligations.FbwrWritesOnlyItsByte := by
  intro data off m s hf ha hfb hm hlt
  refine ⟨_, execFbwr_written hf ha hfb hlt, ?_, readByte_fbWritten_same data hm hlt,
    fun a => readByte_fbWritten_ne data hfb hm⟩
  rw [State.fbWritten_fb, State.fbWritten_eq]

/-- Settles O25: the range check comes after the activity check and before the access. -/
theorem framebufferAccessOutOfRangeFaults : Obligations.FramebufferAccessOutOfRangeFaults := by
  intro off s hf ha hr
  have hr' : fbSize s.prof ≤ off.toNat := hr
  refine ⟨?_, fun data => ?_⟩
  · change execFbrd off s = _
    rw [execFbrd, State.unlessFaulted_of_none hf, if_neg (by simp [ha]), if_pos hr']
    rfl
  · change execFbwr data off s = _
    rw [execFbwr, State.unlessFaulted_of_none hf, if_neg (by simp [ha]), if_pos hr']
    rfl

/-- Settles O28: FBRD reads the byte that FBWR left, and every instruction but the three named leaves each byte. -/
theorem writtenByteStaysUntilOverwritten : Obligations.WrittenByteStaysUntilOverwritten := by
  refine ⟨fun data off m s t ha hfb hm h hf => ?_, fun i s t m a v h hfb hm ha hv hne => ?_⟩
  · obtain ⟨hlt, rfl⟩ := execFbwr_unfaulted h hf hfb
    have hback := readByte_fbWritten_same (s := s) data hm hlt
    exact ⟨_, execFbrd_read (by simpa using hf) (by simpa using ha) hback, by simp⟩
  · have hchanged : t.readByte a ≠ s.readByte a := hv ▸ hne
    cases i with
    | cmdClear => exact .inr (.inl rfl)
    | cmdEnd => exact .inr (.inr rfl)
    | cmdFbwr data off =>
      refine .inl ⟨data, off, rfl, ?_⟩
      by_contra hoff
      exact hchanged (execFbwr_readByte_ne h hfb hm (Ne.symm hoff))
    | _ => exact absurd (exec_readByte h ha (by simp [Instr.mnemonic]) a) hchanged

/-- Settles O29: each order of the two answers, with the byte that the DMA finds. -/
theorem framebufferRaceShowsEitherValue : Obligations.FramebufferRaceShowsEitherValue := by
  intro data old off base n i m s hf ha hfb hm hd hoff hold
  obtain ⟨-, -, hlt, -⟩ := State.readByte_eq_some.1 hold
  constructor
  · obtain ⟨hshift, hmem⟩ := execDmabyte_shifts (s := s.fbWritten m off.toNat data) (by simpa using hf)
      (by simpa using ha) (by simpa using hd) hoff (readByte_fbWritten_same data hm hlt)
    exact ⟨_, _, execFbwr_written hf ha hfb hlt, hshift, hmem⟩
  · obtain ⟨hshift, hmem⟩ := execDmabyte_shifts hf ha hd hoff hold
    obtain ⟨hf', ha', hfb', hp'⟩ := shiftByte_frame s base n i old
    exact ⟨_, _, hshift, execFbwr_written (hf'.trans hf) (ha'.trans ha) (hfb'.trans hfb) (hp' ▸ hlt), hmem⟩

end

/-! ### What the draws of BEGIN and CLEAR reach (R42, R103, R105; log 3) -/

section

namespace Sys2Proof.Machine

open Sys2Proof.Safety

/-- An address that leaves room for the framebuffer is its own draw's (R42). -/
theorem fbBaseOf_toNat {size : Nat} {a : Word} (h : a.toNat + size ≤ 2 ^ 32) : fbBaseOf size a.toNat = a := by
  rw [fbBaseOf, Nat.mod_eq_of_lt (by omega), BitVec.ofNat_toNat, BitVec.setWidth_eq]

/-- One step of CLEAR zeroes and records the offset at the drawn place (R105). -/
theorem clearStep_zeroes {left : List Nat} {s : State} {m : Memory} {r : Nat}
    (hr : left[s.drawNat.1 % left.length]? = some r) (hm : s.fb = some m) (hlt : r < fbSize s.prof) :
    ∃ t, clearStep left s = .next t ∧ t.hist = s.hist ++ [.fbWrite r 0] := by
  have hw : s.drawNat.2.writeByte r 0 = some { s.drawNat.2 with fb := some (m.write r 0) } :=
    State.writeByte_eq_some.2 ⟨m, by simpa using hm, by simpa using hlt, rfl⟩
  simp only [clearStep, hr, hw]
  split <;> exact ⟨_, rfl, by simp⟩

/-- A command in progress as a CLEAR is the running context's kept progress (R34). -/
theorem clearing_iff {s : State} {left : List Nat} : clearing s left ↔ s.clearLeft = some left := by
  rw [State.clearLeft_eq_some, clearing, State.currentOp, State.inHook]
  cases s.tickPhase <;> simp

/-- CLEAR's answer, the first step or a later one, is one step on the offsets that are left (R105). -/
theorem execClear_eq_clearStep {s : State} {left : List Nat} (hf : s.fault = none)
    (h : clearing s left ∨ (s.active = true ∧ (∀ l, ¬ clearing s l) ∧ left = List.range (fbSize s.prof))) :
    execClear s = clearStep left s := by
  rw [execClear, State.unlessFaulted_of_none hf]
  obtain hc | ⟨ha, hn, rfl⟩ := h
  · rw [clearing_iff.1 hc]
  · have hnone : s.clearLeft = none := Option.eq_none_iff_forall_ne_some.2 fun l hl => hn l (clearing_iff.2 hl)
    simp only [hnone, ha, Bool.not_true, Bool.false_eq_true, if_false]

end Sys2Proof.Machine

open Sys2Proof Sys2Proof.Machine Sys2Proof.Safety

/-- Settles O18: an address is drawn by its own value, an offset by its place among those left. -/
theorem drawsReachEveryAllowedValue : Obligations.DrawsReachEveryAllowedValue := by
  refine fun s hf => ⟨fun m p a _ hi ha hp hal hroom => ?_, fun left m r hleft hfb hr hin => ?_⟩
  · refine ⟨a.toNat, _, execBegin_started hf hi ha hp hal, ?_⟩
    rw [State.retire_fbBase]
    exact fbBaseOf_toNat (size := fbSize p) hroom
  · obtain ⟨v, hv, rfl⟩ := List.getElem_of_mem hr
    have hplace : left[v % left.length]? = some left[v] := by
      rw [Nat.mod_eq_of_lt hv, List.getElem?_eq_getElem hv]
    obtain ⟨t, ht, hhist⟩ := clearStep_zeroes (s := { s with oracle := v :: s.oracle }) hplace hfb (hin _ hr)
    exact ⟨v, t, (execClear_eq_clearStep (s := { s with oracle := v :: s.oracle }) hf hleft).trans ht, hhist⟩

end

/-! ### What the reads leave alone (R53) -/

section

namespace Sys2Proof.Machine

/-- Nothing but the host model's fields, the hook's own pointer and the history differs (R53). -/
def ReadFrame (s t : State) : Prop :=
  t = { s with hpc := t.hpc, mainOp := t.mainOp, hookOp := t.hookOp, polled := t.polled, hist := t.hist,
               tickPhase := t.tickPhase } ∧
    (s.tickPhase = .idle → t.tickPhase = .idle) ∧
    ∀ k h pc, s.tickPhase = .hook k h pc → t.tickPhase = .hook k h pc ∨ t.tickPhase = .hook k h (pc + 1)

/-- A read retires with at most `polled` and the history changed. -/
theorem readFrame_retire (s : State) (polled : Bool) (hist : List Event) :
    ReadFrame s ({ s with polled := polled, hist := hist } : State).retire := by
  unfold State.retire
  split
  · next ht => exact ⟨rfl, fun _ => ht, fun _ _ _ => .inl⟩
  · next k h pc ht =>
    refine ⟨rfl, fun hi => absurd (ht.symm.trans hi) nofun, fun k' h' pc' hk => .inr ?_⟩
    cases ht.symm.trans hk
    rfl

/-- A wait that goes on keeps its progress. -/
theorem readFrame_keepOp (s : State) (op : MultiOp) : ReadFrame s (({ s with polled := true } : State).keepOp op) := by
  unfold State.keepOp
  split <;> exact ⟨rfl, id, fun k h pc => .inl⟩

theorem execFbrd_readFrame {off : Half} {s t : State} (h : execFbrd off s = .next t) (hf : t.fault = none) :
    ReadFrame s t := by
  obtain ⟨-, ⟨-, rfl⟩ | ⟨-, -, rfl⟩ | ⟨-, v, -, rfl⟩⟩ := execFbrd_next h
  · cases hf
  · cases hf
  · exact readFrame_retire s s.polled _

theorem execRdreg_readFrame {r : Reg} {s t : State} (h : execRdreg r s = .next t) (hf : t.fault = none) :
    ReadFrame s t := by
  obtain ⟨-, ⟨-, rfl⟩ | ⟨-, rfl⟩⟩ := execRdreg_next h
  · exact readFrame_retire s s.polled _
  · cases hf

theorem pollAttempt_readFrame {e : Bool} {r : Reg} {v : Half} {s t : State} (h : pollAttempt e r v s = .next t)
    (hf : t.fault = none) : ReadFrame s t := by
  obtain ⟨-, rfl⟩ | ⟨-, -, rfl⟩ | ⟨-, -, -, rfl⟩ | ⟨-, -, -, rfl⟩ := pollAttempt_next h
  · cases hf
  · cases hf
  · exact readFrame_retire s true _
  · exact readFrame_keepOp s _

theorem waitAttempt_readFrame {rem fl : Nat} {ph : WaitPhase} {s t : State} (h : waitAttempt rem ph fl s = .next t) :
    ReadFrame s t := by
  obtain ⟨rem', ph', -, -, rfl⟩ | ⟨-, -, -, rfl⟩ := waitAttempt_next h
  · exact readFrame_keepOp s _
  · exact readFrame_retire s true _

theorem execWaitf_readFrame {n : Half} {s t : State} (h : execWaitf n s = .next t) (hf : t.fault = none) :
    ReadFrame s t := by
  obtain ⟨-, ⟨-, rfl⟩ | ⟨-, rem, ph, fl, -, hw⟩ | ⟨-, -, ⟨-, rfl⟩ | ⟨-, -, rfl⟩ | ⟨-, -, hw⟩⟩⟩ := execWaitf_next h
  · cases hf
  · exact waitAttempt_readFrame hw
  · cases hf
  · exact readFrame_retire s s.polled s.hist
  · exact waitAttempt_readFrame hw

end Sys2Proof.Machine

open Sys2Proof Sys2Proof.Machine

/-- Settles O34: each of the reads, where it does not fault, retires or goes on waiting. -/
theorem readsHaveNoSideEffect : Obligations.ReadsHaveNoSideEffect := by
  rintro i s t ⟨r, v, n, off, rfl | rfl | rfl | rfl | rfl⟩ h hf
  · exact execRdreg_readFrame h hf
  · exact pollAttempt_readFrame (State.unlessFaulted_next.1 h).2 hf
  · exact pollAttempt_readFrame (State.unlessFaulted_next.1 h).2 hf
  · exact execWaitf_readFrame h hf
  · exact execFbrd_readFrame h hf

end

/-! ### The pixels of a row (R48, R93) -/

section

namespace Sys2Proof.Machine

/-- The `k`-th level of a byte is its bit `7 - k` (R48). -/
theorem byteLevels_getElem? {b : Byte} {k : Nat} (hk : k < 8) :
    (byteLevels b)[k]? = some (pixelLevel (b.getLsbD (7 - k))) := by
  simp [byteLevels, hk]

/-- Eight levels for each byte: the `x`-th level of a row is one of byte `x / 8` (R93). -/
theorem flatMap_byteLevels_getElem? (bytes : List Byte) (x : Nat) :
    (bytes.flatMap byteLevels)[x]? = bytes[x / 8]?.map fun b => pixelLevel (b.getLsbD (7 - x % 8)) := by
  induction bytes generalizing x with
  | nil => simp
  | cons b t ih =>
    have hlen : (byteLevels b).length = 8 := by simp [byteLevels]
    rw [List.flatMap_cons]
    obtain hx | hx := Nat.lt_or_ge x 8
    · rw [List.getElem?_append_left (by omega), byteLevels_getElem? hx, Nat.div_eq_of_lt hx, Nat.mod_eq_of_lt hx]
      rfl
    · have hsplit : x / 8 = (x - 8) / 8 + 1 ∧ x % 8 = (x - 8) % 8 := by omega
      rw [List.getElem?_append_right (by omega), hlen, ih, hsplit.1, hsplit.2, List.getElem?_cons_succ]

end Sys2Proof.Machine

open Sys2Proof Sys2Proof.Machine

/-- Settles O58: byte `x / 8` of the row is the one that pixel `x` is read from. -/
theorem pixelsGoMostSignificantBitFirst : Obligations.PixelsGoMostSignificantBitFirst := by
  intro p m y x hx
  have hbyte : x / 8 < p.rowByteWidth := by omega
  refine ⟨?_, rfl⟩
  rw [flatMap_byteLevels_getElem?, List.getElem?_map, List.getElem?_range hbyte]
  rfl

end

/-! ### The framebuffer's address (R42) -/

section

namespace Sys2Proof.Machine

/-- The state at another base address. -/
def State.rebase (s : State) (a : Word) : State := { s with fbBase := a }

/-- A branch between two states, on a condition that reads no address. -/
theorem ite_rebase {c : Prop} {_ : Decidable c} {a : Word} {t t' u u' : State} (ht : t' = t.rebase a)
    (hu : u' = u.rebase a) : (if c then t' else u') = (if c then t else u).rebase a := by
  split
  · exact ht
  · exact hu

theorem State.retire_rebase (s : State) (a : Word) : (s.rebase a).retire = s.retire.rebase a := by
  cases h : s.tickPhase with
  | idle => rw [State.retire_main h, State.retire_main (by exact h)]; rfl
  | hook k hd pc => rw [State.retire_hook h, State.retire_hook (by exact h)]; rfl

theorem State.keepOp_rebase (s : State) (a : Word) (op : MultiOp) :
    (s.rebase a).keepOp op = (s.keepOp op).rebase a :=
  ite_rebase rfl rfl

theorem State.drawNat_rebase (s : State) (a : Word) :
    (s.rebase a).drawNat = (s.drawNat.1, s.drawNat.2.rebase a) := by
  have ho : (s.rebase a).oracle = s.oracle := rfl
  rw [State.drawNat, State.drawNat, ho]
  cases s.oracle <;> rfl

theorem State.setHookSlot_rebase (s : State) (a : Word) (k : HookKind) (h : Half) :
    (s.rebase a).setHookSlot k h = (s.setHookSlot k h).rebase a := by cases k <;> rfl

theorem State.lineAdvance_rebase (s : State) (a : Word) : (s.rebase a).lineAdvance = s.lineAdvance.rebase a :=
  ite_rebase rfl rfl

/-- The second answer is the first, but for the base address of a next state. -/
def SameButBase : Result → Result → Prop
  | .next t, k => ∃ b, k = .next (t.rebase b)
  | .fault c, k => k = .fault c
  | .refused r, k => k = .refused r

theorem SameButBase.next (t : State) (b : Word) : SameButBase (.next t) (.next (t.rebase b)) := ⟨b, rfl⟩

theorem SameButBase.of_rebase {t u : State} {b : Word} (h : u = t.rebase b) : SameButBase (.next t) (.next u) :=
  h ▸ .next t b

theorem SameButBase.refused (r : Refusal) : SameButBase (.refused r) (.refused r) := rfl

/-- The guard on a faulted state reads no address (R116). -/
theorem SameButBase.unlessFaulted {s : State} {a : Word} {k k' : Result} (h : SameButBase k k') :
    SameButBase (s.unlessFaulted k) ((s.rebase a).unlessFaulted k') := by
  cases hf : s.fault with
  | none => rwa [State.unlessFaulted_of_none hf, State.unlessFaulted_of_none (by exact hf)]
  | some c => rw [State.unlessFaulted_of_some hf, State.unlessFaulted_of_some (by exact hf)]; rfl

/-- A branch on what reads no address. -/
theorem SameButBase.ite {c : Prop} [Decidable c] {k k' l l' : Result} (hk : SameButBase k k')
    (hl : SameButBase l l') : SameButBase (if c then k else l) (if c then k' else l') := by
  split
  · exact hk
  · exact hl

/-- A check that raises its fault reads no address. -/
theorem SameButBase.check {s : State} {a : Word} {c : Prop} [Decidable c] {f : Fault} {k k' : Result}
    (h : SameButBase k k') :
    SameButBase (if c then .next (s.raise f) else k) (if c then .next ((s.rebase a).raise f) else k') :=
  .ite (.next _ a) h

/-- A command that retires reads no address in doing so, and neither does one that keeps its progress. -/
theorem SameButBase.retire (t : State) (b : Word) : SameButBase (.next t.retire) (.next (t.rebase b).retire) :=
  .of_rebase (t.retire_rebase b)

theorem SameButBase.keepOp (t : State) (b : Word) (op : MultiOp) :
    SameButBase (.next (t.keepOp op)) (.next ((t.rebase b).keepOp op)) :=
  .of_rebase (t.keepOp_rebase b op)

/-- An agent that takes no step holds at either address (log 4). -/
theorem SameButBase.hold (s : State) (a : Word) : SameButBase s.hold (s.rebase a).hold := .next s a

/-! #### The commands -/

/-- BEGIN draws its own address (R103). -/
theorem execBegin_rebase (m : Byte) (s : State) (a : Word) :
    SameButBase (execBegin m s) (execBegin m (s.rebase a)) := by
  refine .unlessFaulted (.check (.check ?_))
  have hp : (s.rebase a).params = s.params := rfl
  rw [hp]
  split
  · exact .refused _
  · refine .ite ?_ (.next _ a)
    rw [State.drawNat_rebase]
    exact .retire _ _

theorem execEnd_rebase (s : State) (a : Word) : SameButBase (execEnd s) (execEnd (s.rebase a)) :=
  .unlessFaulted (.check (.check (.retire (s.stopped.record .ended) a)))

theorem State.writeByte_rebase (s : State) (a : Word) (off : Nat) (v : Byte) :
    (s.rebase a).writeByte off v = (s.writeByte off v).map (State.rebase · a) := by
  have hfb : (s.rebase a).fb = s.fb := rfl
  have hp : (s.rebase a).prof = s.prof := rfl
  rw [State.writeByte, State.writeByte, hfb, hp]
  cases s.fb with
  | none => rfl
  | some m => by_cases h : off < fbSize s.prof <;> simp [h, State.rebase]

theorem clearStep_rebase (left : List Nat) (s : State) (a : Word) :
    SameButBase (clearStep left s) (clearStep left (s.rebase a)) := by
  rw [clearStep, clearStep, State.drawNat_rebase]
  dsimp only
  cases left[s.drawNat.1 % left.length]? with
  | none => exact .refused _
  | some r =>
    dsimp only
    rw [State.writeByte_rebase]
    cases s.drawNat.2.writeByte r 0 with
    | none => exact .refused _
    | some t => exact .ite (.retire (t.record _) a) (.keepOp (t.record _) a _)

theorem execClear_rebase (s : State) (a : Word) : SameButBase (execClear s) (execClear (s.rebase a)) := by
  refine .unlessFaulted ?_
  have hc : (s.rebase a).clearLeft = s.clearLeft := rfl
  rw [hc]
  cases s.clearLeft with
  | none => exact .check (clearStep_rebase _ s a)
  | some left => exact clearStep_rebase left s a

theorem execFbrd_rebase (off : Half) (s : State) (a : Word) :
    SameButBase (execFbrd off s) (execFbrd off (s.rebase a)) := by
  refine .unlessFaulted (.check (.check ?_))
  have hr : (s.rebase a).readByte off.toNat = s.readByte off.toNat := rfl
  rw [hr]
  cases s.readByte off.toNat with
  | none => exact .refused _
  | some v => exact .retire (s.record _) a

theorem execFbwr_rebase (data : Byte) (off : Half) (s : State) (a : Word) :
    SameButBase (execFbwr data off s) (execFbwr data off (s.rebase a)) := by
  refine .unlessFaulted (.check (.check ?_))
  rw [State.writeByte_rebase]
  cases s.writeByte off.toNat data with
  | none => exact .refused _
  | some t => exact .retire (t.record _) a

theorem execSethook_rebase (k : HookKind) (h : Half) (s : State) (a : Word) :
    SameButBase (execSethook k h s) (execSethook k h (s.rebase a)) := by
  refine .unlessFaulted ?_
  rw [State.setHookSlot_rebase]
  exact .retire _ _

/-- FBBASE is the one register that reads the address (R37). -/
theorem regValue_rebase {r : Reg} (hr : r ≠ .fbbase) (s : State) (a : Word) :
    regValue (s.rebase a) r = regValue s r := by
  cases r with
  | fbbase => exact absurd rfl hr
  | _ => rfl

theorem execRdreg_rebase {r : Reg} (hr : r ≠ .fbbase) (s : State) (a : Word) :
    SameButBase (execRdreg r s) (execRdreg r (s.rebase a)) := by
  refine .unlessFaulted (.ite ?_ (.next _ a))
  rw [regValue_rebase hr]
  exact .retire (s.record _) a

theorem pollAttempt_rebase {r : Reg} (hr : r ≠ .fbbase) (e : Bool) (v : Half) (s : State) (a : Word) :
    SameButBase (pollAttempt e r v s) (pollAttempt e r v (s.rebase a)) := by
  refine .check (.check ?_)
  rw [regValue_rebase hr]
  exact .ite (.retire (({ s with polled := true } : State).record _) a) (.keepOp { s with polled := true } a _)

theorem waitAttempt_rebase (rem : Nat) (ph : WaitPhase) (fl : Nat) (s : State) (a : Word) :
    SameButBase (waitAttempt rem ph fl s) (waitAttempt rem ph fl (s.rebase a)) := by
  cases ph with
  | seekEq => exact .keepOp { s with polled := true } a _
  | seekNe =>
    exact .ite (.keepOp { s with polled := true } a _)
      (.ite (.retire (({ s with polled := true } : State).record _) a) (.keepOp { s with polled := true } a _))

theorem execWaitf_rebase (n : Half) (s : State) (a : Word) :
    SameButBase (execWaitf n s) (execWaitf n (s.rebase a)) := by
  refine .unlessFaulted (.check ?_)
  have hw : (s.rebase a).waitProgress = s.waitProgress := rfl
  rw [hw]
  cases s.waitProgress with
  | none => exact .check (.ite (.retire s a) (waitAttempt_rebase _ _ _ s a))
  | some w => exact waitAttempt_rebase _ _ _ s a

/-! #### The events -/

theorem execBoundary_rebase (s : State) (a : Word) : SameButBase (execBoundary s) (execBoundary (s.rebase a)) := by
  refine .unlessFaulted (.ite (.of_rebase (b := a) ?_) (.hold s a))
  exact congrArg State.latch (ite_rebase (t := s.record (.deadlineMiss s.line)) rfl rfl)

theorem execCompare_rebase (s : State) (a : Word) : SameButBase (execCompare s) (execCompare (s.rebase a)) := by
  refine .unlessFaulted (.ite (.of_rebase (b := a) ?_) (.hold s a))
  exact congrArg (fun t : State => { t with tickPending := true, timerPhase := .nextBoundary })
    (ite_rebase (t := s.record (.lostTick s.line)) rfl rfl)

theorem State.finishTick_rebase (s : State) (a : Word) (c : Nat) :
    (s.rebase a).finishTick c = (s.finishTick c).rebase a :=
  ite_rebase rfl (ite_rebase rfl (State.lineAdvance_rebase { s with dutyNext := tickDuty c } a))

theorem State.runTick_rebase (s : State) (a : Word) : (s.rebase a).runTick = s.runTick.rebase a :=
  ite_rebase (ite_rebase rfl (s.dispatchRow.finishTick_rebase a s.line)) (s.enterTick.finishTick_rebase a s.line)

theorem execTick_rebase (s : State) (a : Word) : SameButBase (execTick s) (execTick (s.rebase a)) :=
  .unlessFaulted (.ite (.of_rebase (s.runTick_rebase a)) (.hold s a))

theorem execHookret_rebase (s : State) (a : Word) : SameButBase (execHookret s) (execHookret (s.rebase a)) := by
  refine .unlessFaulted (.ite (.of_rebase (b := a) ?_) (.hold s a))
  exact congrArg (fun t : State => { t with tickPhase := .idle }) ((s.record (.hookRet s.line)).lineAdvance_rebase a)

theorem State.shiftByte_rebase (s : State) (a : Word) (off n i : Nat) (b : Byte) :
    (s.rebase a).shiftByte off n i b = (s.shiftByte off n i b).rebase a :=
  ite_rebase rfl rfl

theorem execDmabyte_rebase (s : State) (a : Word) : SameButBase (execDmabyte s) (execDmabyte (s.rebase a)) := by
  refine .unlessFaulted (.ite ?_ (.hold s a))
  have hd : (s.rebase a).dma = s.dma := rfl
  rw [hd]
  cases s.dma with
  | idle => exact .hold s a
  | busy off n i =>
    have hr : (s.rebase a).readByte (off + i) = s.readByte (off + i) := rfl
    dsimp only
    rw [hr]
    cases s.readByte (off + i) with
    | none => exact .refused _
    | some b => exact .of_rebase (s.shiftByte_rebase a off n i b)

theorem execDmadone_rebase (s : State) (a : Word) : SameButBase (execDmadone s) (execDmadone (s.rebase a)) :=
  .unlessFaulted (.ite (.next _ a) (.hold s a))

/-- An instruction that does not read FBBASE answers the same at either address (R42). -/
theorem exec_rebase {i : Instr}
    (hi : ∀ v, i ≠ .cmdRdreg .fbbase ∧ i ≠ .cmdPolleq .fbbase v ∧ i ≠ .cmdPollne .fbbase v) (s : State) (a : Word) :
    SameButBase (exec i s) (exec i (s.rebase a)) := by
  cases i with
  | cmdBegin mode => exact execBegin_rebase mode s a
  | cmdEnd => exact execEnd_rebase s a
  | cmdClear => exact execClear_rebase s a
  | cmdFbrd off => exact execFbrd_rebase off s a
  | cmdFbwr data off => exact execFbwr_rebase data off s a
  | cmdSethook kind handle => exact execSethook_rebase kind handle s a
  | cmdRdreg reg => exact execRdreg_rebase (fun h => (hi 0).1 (h ▸ rfl)) s a
  | cmdPolleq reg value =>
    exact .unlessFaulted (pollAttempt_rebase (fun h => (hi value).2.1 (h ▸ rfl)) true value s a)
  | cmdPollne reg value =>
    exact .unlessFaulted (pollAttempt_rebase (fun h => (hi value).2.2 (h ▸ rfl)) false value s a)
  | cmdWaitf n => exact execWaitf_rebase n s a
  | evBoundary => exact execBoundary_rebase s a
  | evCompare => exact execCompare_rebase s a
  | evTick => exact execTick_rebase s a
  | evHookret => exact execHookret_rebase s a
  | evDmabyte => exact execDmabyte_rebase s a
  | evDmadone => exact execDmadone_rebase s a

end Sys2Proof.Machine

open Sys2Proof Sys2Proof.Machine

/-- Settles O50: no meaning reads the address, but for the reads of FBBASE. -/
theorem baseAddressInfluencesNothing : Obligations.BaseAddressInfluencesNothing := by
  intro i s a hi
  have h := exec_rebase hi s a
  refine ⟨fun t ht => ?_, fun c hc => ?_, fun r hr => ?_⟩
  · rw [ht] at h
    exact h
  · rw [hc] at h
    exact h
  · rw [hr] at h
    exact h

end

/-! ### The decoder inverts the encoder (R61..R65) -/

section

namespace Sys2Proof

@[simp] theorem Decoded.whenZero_eq_ok {unused : Bool} {i j : Instr} :
    Decoded.whenZero unused i = .ok j ↔ unused = true ∧ i = j := by
  cases unused <;> simp [Decoded.whenZero]

@[simp] theorem decodeReg_num (r : Reg) (k : Reg → Decoded) : decodeReg r.num k = k r := by simp [decodeReg]

@[simp] theorem decodeKind_num (x : HookKind) (k : HookKind → Decoded) : decodeKind x.num k = k x := by
  simp [decodeKind]

/-- A register operand decodes only from the number of a register (R64, R66). -/
theorem decodeReg_eq_ok {a : Byte} {k : Reg → Decoded} {i : Instr} :
    decodeReg a k = .ok i ↔ ∃ r, a = r.num ∧ k r = .ok i := by
  constructor
  · intro h
    unfold decodeReg at h
    split at h
    · next r hr => exact ⟨r, Reg.ofNum_eq_some.1 hr, h⟩
    · cases h
  · rintro ⟨r, rfl, h⟩
    rwa [decodeReg_num]

/-- A SETHOOK kind decodes only from the number of a hook slot (R64, R66). -/
theorem decodeKind_eq_ok {a : Byte} {k : HookKind → Decoded} {i : Instr} :
    decodeKind a k = .ok i ↔ ∃ x, a = x.num ∧ k x = .ok i := by
  constructor
  · intro h
    unfold decodeKind at h
    split at h
    · next x hx => exact ⟨x, HookKind.ofNum_eq_some.1 hx, h⟩
    · cases h
  · rintro ⟨x, rfl, h⟩
    rwa [decodeKind_num]

@[simp] theorem decode_encode (i : Instr) : decode (encode i) = .ok i := by
  cases i <;> simp [encode, decodeFields]

/-- The decoder's row for each opcode, read backwards: a word's fields that decode are those of the instruction's own
word (R65). -/
theorem encode_of_decodeFields {op a : Byte} {b : Half} {i : Instr} (h : decodeFields op a b = .ok i) :
    encode i = mkWord op a b := by
  have hop : op = BitVec.ofNat 8 op.toNat := by simp
  unfold decodeFields at h
  split at h
  case h_17 => cases h
  all_goals
    rename_i hn
    rw [hn] at hop
    subst hop
    simp only [Decoded.whenZero_eq_ok, decodeKind_eq_ok, decodeReg_eq_ok, Decoded.ok.injEq, Bool.and_eq_true,
      beq_iff_eq] at h
  case h_1 | h_4 | h_10 => obtain ⟨rfl, rfl⟩ := h; rfl
  case h_5 => obtain rfl := h; rfl
  case h_6 | h_8 | h_9 => obtain ⟨_, rfl, rfl⟩ := h; rfl
  case h_7 => obtain ⟨_, rfl, rfl, rfl⟩ := h; rfl
  all_goals obtain ⟨⟨rfl, rfl⟩, rfl⟩ := h; rfl

/-- The decoder is the encoder's inverse (R61, R65). -/
theorem decode_eq_ok_iff {w : Word} {i : Instr} : decode w = .ok i ↔ encode i = w := by
  constructor
  · intro h
    rw [encode_of_decodeFields h, mkWord_fields]
  · rintro rfl
    exact decode_encode i

end Sys2Proof

open Sys2Proof

/-- Settles O1: each instruction's word decodes by its row's opcode, and every word is one of 32 bits. -/
theorem decodeInvertsEncode : Obligations.DecodeInvertsEncode := fun i =>
  ⟨decode_encode i, by simp [decodeTableWord, (encode i).isLt, Decoded.toOption]⟩

/-- Settles O2: the decoder's rows, read backwards. -/
theorem encodeInvertsDecode : Obligations.EncodeInvertsDecode := fun _ _ => decode_eq_ok_iff.1

end

/-! ### The opcode map as conditions on the fields (R62, R64, R65) -/

section

namespace Sys2Proof

theorem opField_toNat (w : Word) : (opField w).toNat = w.toNat / 2 ^ 24 := by
  have := w.isLt
  simp only [opField, BitVec.extractLsb'_toNat, Nat.shiftRight_eq_div_pow]
  omega

theorem aField_toNat (w : Word) : (aField w).toNat = w.toNat / 2 ^ 16 % 2 ^ 8 := by
  simp [aField, Nat.shiftRight_eq_div_pow]

theorem bField_toNat (w : Word) : (bField w).toNat = w.toNat % 2 ^ 16 := by
  simp [bField]

theorem Reg.num_lt (r : Reg) : r.num.toNat < 16 := by cases r <;> decide

theorem HookKind.num_le (k : HookKind) : k.num.toNat ≤ 1 := by cases k <;> decide

/-- The numbers of the registers are 0x00..0x0F (R37). -/
theorem Reg.exists_num {a : Byte} (h : a.toNat < 16) : ∃ r : Reg, a = r.num := by
  have hs : (Reg.ofNum a.toNat).isSome := by
    revert a
    decide
  obtain ⟨r, hr⟩ := Option.isSome_iff_exists.1 hs
  exact ⟨r, Reg.ofNum_eq_some.1 hr⟩

/-- The numbers of the SETHOOK kinds are 0 and 1 (R64). -/
theorem HookKind.exists_num {a : Byte} (h : a.toNat ≤ 1) : ∃ k : HookKind, a = k.num := by
  have hs : (HookKind.ofNum a.toNat).isSome := by
    revert a
    decide
  obtain ⟨k, hk⟩ := Option.isSome_iff_exists.1 hs
  exact ⟨k, HookKind.ofNum_eq_some.1 hk⟩

/-- What a row of R65 asks of the three fields: its opcode, operands in range (R64) and 0 in the fields it does not
use. -/
def Mnemonic.Fits : Mnemonic → Byte → Byte → Half → Prop
  | .BEGIN, op, _, b => op = 0x01 ∧ b = 0
  | .END, op, a, b => op = 0x02 ∧ a = 0 ∧ b = 0
  | .CLEAR, op, a, b => op = 0x03 ∧ a = 0 ∧ b = 0
  | .FBRD, op, a, _ => op = 0x04 ∧ a = 0
  | .FBWR, op, _, _ => op = 0x05
  | .SETHOOK, op, a, _ => op = 0x06 ∧ a.toNat ≤ 1
  | .RDREG, op, a, b => op = 0x07 ∧ a.toNat < 16 ∧ b = 0
  | .POLLEQ, op, a, _ => op = 0x08 ∧ a.toNat < 16
  | .POLLNE, op, a, _ => op = 0x09 ∧ a.toNat < 16
  | .WAITF, op, a, _ => op = 0x0A ∧ a = 0
  | .EV_BOUNDARY, op, a, b => op = 0x80 ∧ a = 0 ∧ b = 0
  | .EV_COMPARE, op, a, b => op = 0x81 ∧ a = 0 ∧ b = 0
  | .EV_TICK, op, a, b => op = 0x82 ∧ a = 0 ∧ b = 0
  | .EV_HOOKRET, op, a, b => op = 0x83 ∧ a = 0 ∧ b = 0
  | .EV_DMABYTE, op, a, b => op = 0x84 ∧ a = 0 ∧ b = 0
  | .EV_DMADONE, op, a, b => op = 0x85 ∧ a = 0 ∧ b = 0

/-- A word is that of some instruction of a row exactly where its fields fit the row. -/
theorem exists_encode_iff_fits {m : Mnemonic} {w : Word} :
    (∃ i, encode i = w ∧ i.mnemonic = m) ↔ m.Fits (opField w) (aField w) (bField w) := by
  constructor
  · rintro ⟨i, rfl, rfl⟩
    cases i <;> simp [encode, Instr.mnemonic, Mnemonic.Fits, HookKind.num_le, Reg.num_lt]
  · intro h
    rw [← mkWord_fields w]
    generalize opField w = op, aField w = a, bField w = b at *
    cases m with
    | BEGIN => obtain ⟨rfl, rfl⟩ := h; exact ⟨.cmdBegin a, rfl, rfl⟩
    | END => obtain ⟨rfl, rfl, rfl⟩ := h; exact ⟨.cmdEnd, rfl, rfl⟩
    | CLEAR => obtain ⟨rfl, rfl, rfl⟩ := h; exact ⟨.cmdClear, rfl, rfl⟩
    | FBRD => obtain ⟨rfl, rfl⟩ := h; exact ⟨.cmdFbrd b, rfl, rfl⟩
    | FBWR => obtain rfl := h; exact ⟨.cmdFbwr a b, rfl, rfl⟩
    | SETHOOK =>
      obtain ⟨rfl, h⟩ := h
      obtain ⟨k, rfl⟩ := HookKind.exists_num h
      exact ⟨.cmdSethook k b, rfl, rfl⟩
    | RDREG =>
      obtain ⟨rfl, h, rfl⟩ := h
      obtain ⟨r, rfl⟩ := Reg.exists_num h
      exact ⟨.cmdRdreg r, rfl, rfl⟩
    | POLLEQ =>
      obtain ⟨rfl, h⟩ := h
      obtain ⟨r, rfl⟩ := Reg.exists_num h
      exact ⟨.cmdPolleq r b, rfl, rfl⟩
    | POLLNE =>
      obtain ⟨rfl, h⟩ := h
      obtain ⟨r, rfl⟩ := Reg.exists_num h
      exact ⟨.cmdPollne r b, rfl, rfl⟩
    | WAITF => obtain ⟨rfl, rfl⟩ := h; exact ⟨.cmdWaitf b, rfl, rfl⟩
    | EV_BOUNDARY => obtain ⟨rfl, rfl, rfl⟩ := h; exact ⟨.evBoundary, rfl, rfl⟩
    | EV_COMPARE => obtain ⟨rfl, rfl, rfl⟩ := h; exact ⟨.evCompare, rfl, rfl⟩
    | EV_TICK => obtain ⟨rfl, rfl, rfl⟩ := h; exact ⟨.evTick, rfl, rfl⟩
    | EV_HOOKRET => obtain ⟨rfl, rfl, rfl⟩ := h; exact ⟨.evHookret, rfl, rfl⟩
    | EV_DMABYTE => obtain ⟨rfl, rfl, rfl⟩ := h; exact ⟨.evDmabyte, rfl, rfl⟩
    | EV_DMADONE => obtain ⟨rfl, rfl, rfl⟩ := h; exact ⟨.evDmadone, rfl, rfl⟩

/-- The columns "mask" and "match" of R65, field by field. -/
theorem and_mask_eq_pattern_iff_fits {m : Mnemonic} {w : Word} :
    w &&& m.mask = m.pattern ↔ m.Fits (opField w) (aField w) (bField w) := by
  have byte (x : Byte) : x &&& 255#8 = x := BitVec.and_allOnes
  have half (x : Half) : x &&& 65535#16 = x := BitVec.and_allOnes
  have kind : ∀ x : Byte, x &&& 254#8 = 0#8 ↔ x.toNat ≤ 1 := by decide
  have reg : ∀ x : Byte, x &&& 240#8 = 0#8 ↔ x.toNat < 16 := by decide
  rw [← mkWord_fields m.mask, ← mkWord_fields m.pattern]
  generalize ho : opField w = op, ha : aField w = a, hb : bField w = b
  rw [← mkWord_fields w, mkWord_and, mkWord_inj, ho, ha, hb]
  cases m <;>
    simp [Mnemonic.mask, Mnemonic.pattern, Mnemonic.Fits, opField, aField, bField, byte, half, kind, reg]

end Sys2Proof

namespace Sys2Proof.Safety

theorem registerTable_num (r : Reg) : registerTable[r.num.toNat % 2 ^ 4]? = some r := by cases r <;> rfl

theorem operandsAre_encode (i : Instr) : OperandsAre (encode i) i := by
  have kind (w : Word) : w.toNat / 2 ^ 16 % 2 = (aField w).toNat % 2 := by rw [aField_toNat]; omega
  have reg (w : Word) : w.toNat / 2 ^ 16 % 2 ^ 4 = (aField w).toNat % 2 ^ 4 := by rw [aField_toNat]; omega
  cases i <;>
    simp only [OperandsAre, encode, ← aField_toNat, ← bField_toNat, kind, reg, aField_mkWord, bField_mkWord,
      registerTable_num, and_self, and_true]
  case cmdSethook k _ => cases k <;> decide

end Sys2Proof.Safety

open Sys2Proof Sys2Proof.Safety

/-- Settles O3: to match a row's mask and to be the word of an instruction of that row both mean that the fields fit
the row; a word is decoded once, so it fits one row only. -/
theorem decodeAgreesWithMaskAndMatch : Obligations.DecodeAgreesWithMaskAndMatch := by
  have row (w : Word) (m : Mnemonic) : (∃ i, decode w = .ok i ∧ i.mnemonic = m) ↔ w &&& m.mask = m.pattern := by
    simp only [decode_eq_ok_iff, exists_encode_iff_fits, and_mask_eq_pattern_iff_fits]
  refine ⟨row, fun w m m' h h' => ?_, fun w i h => ?_⟩
  · obtain ⟨i, hi, rfl⟩ := (row w m).2 h
    obtain ⟨j, hj, rfl⟩ := (row w m').2 h'
    cases hi.symm.trans hj
    rfl
  · rw [← decode_eq_ok_iff.1 h]
    exact operandsAre_encode i

end

/-! ### Fetching and running one instruction (R63, R66, R70, R81, R100; log 11) -/

section

namespace Sys2Proof

theorem decodeCommand_eq_ok_iff {w : Word} {i : Instr} :
    decodeCommand w = .ok i ↔ decode w = .ok i ∧ i.isEvent = false := by
  unfold decodeCommand
  cases decode w with
  | reject r => simp
  | ok j =>
    dsimp only
    constructor
    · intro h
      split at h
      · cases h
      · next he =>
        cases h
        exact ⟨rfl, by simpa using he⟩
    · rintro ⟨hj, he⟩
      cases hj
      simp [he]

theorem decodeEvent_eq_ok_iff {w : Word} {i : Instr} :
    decodeEvent w = .ok i ↔ decode w = .ok i ∧ i.isEvent = true := by
  unfold decodeEvent
  cases decode w with
  | reject r => simp
  | ok j =>
    dsimp only
    constructor
    · intro h
      split at h
      · next he =>
        cases h
        exact ⟨rfl, he⟩
      · cases h
    · rintro ⟨hj, he⟩
      cases hj
      simp [he]

/-- The rows of format H (R62, R65). -/
def commandRows : List Mnemonic :=
  [.BEGIN, .END, .CLEAR, .FBRD, .FBWR, .SETHOOK, .RDREG, .POLLEQ, .POLLNE, .WAITF]

theorem mnemonic_mem_commandRows {i : Instr} : i.mnemonic ∈ commandRows ↔ i.isEvent = false := by
  cases i <;> simp [Instr.mnemonic, Instr.isEvent, commandRows]

/-- A word is no command exactly where it fits no row of format H. -/
theorem decodeCommand_ne_ok_iff {w : Word} :
    (∀ i, decodeCommand w ≠ .ok i) ↔ ∀ m ∈ commandRows, ¬ m.Fits (opField w) (aField w) (bField w) := by
  simp only [Ne, decodeCommand_eq_ok_iff, decode_eq_ok_iff, ← mnemonic_mem_commandRows, ← exists_encode_iff_fits]
  constructor
  · rintro h m hm ⟨i, hi, rfl⟩
    exact h i ⟨hi, hm⟩
  · rintro h i ⟨hi, hm⟩
    exact h _ hm ⟨i, hi, rfl⟩

/-- R66's list is the complement of the rows of format H. -/
theorem reservedCommand_iff {w : Word} :
    Safety.ReservedCommand w ↔ ∀ m ∈ commandRows, ¬ m.Fits (opField w) (aField w) (bField w) := by
  have hop := (opField w).isLt
  simp only [Safety.ReservedCommand, ← opField_toNat, ← aField_toNat, ← bField_toNat, commandRows,
    List.forall_mem_cons, List.not_mem_nil, false_imp_iff, implies_true, and_true, Mnemonic.Fits, ← BitVec.toNat_inj]
  generalize (opField w).toNat = op, (aField w).toNat = a, (bField w).toNat = b at *
  simp only [BitVec.reduceToNat]
  -- An opcode 0x01..0x0A has one row, whose condition is left; every other one is reserved and has no row.
  by_cases h : op ≤ 10
  · interval_cases op <;> simp
    all_goals omega
  · exact iff_of_true (by omega) (by omega)

/-- The words of format E (R63, R65). -/
theorem decodeEvent_ok_iff {w : Word} :
    (∃ i, decodeEvent w = .ok i) ↔
      w = 0x80000000 ∨ w = 0x81000000 ∨ w = 0x82000000 ∨ w = 0x83000000 ∨ w = 0x84000000 ∨ w = 0x85000000 := by
  constructor
  · rintro ⟨i, h⟩
    obtain ⟨hi, he⟩ := decodeEvent_eq_ok_iff.1 h
    rw [← decode_eq_ok_iff.1 hi]
    cases i <;> cases he <;> decide
  · rintro (rfl | rfl | rfl | rfl | rfl | rfl)
    exacts [⟨.evBoundary, by decide⟩, ⟨.evCompare, by decide⟩, ⟨.evTick, by decide⟩, ⟨.evHookret, by decide⟩,
      ⟨.evDmabyte, by decide⟩, ⟨.evDmadone, by decide⟩]

end Sys2Proof

namespace Sys2Proof.Machine

theorem agentEvent_agentOf {i : Instr} (h : i.isEvent = true) : agentEvent (agentOf i) = some i := by
  cases i <;> cases h <;> rfl

/-- An event agent fetches its own event, whatever the state is (R63). -/
theorem fetch_event {i : Instr} (h : i.isEvent = true) (s : State) : fetch (agentOf i) s = .run i := by
  simp only [fetch, agentEvent_agentOf h]

/-- With no command in progress, a context fetches the command at its pointer. -/
theorem fetchCommand_run {program : List Word} {pc : Nat} {w : Word} {i : Instr} (hp : program[pc]? = some w)
    (hi : decodeCommand w = .ok i) : fetchCommand none program pc = .run i := by
  simp only [fetchCommand, hp, hi]

/-- A word that is no command is illegal where a context reaches it (R66). -/
theorem fetchCommand_illegal {program : List Word} {pc : Nat} {w : Word} (hp : program[pc]? = some w)
    (hi : ∀ i, decodeCommand w ≠ .ok i) : fetchCommand none program pc = .illegal := by
  simp only [fetchCommand, hp]
  split
  · next i h => exact absurd h (hi i)
  · rfl

/-- `s` has reached the word `w`: a context that is scheduled next, with no command in progress, points to it. -/
def Reaches (s : State) (rest : List Agent) (w : Word) : Prop :=
  (s.sched = .host :: rest ∧ s.tickPhase = .idle ∧ s.mainOp = none ∧ s.params.mainProgram[s.hpc]? = some w) ∨
    (s.sched = .hook :: rest ∧ s.hookOp = none ∧
      ∃ k h pc, s.tickPhase = .hook k h pc ∧ (s.hookProgram h)[pc]? = some w)

section

variable {s : State} {rest : List Agent} {i : Instr} {w : Word}

/-- The agent that has reached a word fetches it with no command in progress. -/
theorem Reaches.fetch_eq (h : Reaches s rest w) :
    ∃ a program pc, s.sched = a :: rest ∧ program[pc]? = some w ∧
      fetch a { s with sched := rest } = fetchCommand none program pc := by
  obtain ⟨hs, ht, ho, hw⟩ | ⟨hs, ho, k, hd, pc, ht, hw⟩ := h
  · exact ⟨_, _, _, hs, hw, by rw [fetch_host (s := { s with sched := rest }) ht, ← ho]⟩
  · exact ⟨_, _, _, hs, hw, by rw [fetch_hook (s := { s with sched := rest }) ht, ← ho]; rfl⟩

variable (hf : s.fault = none) (hw : s.params.wf = true)
include hf hw

/-- A command that is reached runs (R81, R100). -/
theorem step_of_reaches_command (h : Reaches s rest w) (hi : decodeCommand w = .ok i) :
    step s = exec i { s with sched := rest } := by
  obtain ⟨a, program, pc, hs, hp, hfetch⟩ := h.fetch_eq
  rw [step_of_fetch hf hw hs, hfetch, fetchCommand_run hp hi]

/-- A word that is no command faults where it is reached (R66). -/
theorem step_of_reaches_illegal (h : Reaches s rest w) (hi : ∀ i, decodeCommand w ≠ .ok i) :
    step s = .next (({ s with sched := rest } : State).raise .illegalCommand) := by
  obtain ⟨a, program, pc, hs, hp, hfetch⟩ := h.fetch_eq
  rw [step_of_fetch hf hw hs, hfetch, fetchCommand_illegal hp hi]

/-- An event's agent runs its event (R6, R63). -/
theorem step_of_event (hi : i.isEvent = true) (hs : s.sched = agentOf i :: rest) :
    step s = exec i { s with sched := rest } := by
  rw [step_of_fetch hf hw hs, fetch_event hi]

end

theorem withFetchWord_toNat (s : State) (w : Word) : s.withFetchWord 32 w.toNat = s.loadWord w := by
  rw [State.withFetchWord, Nat.mod_eq_of_lt w.isLt, BitVec.ofNat_toNat, BitVec.setWidth_eq]

/-- An event's word is placed as the head of the schedule (log 11). -/
theorem withFetchWord_event {i : Instr} (hi : i.isEvent = true) (s : State) :
    s.withFetchWord 32 (encode i).toNat = { s with sched := agentOf i :: s.sched } := by
  have hd : decodeEvent (encode i) = .ok i := decodeEvent_eq_ok_iff.2 ⟨decode_encode i, hi⟩
  simp only [withFetchWord_toNat, State.loadWord, hd]

/-- A command's word is placed as the main program, scheduled next (log 11). -/
theorem withFetchWord_command {i : Instr} (hi : i.isEvent = false) (s : State) :
    s.withFetchWord 32 (encode i).toNat =
      { s with params := { s.params with mainProgram := [encode i] }, hpc := 0, mainOp := none, tickPhase := .idle,
               sched := .host :: s.sched } := by
  have hd : decodeEvent (encode i) = .reject .commandInSchedule := by simp [decodeEvent, hi]
  simp only [withFetchWord_toNat, State.loadWord, hd]

end Sys2Proof.Machine

open Sys2Proof Sys2Proof.Machine

/-- Settles O5: R66's list is the complement of the command rows, and a reached word that is no command is fetched as
illegal. -/
theorem reservedWordsFaultWhereTheyAreReached : Obligations.ReservedWordsFaultWhereTheyAreReached :=
  ⟨fun _ => reservedCommand_iff.trans decodeCommand_ne_ok_iff.symm,
    fun _ _ _ hr hf hw h => step_of_reaches_illegal hf hw h (decodeCommand_ne_ok_iff.2 (reservedCommand_iff.1 hr)),
    fun _ => decodeEvent_ok_iff⟩

/-- Settles O6: the main context, a hook and an event agent each run what they fetch. -/
theorem stepRunsTheDecodedInstruction : Obligations.StepRunsTheDecodedInstruction := by
  intro s rest hf hw
  refine ⟨fun w i hi => ⟨fun hs ht ho hp => ?_, fun k h pc hs ht ho hp => ?_⟩, fun w i hi hs => ?_⟩
  · exact step_of_reaches_command hf hw (.inl ⟨hs, ht, ho, hp⟩) hi
  · exact step_of_reaches_command hf hw (.inr ⟨hs, ho, k, h, pc, ht, hp⟩) hi
  · exact step_of_event hf hw (decodeEvent_eq_ok_iff.1 hi).2 hs

/-- Settles O13: a placed event is at the head of the schedule, and a placed command is reached by the main context. -/
theorem placedWordRunsNext : Obligations.PlacedWordRunsNext := by
  intro s i hf hw
  cases hi : i.isEvent with
  | true =>
    refine ⟨s, ?_, fun _ => rfl, nofun⟩
    rw [withFetchWord_event hi]
    exact step_of_event hf hw hi rfl
  | false =>
    refine ⟨_, ?_, nofun, fun _ => rfl⟩
    rw [withFetchWord_command hi]
    exact step_of_reaches_command hf hw (.inl ⟨rfl, rfl, rfl, rfl⟩)
      (decodeCommand_eq_ok_iff.2 ⟨decode_encode i, hi⟩)

/-- Settles O4: the decoder is run on each of the words. -/
theorem specVectorsDecode : Obligations.SpecVectorsDecode := by
  unfold Obligations.SpecVectorsDecode
  decide

end

/-! ### The pulses under TIMING_ASSUMPTIONS (R71, R85, R86, R89, R125) -/

section

namespace Sys2Proof.Safety

open Sys2Proof.Machine

/-! #### Labels of a history -/

/-- The events that set the label that `lastLabel` reads. -/
def setsLabel : Event → Bool
  | .pulse _ _ | .begun _ => true
  | .deadlineMiss _ | .lostTick _ | .tick _ | .hookCall _ _ _ | .hookRet _ | .rowStart _ _ | .pixByte _ _ | .rowEnd _
  | .idleForced | .ended | .read _ _ | .fbWrite _ _ | .faulted _ => false

/-- The label after one event. -/
def labelStep (last : Option Nat) : Event → Option Nat
  | .begun _ => none
  | .pulse l _ => some l
  | _ => last

theorem lastLabel_eq_foldl (hist : List Event) : lastLabel hist = hist.foldl labelStep none := rfl

theorem labelStep_of_not_setsLabel {e : Event} (h : setsLabel e = false) (last : Option Nat) :
    labelStep last e = last := by
  cases e with
  | pulse | begun => cases h
  | _ => rfl

theorem pulsesInOrder_cons_of_not_setsLabel {e : Event} (h : setsLabel e = false) (last : Option Nat) (t : List Event) :
    PulsesInOrder last (e :: t) ↔ PulsesInOrder last t := by
  cases e with
  | pulse | begun => cases h
  | _ => simp only [PulsesInOrder]

/-- Pulses are in order along two pieces of a history where the second goes on from the first one's last label. -/
theorem pulsesInOrder_append (last : Option Nat) (a b : List Event) :
    PulsesInOrder last (a ++ b) ↔ PulsesInOrder last a ∧ PulsesInOrder (a.foldl labelStep last) b := by
  induction a generalizing last with
  | nil => simp [PulsesInOrder]
  | cons e t ih =>
    cases he : setsLabel e with
    | false =>
      simp only [List.cons_append, pulsesInOrder_cons_of_not_setsLabel he, ih, List.foldl_cons,
        labelStep_of_not_setsLabel he]
    | true =>
      cases e with
      | begun id => simp only [List.cons_append, PulsesInOrder, ih, List.foldl_cons, labelStep]
      | pulse l d => cases last <;> simp +contextual [PulsesInOrder, ih, labelStep, and_assoc]
      | _ => cases he

/-- The second history goes on from the first with no PULSE and no BEGIN. -/
def SameLabels (h h' : List Event) : Prop := ∃ l, h' = h ++ l ∧ ∀ e ∈ l, setsLabel e = false

theorem SameLabels.refl (h : List Event) : SameLabels h h := ⟨[], by simp⟩

/-- Events that set no label are in order after any label, and leave it. -/
theorem pulsesInOrder_of_not_setsLabel {l : List Event} (hl : ∀ e ∈ l, setsLabel e = false) (last : Option Nat) :
    PulsesInOrder last l := by
  induction l with
  | nil => simp only [PulsesInOrder]
  | cons e t ih =>
    rw [List.forall_mem_cons] at hl
    exact (pulsesInOrder_cons_of_not_setsLabel hl.1 last t).2 (ih hl.2)

theorem foldl_labelStep_of_not_setsLabel {l : List Event} (hl : ∀ e ∈ l, setsLabel e = false) (last : Option Nat) :
    l.foldl labelStep last = last := by
  induction l with
  | nil => rfl
  | cons e t ih =>
    rw [List.forall_mem_cons] at hl
    rw [List.foldl_cons, labelStep_of_not_setsLabel hl.1, ih hl.2]

theorem SameLabels.order {h h' : List Event} (k : SameLabels h h') (ho : PulsesInOrder none h) :
    PulsesInOrder none h' := by
  obtain ⟨l, rfl, hl⟩ := k
  exact (pulsesInOrder_append ..).2 ⟨ho, pulsesInOrder_of_not_setsLabel hl _⟩

theorem SameLabels.lastLabel {h h' : List Event} (k : SameLabels h h') : lastLabel h' = lastLabel h := by
  obtain ⟨l, rfl, hl⟩ := k
  rw [lastLabel_eq_foldl, List.foldl_append, foldl_labelStep_of_not_setsLabel hl, lastLabel_eq_foldl]

theorem lastLabel_append_pulse (h : List Event) (l : Nat) (d : Duty) : lastLabel (h ++ [.pulse l d]) = some l := by
  simp [lastLabel]

/-! #### Steps that leave the period as it is -/

/-- What the pulse invariant reads is the same in both states, and no period has begun between them. -/
structure SamePeriod (s t : State) : Prop where
  active : t.active = s.active
  line : t.line = s.line
  dutyNext : t.dutyNext = s.dutyNext
  timerPhase : t.timerPhase = s.timerPhase
  tickPending : t.tickPending = s.tickPending
  idle : t.tickPhase = .idle ↔ s.tickPhase = .idle
  labels : SameLabels s.hist t.hist

theorem PulseInv.samePeriod {s t : State} (h : PulseInv s) (k : SamePeriod s t) : PulseInv t := by
  obtain ⟨ha, hl, hd, ht, hp, hi, hh⟩ := k
  constructor
  case order => exact hh.order h.order
  all_goals simp only [ha, ne_eq, hi, hl, hd, ht, hp, hh.lastLabel]
  · exact h.current
  · exact h.waiting
  · exact h.running

theorem SamePeriod.refl (s : State) : SamePeriod s s := ⟨rfl, rfl, rfl, rfl, rfl, .rfl, .refl _⟩

theorem SamePeriod.raise (s : State) (c : Fault) : SamePeriod s (s.raise c) :=
  ⟨rfl, rfl, rfl, rfl, rfl, .rfl, [.faulted c], rfl, by simp [setsLabel]⟩

theorem SamePeriod.takeAgent (s : State) : SamePeriod s s.takeAgent.2 := by
  constructor <;> simp [SameLabels.refl]

/-- A command other than BEGIN and END begins no period. -/
theorem setsLabel_of_isCommand {e : Event} (h : e.isCommand) : setsLabel e = false := by
  cases e with
  | pulse | begun => exact h.elim
  | _ => rfl

theorem samePeriod_of_commandFrame {s t : State} (h : CommandFrame s t) : SamePeriod s t := by
  obtain ⟨l, hl, hc, -⟩ := h.hist
  exact ⟨h.engine.active, h.engine.line, h.engine.dutyNext, h.engine.timerPhase, h.engine.tickPending, h.engine.idle,
    l, hl, fun e he => setsLabel_of_isCommand (hc e he)⟩

theorem shiftByte_samePeriod (s : State) (off n i : Nat) (b : Byte) : SamePeriod s (s.shiftByte off n i b) := by
  obtain ⟨-, he⟩ | ⟨-, he⟩ := s.shiftByte_cases off n i b <;> rw [he]
  · exact ⟨rfl, rfl, rfl, rfl, rfl, .rfl, [.pixByte (off + i) b], rfl, by simp [setsLabel]⟩
  · exact ⟨rfl, rfl, rfl, rfl, rfl, .rfl, [.pixByte (off + i) b, .rowEnd off], by simp, by simp [setsLabel]⟩

/-- The serializer's events leave the period as it is (R96, R97). -/
theorem execDmabyte_samePeriod {s t : State} (h : execDmabyte s = .next t) : SamePeriod s t := by
  obtain ⟨-, ⟨-, rfl⟩ | ⟨-, off, n, i, b, -, -, rfl⟩⟩ := execDmabyte_next h
  · exact .refl _
  · exact shiftByte_samePeriod s off n i b

theorem execDmadone_samePeriod {s t : State} (h : execDmadone s = .next t) : SamePeriod s t := by
  obtain ⟨-, ⟨-, rfl⟩ | ⟨-, rfl⟩⟩ := execDmadone_next h
  · exact .refl _
  · exact ⟨rfl, rfl, rfl, rfl, rfl, .rfl, [.idleForced], rfl, by simp [setsLabel]⟩

/-! #### Lifecycle -/

/-- BEGIN opens the period of line 1 with its own PULSE (R71, R103). -/
theorem execBegin_pulseInv {m : Byte} {s t : State} (h : PulseInv s) (he : execBegin m s = .next t) : PulseInv t := by
  obtain ⟨-, ⟨-, rfl⟩ | ⟨-, -, rfl⟩ | ⟨-, -, p, -, ⟨-, rfl⟩ | ⟨-, rfl⟩⟩⟩ := execBegin_next he
  · exact h.samePeriod (.raise s _)
  · exact h.samePeriod (.raise s _)
  · exact h.samePeriod (.raise s _)
  rw [State.retire_main rfl]
  refine ⟨?_, fun _ _ => ?_, nofun, fun _ hn => absurd rfl hn⟩
  · have hb : PulsesInOrder none (s.hist ++ [.begun (resolveMode s.params m), .pulse 1 .narrow]) :=
      (pulsesInOrder_append ..).2 ⟨h.order, by simp [PulsesInOrder, pulseDuty]⟩
    simpa [State.begin] using hb
  · exact lastLabel_append_pulse ..

/-- END ends the periods (R104). -/
theorem execEnd_pulseInv {s t : State} (h : PulseInv s) (he : execEnd s = .next t) : PulseInv t := by
  obtain ⟨-, ⟨-, rfl⟩ | ⟨-, -, rfl⟩ | ⟨hi, -, rfl⟩⟩ := execEnd_next he
  · exact h.samePeriod (.raise s _)
  · exact h.samePeriod (.raise s _)
  rw [State.retire_main (by exact State.inHook_eq_false.1 hi)]
  have hl : SameLabels s.hist (s.hist ++ [.ended]) := ⟨_, rfl, by simp [setsLabel]⟩
  exact ⟨hl.order h.order, nofun, nofun, nofun⟩

/-! #### Line timer -/

/-- The period boundary goes on with the next label: no tick is pending or running, so the tick of the period that ends
has advanced the line and written the duty (R86, R125). -/
theorem execBoundary_pulseInv {s t : State} (hta : s.params.timingAssumptions = true) (h : PulseInv s)
    (he : execBoundary s = .next t) : PulseInv t := by
  obtain ⟨hf, ⟨-, rfl⟩ | ⟨hen, rfl⟩⟩ := execBoundary_next he
  · exact h
  obtain ⟨ha, -, ht, hrest⟩ := (boundaryEnabled_iff hf).1 hen
  obtain ⟨hp, hi⟩ := hrest hta
  obtain ⟨⟨l, hlast, hline⟩, hduty⟩ := h.waiting ha ht hp hi
  simp only [hp, hi, ne_eq, not_true_eq_false, decide_false, Bool.or_false, Bool.false_eq_true, if_false]
  refine ⟨(pulsesInOrder_append ..).2 ⟨h.order, ?_⟩, fun _ _ => lastLabel_append_pulse .., nofun,
    fun _ hn => absurd hi hn⟩
  rw [← lastLabel_eq_foldl, hlast]
  exact ⟨hline, hduty, trivial⟩

/-- COMPARE requests the tick in the period that carries the tick's line (R87). -/
theorem execCompare_pulseInv {s t : State} (hT : TimingInv s) (h : PulseInv s) (he : execCompare s = .next t) :
    PulseInv t := by
  obtain ⟨hf, ⟨-, rfl⟩ | ⟨hen, rfl⟩⟩ := execCompare_next he
  · exact h
  obtain ⟨ha, -, ht, -⟩ := (compareEnabled_iff hf).1 hen
  obtain ⟨hp, hi⟩ := hT.compareNext ha ht
  simp only [hp, Bool.false_eq_true, if_false]
  exact ⟨h.order, fun _ _ => h.current ha (.inl ht), nofun, fun _ hn => absurd hi hn⟩

/-! #### Tick -/

/-- A tick is taken up in the period that carries its line, and has yet to write the duty (R74). -/
structure TickEntered (s : State) : Prop where
  order : PulsesInOrder none s.hist
  label : lastLabel s.hist = some s.line
  lineLe : s.line ≤ 264
  boundaryNext : s.timerPhase = .nextBoundary
  noRequest : s.tickPending = false

/-- The tick has written the duty of the next period and has yet to advance the line (R85). -/
structure DutyWritten (s : State) : Prop extends TickEntered s where
  duty : s.dutyNext = pulseDuty (nextLine s.line)

/-- The duty that the tick at a line writes is the next period's (R85, R89). -/
theorem tickDuty_eq_pulseDuty {c : Nat} (h : c ≤ 264) : tickDuty c = pulseDuty (nextLine c) := by
  have hiff : 2 ≤ c ∧ c ≤ 4 ↔ 3 ≤ nextLine c ∧ nextLine c ≤ 5 := by
    unfold nextLine
    split <;> omega
  simp only [tickDuty, pulseDuty, hiff]

theorem TickEntered.dutyWritten {s : State} (h : TickEntered s) :
    DutyWritten { s with dutyNext := tickDuty s.line } :=
  { h with duty := tickDuty_eq_pulseDuty h.lineLe }

/-- While a hook runs, the tick is still in its own line's period (R79). -/
theorem DutyWritten.callHook {s : State} (h : DutyWritten s) (k : HookKind) (hd : Half) (c : Nat) :
    PulseInv (s.callHook k hd c) := by
  have hl : SameLabels s.hist (s.hist ++ [.hookCall k hd c]) := ⟨_, rfl, by simp [setsLabel]⟩
  exact ⟨hl.order h.order, fun _ _ => hl.lastLabel.trans h.label, fun _ _ _ => nofun, fun _ _ => h.duty⟩

/-- With the line advanced, the tick has prepared the next period's line and duty (R78, R85). -/
theorem DutyWritten.lineAdvance {s : State} (h : DutyWritten s) (hi : s.tickPhase = .idle) :
    PulseInv s.lineAdvance := by
  have hline : s.lineAdvance.line = nextLine s.line := by
    have := h.lineLe
    rw [lineAdvance_eq, nextLine]
    dsimp only
    split <;> split <;> omega
  refine ⟨by simpa using h.order, fun _ hor => ?_, fun _ _ _ _ => ⟨⟨s.line, by simpa using h.label, hline⟩, ?_⟩,
    fun _ hn => absurd (by simpa using hi) hn⟩
  · simp [h.boundaryNext, h.noRequest, hi] at hor
  · rw [hline]
    simpa using h.duty

theorem TickEntered.finishTick {s : State} (h : TickEntered s) (hi : s.tickPhase = .idle) :
    PulseInv (s.finishTick s.line) := by
  obtain ⟨-, -, he⟩ | ⟨-, -, -, he⟩ | ⟨-, -, he⟩ := s.finishTick_cases s.line <;> rw [he]
  · exact h.dutyWritten.callHook ..
  · exact h.dutyWritten.callHook ..
  · exact h.dutyWritten.lineAdvance hi

/-- Under TIMING_ASSUMPTIONS a pending or running tick keeps COMPARE waiting for the next boundary (R125). -/
theorem TimingInv.boundaryNext {s : State} (h : TimingInv s) (ha : s.active = true)
    (hr : s.tickPending = true ∨ s.tickPhase ≠ .idle) : s.timerPhase = .nextBoundary := by
  cases ht : s.timerPhase with
  | nextBoundary => rfl
  | nextCompare =>
    obtain ⟨hp, hi⟩ := h.compareNext ha ht
    simp [hp, hi] at hr

theorem execTick_pulseInv {s t : State} (hR : RunInv s) (hT : TimingInv s) (h : PulseInv s)
    (he : execTick s = .next t) : PulseInv t := by
  obtain ⟨hf, ⟨-, rfl⟩ | ⟨hen, rfl⟩⟩ := execTick_next he
  · exact h
  obtain ⟨ha, -, hp, hi, -⟩ := (tickEnabled_iff hf).1 hen
  obtain ⟨hdma, hdone, -⟩ := hT.tickReady hp
  have hlabel := h.current ha (.inr (.inl hp))
  have hle := (hR.engine.line ha).2
  have hnext := hT.boundaryNext ha (.inl hp)
  obtain ⟨-, hrun⟩ | ⟨-, ho, -⟩ | ⟨-, -, hrun⟩ := s.runTick_cases
  · have hl : SameLabels s.hist s.enterTick.hist := ⟨_, rfl, by simp [setsLabel]⟩
    rw [hrun]
    exact TickEntered.finishTick ⟨hl.order h.order, hl.lastLabel.trans hlabel, hle, hnext, rfl⟩ hi
  · simp [dmaOutstanding, hdma, hdone] at ho
  · have hl : SameLabels s.hist s.dispatchRow.hist :=
      ⟨[.tick s.line, .rowStart s.line s.cursor], by simp [State.dispatchRow, State.enterTick], by simp [setsLabel]⟩
    rw [hrun]
    exact TickEntered.finishTick ⟨hl.order h.order, hl.lastLabel.trans hlabel, hle, hnext, rfl⟩ hi

theorem execHookret_pulseInv {s t : State} (hR : RunInv s) (hT : TimingInv s) (h : PulseInv s)
    (he : execHookret s = .next t) : PulseInv t := by
  obtain ⟨hf, ⟨-, rfl⟩ | ⟨hen, rfl⟩⟩ := execHookret_next he
  · exact h
  obtain ⟨-, -, k, hd, ht⟩ := (hookretEnabled_iff hf).1 hen
  have ha := hR.engine.active_of_hook ht
  have hbusy : s.tickPhase ≠ .idle := by simp [ht]
  have hnone : s.tickPending = false := by
    by_contra hp
    obtain ⟨-, -, hi⟩ := hT.tickReady (by simpa using hp)
    exact hbusy hi
  have hl : SameLabels s.hist (s.hist ++ [.hookRet s.line]) := ⟨_, rfl, by simp [setsLabel]⟩
  have hw : DutyWritten { s.record (.hookRet s.line) with tickPhase := .idle } :=
    { order := hl.order h.order
      label := hl.lastLabel.trans (h.current ha (.inr (.inr hbusy)))
      lineLe := (hR.engine.line ha).2
      boundaryNext := hT.boundaryNext ha (.inr hbusy)
      noRequest := hnone
      duty := h.running ha hbusy }
  rw [returnFromHook_eq]
  exact hw.lineAdvance rfl

/-- Every instruction keeps the pulses in order. -/
theorem exec_pulseInv {i : Instr} {s t : State} (hta : s.params.timingAssumptions = true) (hR : RunInv s)
    (hT : TimingInv s) (h : PulseInv s) (he : exec i s = .next t) : PulseInv t := by
  cases i with
  | cmdBegin mode => exact execBegin_pulseInv h he
  | cmdEnd => exact execEnd_pulseInv h he
  | evBoundary => exact execBoundary_pulseInv hta h he
  | evCompare => exact execCompare_pulseInv hT h he
  | evTick => exact execTick_pulseInv hR hT h he
  | evHookret => exact execHookret_pulseInv hR hT h he
  | evDmabyte => exact h.samePeriod (execDmabyte_samePeriod he)
  | evDmadone => exact h.samePeriod (execDmadone_samePeriod he)
  | cmdClear | cmdFbrd | cmdFbwr | cmdSethook | cmdRdreg | cmdPolleq | cmdPollne | cmdWaitf =>
    have hc := exec_command_frame rfl (by simp [Instr.mnemonic]) (by simp [Instr.mnemonic]) he
    exact h.samePeriod (samePeriod_of_commandFrame hc)

/-- The timing invariant reads nothing of the schedule. -/
theorem TimingInv.take {s : State} (h : TimingInv s) : TimingInv s.takeAgent.2 :=
  ⟨by simpa using h.noMiss, by simpa using h.compareNext, by simpa using h.tickReady⟩

end Sys2Proof.Safety

open Sys2Proof Sys2Proof.Machine Sys2Proof.Safety

/-- Settles O55: each instruction keeps the pulse invariant; a boundary finds the tick of its period done, and a tick
runs in the period that carries its line. -/
theorem pulsesStayInOrderUnderTimingAssumptions : Obligations.PulsesStayInOrderUnderTimingAssumptions := by
  intro s t hta hR hT h hs
  have htake := h.samePeriod (.takeAgent s)
  obtain ⟨-, -, ⟨i, -, he⟩ | ⟨-, rfl⟩ | ⟨-, rfl⟩⟩ := step_next hs
  · exact exec_pulseInv (by simpa using hta) hR.take hT.take htake he
  · exact htake.samePeriod (.raise _ _)
  · exact htake

end

/-! ### A command in progress (R81, R100, R105, R110, R111; log 18) -/

section

namespace Sys2Proof.Machine

section

variable {s : State} {rest : List Agent} {op : MultiOp} (hf : s.fault = none) (hw : s.params.wf = true)
include hf hw

/-- The main context goes on with the command whose progress it keeps (R100). -/
theorem step_of_mainOp (hs : s.sched = .host :: rest) (ht : s.tickPhase = .idle)
    (hpc : s.hpc < s.params.mainProgram.length) (ho : s.mainOp = some op) :
    step s = exec op.instr { s with sched := rest } := by
  have hfetch : fetch .host { s with sched := rest } = .run op.instr := by
    rw [fetch_host (s := { s with sched := rest }) ht, ho, fetchCommand_progress (by exact hpc)]
  rw [step_of_fetch hf hw hs, hfetch]

/-- A hook program goes on with the command whose progress it keeps (R81). -/
theorem step_of_hookOp {k : HookKind} {hd : Half} {pc : Nat} (hs : s.sched = .hook :: rest)
    (ht : s.tickPhase = .hook k hd pc) (hpc : pc < (s.hookProgram hd).length) (ho : s.hookOp = some op) :
    step s = exec op.instr { s with sched := rest } := by
  have hfetch : fetch .hook { s with sched := rest } = .run op.instr := by
    rw [fetch_hook (s := { s with sched := rest }) ht, ho, fetchCommand_progress (by exact hpc)]
  rw [step_of_fetch hf hw hs, hfetch]

/-- At the end of its program a hook takes no step (R81; log 4). -/
theorem step_of_hookEnd {k : HookKind} {hd : Half} {pc : Nat} (hs : s.sched = .hook :: rest)
    (ht : s.tickPhase = .hook k hd pc) (hpc : (s.hookProgram hd).length ≤ pc) :
    step s = .next { s with sched := rest } := by
  have hfetch : fetch .hook { s with sched := rest } = .hold := by
    rw [fetch_hook (s := { s with sched := rest }) ht, fetchCommand_end (by exact hpc)]
  rw [step_of_fetch hf hw hs, hfetch]

end

/-- While a WAITF is in progress, the operand of its word is not read again (R111; log 18). -/
theorem execWaitf_of_progress {s : State} {rem fl : Nat} {ph : WaitPhase} (ht : s.tickPhase = .idle)
    (ho : s.mainOp = some (.waitf rem ph fl)) (n : Half) :
    execWaitf n s = s.unlessFaulted (waitAttempt rem ph fl s) := by
  have hi := State.inHook_eq_false.2 ht
  have hp : s.waitProgress = some (rem, ph, fl) := State.waitProgress_eq_some.2 (by simp [State.currentOp, hi, ho])
  simp only [execWaitf, hi, hp, Bool.false_eq_true, if_false]

end Sys2Proof.Machine

open Sys2Proof Sys2Proof.Machine

/-- Settles O7: a context that keeps a command's progress fetches that command, and WAITF does not read its operand
again. -/
theorem stepGoesOnWithTheCommandInProgress : Obligations.StepGoesOnWithTheCommandInProgress := by
  refine fun s rest hf hw => ⟨fun hs ht hpc => ?_, fun k h pc hs ht => ⟨fun left hpc ho => ?_, fun hpc => ?_⟩⟩
  · have hmain {op : MultiOp} (ho : s.mainOp = some op) := step_of_mainOp hf hw hs ht hpc ho
    refine ⟨fun left => hmain, fun r v => hmain, fun r v => hmain, fun rem ph fl n ho => ?_⟩
    rw [hmain ho]
    change execWaitf _ { s with sched := rest } = execWaitf n { s with sched := rest }
    rw [execWaitf_of_progress (by exact ht) (by exact ho), execWaitf_of_progress (by exact ht) (by exact ho)]
  · exact step_of_hookOp hf hw hs ht hpc ho
  · exact step_of_hookEnd hf hw hs ht hpc

end

/-! ### The tick and the return from a hook, state by state (R74..R79, R82, R85, R95) -/

section

namespace Sys2Proof.Machine

open Sys2Proof.Safety

/-- An enabled TICK runs its body (R74). -/
theorem execTick_of_mayTick {s : State} (h : MayTick s) : execTick s = .next s.runTick := by
  have ⟨_, hf, _⟩ := h
  rw [execTick, State.unlessFaulted_of_none hf, if_pos ((tickEnabled_iff hf).2 h)]

/-- An enabled HOOKRET returns from the hook (R82). -/
theorem execHookret_of_mayHookret {s : State} (h : MayHookret s) : execHookret s = .next s.returnFromHook := by
  have ⟨hf, _⟩ := h
  rw [execHookret, State.unlessFaulted_of_none hf, if_pos ((hookretEnabled_iff hf).2 h)]

/-- Off the active lines the tick dispatches nothing (R73, R74). -/
theorem runTick_off {s : State} (h : ¬ (30 ≤ s.line ∧ s.line < 30 + s.prof.scanLinesUsed)) :
    s.runTick = s.enterTick.finishTick s.line := by
  rw [← isActive_iff] at h
  obtain ⟨-, he⟩ | ⟨ha, -⟩ | ⟨ha, -⟩ := s.runTick_cases
  · exact he
  · exact absurd ha h
  · exact absurd ha h

theorem dmaOutstanding_iff {s : State} : dmaOutstanding s = true ↔ s.dma ≠ .idle ∨ s.donePending = true := by
  simp [dmaOutstanding]

section

variable {s : State} (hl : 30 ≤ s.line) (hl' : s.line < 30 + s.prof.scanLinesUsed)
include hl hl'

/-- At an active line with a transfer or a completion outstanding the tick faults (R95). -/
theorem runTick_overlap (ho : s.dma ≠ .idle ∨ s.donePending = true) :
    s.runTick = s.enterTick.raise .dmaOverlap := by
  have hact := (isActive_iff s.line).2 ⟨hl, hl'⟩
  rw [← dmaOutstanding_iff] at ho
  obtain ⟨hn, -⟩ | ⟨-, -, he⟩ | ⟨-, hn, -⟩ := s.runTick_cases
  · exact absurd (hact.symm.trans hn) nofun
  · exact he
  · exact absurd (ho.symm.trans hn) nofun

/-- At an active line with nothing outstanding the tick dispatches its row (R74, R95). -/
theorem runTick_dispatch (hd : s.dma = .idle) (hp : s.donePending = false) :
    s.runTick = s.dispatchRow.finishTick s.line := by
  have hact := (isActive_iff s.line).2 ⟨hl, hl'⟩
  obtain ⟨hn, -⟩ | ⟨-, ho, -⟩ | ⟨-, -, he⟩ := s.runTick_cases
  · exact absurd (hact.symm.trans hn) nofun
  · simp [dmaOutstanding_iff, hd, hp] at ho
  · exact he

end

/-- The last active line, as R9 computes it. -/
theorem lastLine_eq (p : Profile) : lastLine p = 29 + p.scanLinesUsed := by
  simp only [lastLine, Config.ntscVTop]
  omega

/-- With no hook to call, the tick writes the duty and advances the line (R74, R78, R85). -/
theorem finishTick_advance {s : State} {c : Nat} (hfin : c = 4 → s.hookEnd = 0)
    (hstart : c = 29 + s.prof.scanLinesUsed → s.hookStart = 0) :
    s.finishTick c = ({ s with dutyNext := tickWrites c } : State).lineAdvance := by
  rw [← lastLine_eq] at hstart
  obtain ⟨hc, hne, -⟩ | ⟨-, hc, hne, -⟩ | ⟨-, -, he⟩ := s.finishTick_cases c
  · exact absurd (hfin hc) hne
  · exact absurd (hstart hc) hne
  · exact he

/-- At line 4 the tick calls a registered onBlankEnd hook (R74, R79). -/
theorem finishTick_blankEnd {s : State} (hne : s.hookEnd ≠ 0) :
    s.finishTick 4 = ({ s with dutyNext := .wide } : State).callHook .fin s.hookEnd 4 := by
  obtain ⟨-, -, he⟩ | ⟨hn, -⟩ | ⟨hn, -⟩ := s.finishTick_cases 4
  · exact he
  · exact absurd ⟨rfl, hne⟩ hn
  · exact absurd ⟨rfl, hne⟩ hn

/-- From the first active line on the tick writes the narrow duty (R85). -/
theorem tickWrites_active {c : Nat} (h : 30 ≤ c) : tickWrites c = .narrow := if_neg (by omega)

/-- At the last active line the tick calls a registered onBlankStart hook (R74, R79). -/
theorem finishTick_blankStart {s : State} {c : Nat} (h : 30 ≤ c) (hc : c = 29 + s.prof.scanLinesUsed)
    (hne : s.hookStart ≠ 0) :
    s.finishTick c = ({ s with dutyNext := .narrow } : State).callHook .start s.hookStart c := by
  rw [← tickWrites_active h]
  rw [← lastLine_eq] at hc
  obtain ⟨h4, -⟩ | ⟨-, -, -, he⟩ | ⟨-, hn, -⟩ := s.finishTick_cases c
  · omega
  · exact he
  · exact absurd ⟨hc, hne⟩ hn

/-- The cursor after an active tick: a doubled profile advances it at the odd distances from line 30 only (R75). -/
theorem add_rowAdvance (p : Profile) (cursor c : Nat) :
    cursor + rowAdvance p c =
      if p.lineDoubled = true ∧ (c - 30) % 2 = 0 then cursor else cursor + p.rowByteWidth := by
  unfold rowAdvance
  simp only [Config.ntscVTop]
  cases p.lineDoubled with
  | false => simp
  | true =>
    obtain h | h := Nat.mod_two_eq_zero_or_one (c - 30) <;> simp [h]

/-- The state after a dispatched row, field by field (R74, R75, R95). -/
theorem dispatchRow_eq (s : State) :
    s.dispatchRow =
      { s with
        tickPending := false, ser := .shifting, dma := .busy s.cursor s.prof.rowByteWidth 0
        cursor := if s.prof.lineDoubled = true ∧ (s.line - 30) % 2 = 0 then s.cursor
          else s.cursor + s.prof.rowByteWidth
        hist := s.hist ++ [.tick s.line, .rowStart s.line s.cursor] } := by
  rw [← add_rowAdvance]
  simp [State.dispatchRow, State.enterTick, State.dmaStart, State.record]

@[simp] theorem State.finishTick_dma (s : State) (c : Nat) : (s.finishTick c).dma = s.dma := by
  obtain ⟨-, -, he⟩ | ⟨-, -, -, he⟩ | ⟨-, -, he⟩ := s.finishTick_cases c <;> simp [he]

/-- In a run, an idle tick at an active line finds the cursor at its line's row (R76, R77). -/
theorem cursor_of_activeLine {s : State} (h : RunInv s) (ha : s.active = true) (hi : s.tickPhase = .idle)
    (hl : 30 ≤ s.line) (hl' : s.line < 30 + s.prof.scanLinesUsed) :
    s.cursor = (if s.prof.lineDoubled then (s.line - 30) / 2 else s.line - 30) * s.prof.rowByteWidth := by
  have hc : s.cursor = cursorAt s.prof s.line := by simpa [hi] using h.cursor ha
  rw [hc, cursorAt_mid hl hl'.le, ite_mul]

end Sys2Proof.Machine

open Sys2Proof Sys2Proof.Machine Sys2Proof.Safety

/-- Settles O37: nothing is dispatched, no hook is called, and the line advances. -/
theorem tickOffTheActiveLines : Obligations.TickOffTheActiveLines := by
  intro s h hA hl hfin
  change execTick s = _
  rw [execTick_of_mayTick h, runTick_off (by omega),
    finishTick_advance (s := s.enterTick) hfin fun (hc : s.line = 29 + s.prof.scanLinesUsed) => by omega,
    lineAdvance_eq]
  rfl

/-- Settles O38: the row is dispatched, no hook is called, and the line advances. -/
theorem tickDispatchesARow : Obligations.TickDispatchesARow := by
  intro s h hl hl' hd hp hstart
  change execTick s = _
  rw [execTick_of_mayTick h, runTick_dispatch hl hl' hd hp,
    finishTick_advance (s := s.dispatchRow) (fun h4 => by omega) hstart, lineAdvance_eq, tickWrites_active hl,
    dispatchRow_eq]

/-- Settles O39: the tick is entered, and DmaStart raises the fault before anything else happens. -/
theorem tickFaultsOnAnOutstandingTransfer : Obligations.TickFaultsOnAnOutstandingTransfer := by
  intro s h hl hl' ho
  change execTick s = _
  rw [execTick_of_mayTick h, runTick_overlap hl hl' ho]
  simp [State.raise, State.enterTick, State.record]

/-- Settles O40: line 4 is not active, so its tick calls the hook at once; the last active line's tick dispatches its
row first. -/
theorem tickCallsTheHooksAtTheirLines : Obligations.TickCallsTheHooksAtTheirLines := by
  refine fun s h hA => ⟨fun h4 hne => ?_, fun hlast hne hd hp => ?_⟩
  · change execTick s = _
    rw [execTick_of_mayTick h, runTick_off (by omega), h4, finishTick_blankEnd (by exact hne)]
    simp [State.callHook, State.enterTick, State.record, h4]
  · change execTick s = _
    rw [execTick_of_mayTick h, runTick_dispatch (by omega) (by omega) hd hp,
      finishTick_blankStart (s := s.dispatchRow) (by omega) hlast hne, dispatchRow_eq]
    simp [State.callHook, State.record]

/-- Settles O41: HOOKRET is the line advance, with the return recorded and no tick running. -/
theorem hookretFinishesTheTick : Obligations.HookretFinishesTheTick := by
  intro s h
  change execHookret s = _
  rw [execHookret_of_mayHookret h, returnFromHook_eq, lineAdvance_eq]
  rfl

/-- Settles O44: the dispatched row is the one at the cursor, which the run invariant places; what follows in the tick
leaves it. -/
theorem activeTickSendsTheRowOfItsLine : Obligations.ActiveTickSendsTheRowOfItsLine := by
  intro s hR h hl hl' hd hp
  have ⟨ha, _, _, hi, _⟩ := h
  have hc := cursor_of_activeLine hR ha hi hl hl'
  refine ⟨s.dispatchRow.finishTick s.line, ?_, ?_, ?_⟩
  · rw [← runTick_dispatch hl hl' hd hp]
    exact execTick_of_mayTick h
  · obtain ⟨⟨l, hist⟩, -⟩ := s.dispatchRow.finishTick_follows s.line
    rw [← hist, dispatchRow_eq, hc]
    simp
  · rw [State.finishTick_dma, dispatchRow_eq, hc]

end

/-! ### The profile of an active engine (R84) -/

section

namespace Sys2Proof.Machine

/-- Both states have the same profile under the same id (R24). -/
structure SameProfile (s t : State) : Prop where
  prof : t.prof = s.prof
  profId : t.profId = s.profId

@[simp] theorem State.finishTick_profId (s : State) (c : Nat) : (s.finishTick c).profId = s.profId := by
  obtain ⟨-, -, he⟩ | ⟨-, -, -, he⟩ | ⟨-, -, he⟩ := s.finishTick_cases c <;> simp [he]

@[simp] theorem State.runTick_profId (s : State) : s.runTick.profId = s.profId := by
  obtain ⟨-, he⟩ | ⟨-, -, he⟩ | ⟨-, -, he⟩ := s.runTick_cases <;> simp [he, State.enterTick, State.dispatchRow]

/-- No event changes the profile's id (R24). -/
theorem exec_event_profId {i : Instr} {s t : State} (he : i.isEvent = true) (h : exec i s = .next t) :
    t.profId = s.profId := by
  cases i with
  | evBoundary =>
    obtain ⟨-, ⟨-, rfl⟩ | ⟨-, rfl⟩⟩ := execBoundary_next h
    · rfl
    · split <;> rfl
  | evCompare =>
    obtain ⟨-, ⟨-, rfl⟩ | ⟨-, rfl⟩⟩ := execCompare_next h
    · rfl
    · split <;> rfl
  | evTick =>
    obtain ⟨-, ⟨-, rfl⟩ | ⟨-, rfl⟩⟩ := execTick_next h
    · rfl
    · exact s.runTick_profId
  | evHookret =>
    obtain ⟨-, ⟨-, rfl⟩ | ⟨-, rfl⟩⟩ := execHookret_next h
    · rfl
    · simp [State.returnFromHook]
  | evDmabyte =>
    obtain ⟨-, ⟨-, rfl⟩ | ⟨-, off, n, i, b, -, -, rfl⟩⟩ := execDmabyte_next h
    · rfl
    · obtain ⟨-, he⟩ | ⟨-, he⟩ := s.shiftByte_cases off n i b <;> simp [he]
  | evDmadone =>
    obtain ⟨-, ⟨-, rfl⟩ | ⟨-, rfl⟩⟩ := execDmadone_next h <;> rfl
  | _ => cases he

/-- While active no instruction changes the profile: BEGIN, which writes it, faults (R84, R103). -/
theorem exec_sameProfile {i : Instr} {s t : State} (ha : s.active = true) (h : exec i s = .next t) :
    SameProfile s t := by
  cases he : i.isEvent with
  | true => exact ⟨exec_event_prof he h, exec_event_profId he h⟩
  | false =>
    cases i with
    | cmdBegin mode =>
      obtain ⟨-, ⟨-, rfl⟩ | ⟨-, -, rfl⟩ | ⟨-, hn, -⟩⟩ := execBegin_next h
      · exact ⟨rfl, rfl⟩
      · exact ⟨rfl, rfl⟩
      · exact absurd (ha.symm.trans hn) nofun
    | cmdEnd =>
      obtain ⟨-, ⟨-, rfl⟩ | ⟨-, -, rfl⟩ | ⟨-, -, rfl⟩⟩ := execEnd_next h
      · exact ⟨rfl, rfl⟩
      · exact ⟨rfl, rfl⟩
      · exact ⟨by simp [State.stopped], by simp [State.stopped]⟩
    | cmdClear | cmdFbrd | cmdFbwr | cmdSethook | cmdRdreg | cmdPolleq | cmdPollne | cmdWaitf =>
      have hc := (exec_command_frame rfl (by simp [Instr.mnemonic]) (by simp [Instr.mnemonic]) h).engine
      exact ⟨hc.prof, hc.profId⟩
    | _ => cases he

end Sys2Proof.Machine

open Sys2Proof Sys2Proof.Machine

/-- Settles O48: no instruction changes the profile of an active engine, and neither does the schedule or a fault. -/
theorem profileIsConstantWhileActive : Obligations.ProfileIsConstantWhileActive := by
  intro s t ha h
  obtain ⟨-, -, ⟨i, -, hi⟩ | ⟨-, rfl⟩ | ⟨-, rfl⟩⟩ := step_next h
  · obtain ⟨hp, hid⟩ := exec_sameProfile (by simpa using ha) hi
    exact ⟨hp.trans s.takeAgent_prof, hid.trans s.takeAgent_profId⟩
  · simp
  · simp

end

/-! ### Deadlines under TIMING_ASSUMPTIONS (R86, R87, R95, R122, R125) -/

section

namespace Sys2Proof.Safety

open Sys2Proof.Machine

/-- What is recorded after a history without misses keeps it so, where it holds none itself. -/
theorem NoMiss.append {a b : List Event} (ha : NoMiss a) (hb : NoMiss b := by simp [NoMiss]) : NoMiss (a ++ b) := by
  obtain ⟨a1, a2, a3⟩ := ha
  obtain ⟨b1, b2, b3⟩ := hb
  simp [NoMiss, *]

/-- A command's faults are not overlaps, and it records no deadline miss and no lost tick. -/
theorem noMiss_of_isCommand {l : List Event} (h : ∀ e ∈ l, e.isCommand) : NoMiss l :=
  ⟨fun _ => h _, fun _ => h _, fun hm => h _ hm rfl⟩

/-- Where no tick is requested and no COMPARE is to come, the timing invariant asks for the history alone. -/
theorem timingInv_of_noRequest {s : State} (hn : NoMiss s.hist)
    (ht : s.active = true → s.timerPhase = .nextBoundary) (hp : s.tickPending = false) : TimingInv s :=
  ⟨hn, fun ha hc => absurd ((ht ha).symm.trans hc) nofun, fun h => absurd (hp.symm.trans h) nofun⟩

/-! #### Commands -/

/-- What leaves the engine as it is, and records no miss, keeps the timing invariant. -/
theorem TimingInv.sameEngine {s t : State} (h : TimingInv s) (k : SameEngine s t) {l : List Event}
    (hl : t.hist = s.hist ++ l) (hn : NoMiss l) : TimingInv t := by
  refine ⟨hl ▸ h.noMiss.append hn, ?_, ?_⟩
  · rw [k.active, k.timerPhase, k.tickPending, k.idle]
    exact h.compareNext
  · rw [k.tickPending, k.dma, k.donePending, k.idle]
    exact h.tickReady

theorem TimingInv.raise {s : State} (h : TimingInv s) {c : Fault} (hc : c ≠ .dmaOverlap) : TimingInv (s.raise c) :=
  h.sameEngine (.raise s c) rfl (noMiss_of_isCommand (by simpa [Event.isCommand] using hc))

theorem TimingInv.commandFrame {s t : State} (h : TimingInv s) (k : CommandFrame s t) : TimingInv t := by
  obtain ⟨l, hl, hc, -⟩ := k.hist
  exact h.sameEngine k.engine hl (noMiss_of_isCommand hc)

/-- BEGIN starts with no tick requested or running (R103). -/
theorem execBegin_timingInv {m : Byte} {s t : State} (h : TimingInv s) (he : execBegin m s = .next t) :
    TimingInv t := by
  obtain ⟨-, ⟨-, rfl⟩ | ⟨-, -, rfl⟩ | ⟨-, -, p, -, ⟨-, rfl⟩ | ⟨-, rfl⟩⟩⟩ := execBegin_next he
  · exact h.raise nofun
  · exact h.raise nofun
  · exact h.raise nofun
  rw [State.retire_main rfl]
  have hn : NoMiss (s.hist ++ [.begun (resolveMode s.params m), .pulse 1 .narrow]) := h.noMiss.append
  exact ⟨by simpa [State.begin] using hn, fun _ _ => ⟨rfl, rfl⟩, nofun⟩

/-- END clears the tick's request (R104). -/
theorem execEnd_timingInv {s t : State} (h : TimingInv s) (he : execEnd s = .next t) : TimingInv t := by
  obtain ⟨-, ⟨-, rfl⟩ | ⟨-, -, rfl⟩ | ⟨hi, -, rfl⟩⟩ := execEnd_next he
  · exact h.raise nofun
  · exact h.raise nofun
  rw [State.retire_main (by exact State.inHook_eq_false.1 hi)]
  exact timingInv_of_noRequest h.noMiss.append nofun rfl

/-! #### Line timer -/

/-- BOUNDARY waits for the tick, so it records no deadline miss, and the COMPARE to come finds no tick (R86, R125). -/
theorem execBoundary_timingInv {s t : State} (hta : s.params.timingAssumptions = true) (h : TimingInv s)
    (he : execBoundary s = .next t) : TimingInv t := by
  obtain ⟨hf, ⟨-, rfl⟩ | ⟨hen, rfl⟩⟩ := execBoundary_next he
  · exact h
  obtain ⟨-, -, -, hwait⟩ := (boundaryEnabled_iff hf).1 hen
  obtain ⟨hp, hi⟩ := hwait hta
  simp only [hp, hi, ne_eq, not_true_eq_false, decide_false, Bool.or_false, Bool.false_eq_true, if_false]
  exact ⟨h.noMiss.append, fun _ _ => ⟨hp, hi⟩, h.tickReady⟩

/-- COMPARE waits for the serializer and finds no tick, so none is lost and the requested one is ready (R87, R125). -/
theorem execCompare_timingInv {s t : State} (hta : s.params.timingAssumptions = true) (h : TimingInv s)
    (he : execCompare s = .next t) : TimingInv t := by
  obtain ⟨hf, ⟨-, rfl⟩ | ⟨hen, rfl⟩⟩ := execCompare_next he
  · exact h
  obtain ⟨ha, -, ht, hwait⟩ := (compareEnabled_iff hf).1 hen
  obtain ⟨hdma, hdone⟩ := hwait hta
  obtain ⟨hp, hi⟩ := h.compareNext ha ht
  simp only [hp, Bool.false_eq_true, if_false]
  exact ⟨h.noMiss, nofun, fun _ => ⟨hdma, hdone, hi⟩⟩

/-! #### Tick -/

/-- From an entered tick to its end or its hook no COMPARE comes and nothing is missed (R74, R79). -/
theorem finishTick_timingInv {s : State} (hn : NoMiss s.hist) (ht : s.timerPhase = .nextBoundary)
    (hp : s.tickPending = false) (c : Nat) : TimingInv (s.finishTick c) := by
  have hcall : ∀ k hd, NoMiss (s.hist ++ [.hookCall k hd c]) := fun _ _ => hn.append
  obtain ⟨-, -, he⟩ | ⟨-, -, -, he⟩ | ⟨-, -, he⟩ := s.finishTick_cases c <;> rw [he]
  · exact timingInv_of_noRequest (hcall _ _) (fun _ => ht) hp
  · exact timingInv_of_noRequest (hcall _ _) (fun _ => ht) hp
  · exact timingInv_of_noRequest (by simpa using hn) (fun _ => by simpa using ht) (by simpa using hp)

/-- A pending tick finds nothing outstanding, so it raises no DMA_OVERLAP (R95, R125). -/
theorem execTick_timingInv {s t : State} (h : TimingInv s) (he : execTick s = .next t) : TimingInv t := by
  obtain ⟨hf, ⟨-, rfl⟩ | ⟨hen, rfl⟩⟩ := execTick_next he
  · exact h
  obtain ⟨ha, -, hp, -, -⟩ := (tickEnabled_iff hf).1 hen
  obtain ⟨hdma, hdone, -⟩ := h.tickReady hp
  have hnext := h.boundaryNext ha (.inl hp)
  obtain ⟨-, hrun⟩ | ⟨-, ho, -⟩ | ⟨-, -, hrun⟩ := s.runTick_cases
  · have hn : NoMiss s.enterTick.hist := h.noMiss.append
    rw [hrun]
    exact finishTick_timingInv hn hnext rfl _
  · simp [dmaOutstanding, hdma, hdone] at ho
  · have hn : NoMiss s.dispatchRow.hist := by
      rw [dispatchRow_eq]
      exact h.noMiss.append
    rw [hrun]
    exact finishTick_timingInv hn hnext rfl _

/-- A running tick keeps COMPARE waiting, and no other tick is requested meanwhile (R82, R125). -/
theorem execHookret_timingInv {s t : State} (h : TimingInv s) (he : execHookret s = .next t) : TimingInv t := by
  obtain ⟨hf, ⟨-, rfl⟩ | ⟨hen, rfl⟩⟩ := execHookret_next he
  · exact h
  obtain ⟨-, -, k, hd, ht⟩ := (hookretEnabled_iff hf).1 hen
  have hbusy : s.tickPhase ≠ .idle := by simp [ht]
  have hp : s.tickPending = false := Bool.eq_false_iff.2 fun hp => hbusy (h.tickReady hp).2.2
  have hn : NoMiss (s.hist ++ [.hookRet s.line]) := h.noMiss.append
  rw [returnFromHook_eq]
  exact timingInv_of_noRequest (by simpa using hn)
    (fun ha => by simpa using h.boundaryNext (by simpa using ha) (.inr hbusy)) (by simpa using hp)

/-! #### Serializer -/

/-- While a transfer runs, no tick is requested (R96, R125). -/
theorem execDmabyte_timingInv {s t : State} (h : TimingInv s) (he : execDmabyte s = .next t) : TimingInv t := by
  obtain ⟨-, ⟨-, rfl⟩ | ⟨-, off, n, i, b, hd, -, rfl⟩⟩ := execDmabyte_next he
  · exact h
  have hnone : ¬ s.tickPending = true := fun hp => absurd (hd.symm.trans (h.tickReady hp).1) nofun
  obtain ⟨-, he⟩ | ⟨-, he⟩ := s.shiftByte_cases off n i b <;> rw [he]
  · exact ⟨h.noMiss.append, h.compareNext, fun ht => absurd ht hnone⟩
  · have hn : NoMiss (s.hist ++ [.pixByte (off + i) b, .rowEnd off]) := h.noMiss.append
    exact ⟨by simpa using hn, h.compareNext, fun ht => absurd ht hnone⟩

/-- The done handler gives way to a pending tick (R97, R119). -/
theorem execDmadone_timingInv {s t : State} (h : TimingInv s) (he : execDmadone s = .next t) : TimingInv t := by
  obtain ⟨hf, ⟨-, rfl⟩ | ⟨hen, rfl⟩⟩ := execDmadone_next he
  · exact h
  obtain ⟨-, -, -, hp, -⟩ := (dmadoneEnabled_iff hf).1 hen
  exact ⟨h.noMiss.append, h.compareNext, fun ht => absurd (hp.symm.trans ht) nofun⟩

/-- Every instruction keeps the timing invariant. -/
theorem exec_timingInv {i : Instr} {s t : State} (hta : s.params.timingAssumptions = true) (h : TimingInv s)
    (he : exec i s = .next t) : TimingInv t := by
  cases i with
  | cmdBegin mode => exact execBegin_timingInv h he
  | cmdEnd => exact execEnd_timingInv h he
  | evBoundary => exact execBoundary_timingInv hta h he
  | evCompare => exact execCompare_timingInv hta h he
  | evTick => exact execTick_timingInv h he
  | evHookret => exact execHookret_timingInv h he
  | evDmabyte => exact execDmabyte_timingInv h he
  | evDmadone => exact execDmadone_timingInv h he
  | cmdClear | cmdFbrd | cmdFbwr | cmdSethook | cmdRdreg | cmdPolleq | cmdPollne | cmdWaitf =>
    exact h.commandFrame (exec_command_frame rfl (by simp [Instr.mnemonic]) (by simp [Instr.mnemonic]) he)

end Sys2Proof.Safety

open Sys2Proof Sys2Proof.Machine Sys2Proof.Safety

/-- Settles O54: BOUNDARY waits for the tick and COMPARE for the serializer, so neither a tick nor its row comes while
an earlier one is outstanding. The run invariant is not needed. -/
theorem deadlinesHoldUnderTimingAssumptions : Obligations.DeadlinesHoldUnderTimingAssumptions := by
  intro s t hta _ h hs
  obtain ⟨-, -, ⟨i, -, he⟩ | ⟨-, rfl⟩ | ⟨-, rfl⟩⟩ := step_next hs
  · exact exec_timingInv (by simpa using hta) h.take he
  · exact h.take.raise nofun
  · exact h.take

end

/-! ### The line timer, state by state (R86, R87, R122, R126) -/

section

open Sys2Proof Sys2Proof.Machine Sys2Proof.Safety

/-- Settles O35: the latch, after the record of a deadline miss where a tick is pending or running. -/
theorem boundaryLatchesTheDuty : Obligations.BoundaryLatchesTheDuty := by
  intro s h
  have ⟨_, hf, _⟩ := h
  change execBoundary s = _
  rw [execBoundary, State.unlessFaulted_of_none hf, if_pos ((boundaryEnabled_iff hf).2 h)]
  by_cases hm : s.tickPending = true ∨ s.tickPhase ≠ .idle <;> simp [State.record, hm]

/-- Settles O36: the request, after the record of a lost tick where one was pending already. -/
theorem compareRequestsTheTick : Obligations.CompareRequestsTheTick := by
  intro s h
  have ⟨_, hf, _⟩ := h
  change execCompare s = _
  rw [execCompare, State.unlessFaulted_of_none hf, if_pos ((compareEnabled_iff hf).2 h)]
  cases hp : s.tickPending <;> simp [State.record]

end

/-! ### The level function (R91, R92) -/

section

namespace Sys2Proof.Machine

/-- The draw reaches each allowed level, and no other (log 16). -/
theorem exists_level_iff {active syncOn : Bool} {ser : Ser} {bit : Bool} {l : Level} :
    (∃ d, level active syncOn ser bit d = some l) ↔ l ∈ allowedLevels active syncOn ser bit := by
  refine ⟨fun ⟨_, hd⟩ => List.mem_of_getElem? hd, fun hl => ?_⟩
  obtain ⟨d, hlt, hd⟩ := List.getElem_of_mem hl
  exact ⟨d, by rw [level, Nat.mod_eq_of_lt hlt, List.getElem?_eq_getElem hlt, hd]⟩

end Sys2Proof.Machine

open Sys2Proof Sys2Proof.Machine

/-- Settles O57: the draw ranges over the allowed levels, which are listed case by case: inactive, inside the pulse, and
each serial line outside it. -/
theorem levelFollowsTheSpec : Obligations.LevelFollowsTheSpec := by
  intro active syncOn ser bit l
  rw [exists_level_iff]
  cases active with
  | false => cases l <;> simp [allowedLevels]
  | true =>
    cases syncOn with
    | true => simp [allowedLevels]
    | false => cases ser <;> simp [allowedLevels, pixelLevel]

end

/-! ### What a period shows (R91, R92, R93) -/

section

namespace Sys2Proof.Machine

open Sys2Proof.Safety

/-- Among events that show nothing, an IDLE_FORCED begins a black stretch (R93). -/
theorem stretches_forced {a : List Event} (h : a.all unseen = true) (forced : Bool) (b : List Event) :
    stretches (a ++ ((if forced then [.idleForced] else []) ++ b)) =
      (if forced then [.black] else []) ++ stretches b := by
  rw [stretches_unseen h]
  cases forced <;> rfl

/-- A complete row shows its pixels and then the RESIDUAL draw (R93, R96). -/
theorem stretches_row {c : List Event} (h : c.all unseen = true) (l off : Nat) (b : List Event) :
    stretches (.rowStart l off :: (c ++ .rowEnd off :: b)) =
      .pixels ((pixValues c).flatMap byteLevels) :: .residual :: stretches b := by
  rw [stretches, rowBytes_rowEnd h, stretches_unseen h, stretches]

/-- The level right after the pulse: black, or the draw where the line is not IDLE (R91; log 16). -/
theorem mem_levels_stretchOf {ser : Ser} {x : Level} :
    x ∈ (stretchOf ser).levels ↔ x = .black ∨ (x = .white ∧ ser ≠ .idle) := by
  cases ser <;> simp [stretchOf, Segment.levels]

/-- A period without a row (R93). -/
theorem stretches_silentPeriod {after a b : List Event} {late : Bool} (hu : (a ++ b).all unseen = true)
    (hp : PeriodOf after (a ++ (if late then [.idleForced] else []) ++ b)) :
    stretches after = if late then [.black] else [] := by
  obtain ⟨rest, rfl, hrest, -⟩ := periodOf_rest hp
  rw [List.all_append, Bool.and_eq_true] at hu
  obtain ⟨ha, hb⟩ := hu
  simp only [List.append_assoc]
  rw [stretches_forced ha, stretches_unseen hb, hrest, List.append_nil]

/-- A period with one complete row (R93). -/
theorem stretches_rowPeriod {after a b c e f : List Event} {late done : Bool} {l off : Nat}
    (hu : (a ++ b ++ c ++ e ++ f).all unseen = true)
    (hp : PeriodOf after (a ++ (if late then [.idleForced] else []) ++ b ++ [.rowStart l off] ++ c ++ [.rowEnd off] ++ e
      ++ (if done then [.idleForced] else []) ++ f)) :
    stretches after = (if late then [.black] else [])
      ++ [.pixels ((pixValues c).flatMap byteLevels), .residual] ++ if done then [.black] else [] := by
  obtain ⟨rest, rfl, hrest, -⟩ := periodOf_rest hp
  simp only [List.all_append, Bool.and_eq_true] at hu
  obtain ⟨⟨⟨⟨ha, hb⟩, hc⟩, he⟩, hf⟩ := hu
  simp only [List.append_assoc, List.cons_append, List.nil_append]
  rw [stretches_forced ha, stretches_unseen hb, stretches_row hc, stretches_forced he, stretches_unseen hf, hrest,
    List.append_nil]

end Sys2Proof.Machine

open Sys2Proof Sys2Proof.Machine Sys2Proof.Safety

/-- Settles O60: after the pulse and the stretch of the serial line as the period finds it, a period shows the stretches
that its own events begin. -/
theorem periodShowsItsStretchesInOrder : Obligations.PeriodShowsItsStretchesInOrder := by
  intro before after l d
  refine ⟨_, stretchOf (before.foldl serAfter .residual), lineRecordsFrom_get .residual before after l d,
    fun _ => mem_levels_stretchOf, ?_, ?_, ?_, ?_⟩
  · intro late a b hu hp
    simp [lineRecord, stretches_silentPeriod hu hp]
  · intro late done a b c e f l' off hu hp
    simp [lineRecord, stretches_rowPeriod hu hp]
  · intro period hp he
    obtain ⟨rest, rfl, -, -⟩ := periodOf_rest hp
    obtain ⟨shown, hs⟩ := stretches_ended hp.1 he rest
    simp [lineRecord, hs, List.getLast?_cons]
  · intro hp he
    obtain ⟨last, hlast, hshows⟩ := stretches_last _ _ (stretchOf_shows (before.foldl serAfter .residual)) hp he
    refine ⟨last, ?_, ?_⟩
    · rw [lineRecord, List.getLast?_cons_cons, hlast]
    · rw [List.foldl_append]
      exact hshows

end

/-! ### The serializer, state by state (R95, R96, R97, R99, R119) -/

section

namespace Sys2Proof.Machine

open Sys2Proof.Safety

/-- The state after one shifted byte, field by field (R96). -/
theorem shiftByte_eq (s : State) (off n i : Nat) (b : Byte) :
    s.shiftByte off n i b =
      if i + 1 < n then { s with dma := .busy off n (i + 1), hist := s.hist ++ [.pixByte (off + i) b] }
      else { s with
        dma := .idle, donePending := true, ser := .residual
        hist := s.hist ++ [.pixByte (off + i) b, .rowEnd off] } := by
  obtain ⟨h, he⟩ | ⟨h, he⟩ := s.shiftByte_cases off n i b
  · rw [he, if_pos h]
    rfl
  · rw [he, if_neg (Nat.not_lt.2 h)]
    simp [State.record]

/-- Once an instruction has answered a next state, its other repetitions run from there. -/
theorem repeatExec_succ {i : Instr} {s t : State} (h : exec i s = .next t) (n : Nat) :
    repeatExec i (n + 1) s = repeatExec i n t := by
  simp only [repeatExec, h]

/-- The PIXBYTE events of the `k` bytes from `off + i` on, in rising order (R99). -/
def pixBytes (m : Memory) (off i k : Nat) : List Event :=
  (List.range' i k).map fun j => .pixByte (off + j) (m.read (off + j))

theorem pixBytes_succ (m : Memory) (off i k : Nat) :
    pixBytes m off i (k + 1) = .pixByte (off + i) (m.read (off + i)) :: pixBytes m off (i + 1) k := by
  rw [pixBytes, List.range'_succ, List.map_cons, pixBytes]

/-- The transfer from `off` ended, with the events `sent` of its last bytes (R96). -/
def State.transferEnded (s : State) (off : Nat) (sent : List Event) : State :=
  { s with dma := .idle, donePending := true, ser := .residual, hist := s.hist ++ sent ++ [.rowEnd off] }

/-- The last byte ends the transfer. -/
theorem shiftByte_last (s : State) (off i : Nat) (b : Byte) :
    s.shiftByte off (i + 1) i b = s.transferEnded off [.pixByte (off + i) b] := by
  rw [shiftByte_eq, if_neg (lt_irrefl _)]
  simp [State.transferEnded]

/-- A byte before the last one is sent, and the transfer then ends with the others. -/
theorem transferEnded_shiftByte {s : State} {off n i : Nat} (h : i + 1 < n) (b : Byte) (sent : List Event) :
    (s.shiftByte off n i b).transferEnded off sent = s.transferEnded off (.pixByte (off + i) b :: sent) := by
  rw [shiftByte_eq, if_pos h]
  simp [State.transferEnded]

/-- With a byte of the transfer inside the framebuffer, the first DMABYTE of several shifts it (R96). -/
theorem repeatExec_dmabyte_succ {s : State} {m : Memory} {off n i : Nat} (ha : s.active = true) (hf : s.fault = none)
    (hm : s.fb = some m) (hd : s.dma = .busy off n i) (hlt : off + i < fbSize s.prof) (k : Nat) :
    repeatExec .evDmabyte (k + 1) s = repeatExec .evDmabyte k (s.shiftByte off n i (m.read (off + i))) :=
  have ⟨hstep, _⟩ := execDmabyte_shifts hf ha hd rfl (State.readByte_eq_some.2 ⟨m, hm, hlt, rfl⟩)
  repeatExec_succ (i := .evDmabyte) hstep k

/-- A transfer with `k + 1` bytes left, of which `off + i` is the next, sends them in rising order and ends (R96, R99). -/
theorem repeatExec_dmabyte {s : State} {m : Memory} {off n i k : Nat} (ha : s.active = true) (hf : s.fault = none)
    (hm : s.fb = some m) (hd : s.dma = .busy off n i) (hk : i + k + 1 = n) (hfit : off + n ≤ fbSize s.prof) :
    repeatExec .evDmabyte (k + 1) s = .next (s.transferEnded off (pixBytes m off i (k + 1))) := by
  rw [repeatExec_dmabyte_succ ha hf hm hd (by omega), pixBytes_succ]
  induction k generalizing s i with
  | zero =>
    subst hk
    rw [repeatExec, shiftByte_last]
    rfl
  | succ k ih =>
    have hmid : i + 1 < n := by omega
    obtain ⟨hf', ha', hm', hp'⟩ := shiftByte_frame s off n i (m.read (off + i))
    have hd' : (s.shiftByte off n i (m.read (off + i))).dma = .busy off n (i + 1) := by rw [shiftByte_eq, if_pos hmid]
    rw [repeatExec_dmabyte_succ (ha'.trans ha) (hf'.trans hf) (hm'.trans hm) hd' (by rw [hp']; omega),
      ih (ha'.trans ha) (hf'.trans hf) (hm'.trans hm) hd' (by omega) (hp' ▸ hfit), ← pixBytes_succ,
      transferEnded_shiftByte hmid]

/-- An enabled DMADONE forces the line idle (R97). -/
theorem execDmadone_of_mayDmadone {s : State} (h : MayDmadone s) :
    execDmadone s = .next (({ s with ser := .idle, donePending := false } : State).record .idleForced) := by
  have ⟨_, hf, _⟩ := h
  rw [execDmadone, State.unlessFaulted_of_none hf, if_pos ((dmadoneEnabled_iff hf).2 h)]

@[simp] theorem State.finishTick_tickPending (s : State) (c : Nat) : (s.finishTick c).tickPending = s.tickPending := by
  obtain ⟨-, -, he⟩ | ⟨-, -, -, he⟩ | ⟨-, -, he⟩ := s.finishTick_cases c <;> simp [he]

/-- Whatever the tick's body does, the tick has been entered: its request is cleared and stays so (R74). -/
@[simp] theorem State.runTick_tickPending (s : State) : s.runTick.tickPending = false := by
  obtain ⟨-, he⟩ | ⟨-, -, he⟩ | ⟨-, -, he⟩ := s.runTick_cases <;> simp [he, State.enterTick, State.dispatchRow]

theorem State.dispatchRow_follows_enterTick (s : State) : Follows s.enterTick s.dispatchRow :=
  .of_append [.rowStart s.line s.cursor] rfl rfl

/-- Whatever the tick's body does, the tick has been recorded first (R74). -/
theorem State.runTick_follows_enterTick (s : State) : Follows s.enterTick s.runTick := by
  obtain ⟨-, he⟩ | ⟨-, -, he⟩ | ⟨-, -, he⟩ := s.runTick_cases <;> rw [he]
  · exact State.finishTick_follows _ _
  · exact .raise _ _
  · exact s.dispatchRow_follows_enterTick.trans (State.finishTick_follows _ _)

theorem tick_mem_runTick_hist (s : State) : Event.tick s.line ∈ s.runTick.hist.drop s.hist.length := by
  obtain ⟨⟨later, hist⟩, -⟩ := s.runTick_follows_enterTick
  rw [← hist]
  simp [State.enterTick]

/-- Where a tick is pending or running the done handler waits (R119). -/
theorem not_mayDmadone_of_tick {s : State} (h : s.tickPending = true ∨ s.tickPhase ≠ .idle) : ¬ MayDmadone s := by
  rintro ⟨-, -, -, hp, hi⟩
  obtain h | h := h
  · exact absurd (h.symm.trans hp) nofun
  · exact h hi

end Sys2Proof.Machine

open Sys2Proof Sys2Proof.Machine Sys2Proof.Safety

/-- Settles O42: DMABYTE answers the shift of the byte that it reads. -/
theorem dmabyteSendsTheNextByte : Obligations.DmabyteSendsTheNextByte := by
  intro s off n i b ha hf hd hb
  change execDmabyte s = _
  rw [(execDmabyte_shifts hf ha hd rfl hb).1, shiftByte_eq]

/-- Settles O43: by induction on the bytes left, from the first of all `n`. -/
theorem transferSendsTheWholeRow : Obligations.TransferSendsTheWholeRow := by
  intro s m off n ha hf hm hd hn hfit
  obtain ⟨k, rfl⟩ := Nat.exists_eq_add_of_le' hn
  rw [repeatExec_dmabyte ha hf hm hd (by omega) hfit, List.range_eq_range']
  rfl

/-- Settles O45: the enabled done handler's answer. -/
theorem dmadoneForcesTheLineIdle : Obligations.DmadoneForcesTheLineIdle := fun _ h => execDmadone_of_mayDmadone h

/-- Settles O46: a pending or running tick disables DMADONE, and the tick that runs finds the completion outstanding. -/
theorem tickHasPriorityOverDone : Obligations.TickHasPriorityOverDone := by
  refine fun s ha hf hd => ⟨fun ht => ?_, fun h => ⟨s.runTick, execTick_of_mayTick h, s.runTick_tickPending,
    tick_mem_runTick_hist s, fun hl hl' => ?_⟩⟩
  · exact unlessFaulted_guard_hold hf (dmadoneEnabled_iff hf) (not_mayDmadone_of_tick ht)
  · rw [runTick_overlap hl hl' (.inr hd), State.raise_fault]

end

/-! ### Commands that do not run: their faults, and a preempted or stopped context (R100, R101, R104, R116, R117, R144) -/

section

namespace Sys2Proof.Machine

open Sys2Proof.Safety

section

variable {s : State} {c : Prop} [Decidable c] {k : Result}

/-- A check that fails raises its fault before anything that follows it (R116, R117). -/
theorem unlessFaulted_check_fails (hf : s.fault = none) (hc : c) (f : Fault) :
    s.unlessFaulted (if c then .next (s.raise f) else k) = .next (faulted s f) := by
  rw [State.unlessFaulted_of_none hf, if_pos hc]
  rfl

/-- A check that passes leaves the meaning to what follows it (R117). -/
theorem unlessFaulted_check_passes {a : Result} (hc : ¬ c) :
    s.unlessFaulted (if c then a else k) = s.unlessFaulted k := by
  rw [if_neg hc]

end

theorem State.inHook_iff_ne_idle {s : State} : s.inHook = true ↔ s.tickPhase ≠ .idle := by
  rw [Ne, ← State.inHook_eq_false, Bool.not_eq_false]

/-- Outside a hook the context check of R117 passes. -/
theorem State.not_inHook {s : State} (h : s.tickPhase = .idle) : ¬ s.inHook = true :=
  fun hh => State.inHook_iff_ne_idle.1 hh h

/-- While inactive the activity check of R117 fails. -/
theorem State.activity_check_fails {s : State} (h : s.active = false) : (!s.active) = true := by simp [h]

/-- The registers that are readable (R37, R109). -/
theorem regReadable_iff {s : State} {r : Reg} :
    regReadable s r = true ↔ s.active = true ∨ r = .status ∨ r = .hookstart ∨ r = .hookend := by
  cases r <;> simp [regReadable, readableInactive]

/-- While inactive every register but the three of R109 is unreadable. -/
theorem regReadable_eq_false {s : State} {r : Reg} (ha : s.active = false) (h₁ : r ≠ .status) (h₂ : r ≠ .hookstart)
    (h₃ : r ≠ .hookend) : regReadable s r = false := by
  rw [← Bool.not_eq_true, regReadable_iff]
  simp [ha, h₁, h₂, h₃]

theorem State.clearLeft_eq_none {s : State} (h : ∀ l, ¬ clearing s l) : s.clearLeft = none :=
  Option.eq_none_iff_forall_ne_some.2 fun l hl => h l (clearing_iff.2 hl)

/-- In the main context no WAITF is in progress where `mainOp` keeps none (R111). -/
theorem State.waitProgress_eq_none {s : State} (ht : s.tickPhase = .idle)
    (h : ∀ rem ph fl, s.mainOp ≠ some (.waitf rem ph fl)) : s.waitProgress = none := by
  refine Option.eq_none_iff_forall_ne_some.2 fun ⟨rem, ph, fl⟩ hw => h rem ph fl ?_
  rwa [State.waitProgress_eq_some, State.currentOp, if_neg (State.not_inHook ht)] at hw

/-- The first step of WAITF in the main context: its checks, then its first attempt (R111). -/
theorem execWaitf_first {s : State} (ht : s.tickPhase = .idle) (h : ∀ rem ph fl, s.mainOp ≠ some (.waitf rem ph fl))
    (n : Half) :
    execWaitf n s = s.unlessFaulted (if !s.active then .next (s.raise .notActive)
      else if n = 0 then .next s.retire else waitAttempt n.toNat .seekEq (frameLine s.prof) s) := by
  rw [execWaitf, if_neg (State.not_inHook ht), State.waitProgress_eq_none ht h]

/-- BEGIN faults where the allocation of the selected profile's framebuffer fails (R103). -/
theorem execBegin_allocFail {m : Byte} {s : State} {p : Profile} (hf : s.fault = none) (ht : s.tickPhase = .idle)
    (ha : s.active = false) (hp : s.params.profileTable[resolveMode s.params m]? = some p)
    (hal : fbSize p ∈ s.params.allocFails) : execBegin m s = .next (faulted s .allocFail) := by
  have hfail : allocOk s.params (fbSize p) = false := by simpa [allocOk] using hal
  rw [execBegin, unlessFaulted_check_passes (State.not_inHook ht), unlessFaulted_check_passes (by simp [ha]),
    State.unlessFaulted_of_none hf, hp]
  simp only [hfail, Bool.false_eq_true, if_false]
  rfl

/-- A poll of an unreadable register in the main context (R110). -/
theorem pollAttempt_unreadable {s : State} {r : Reg} (hf : s.fault = none) (ht : s.tickPhase = .idle)
    (hr : regReadable s r = false) (e : Bool) (v : Half) :
    s.unlessFaulted (pollAttempt e r v s) = .next (faulted s .notActive) := by
  rw [pollAttempt, unlessFaulted_check_passes (State.not_inHook ht), unlessFaulted_check_fails hf (by simp [hr])]

/-- The main context fetches nothing while a tick is suspended in a hook (R100). -/
theorem fetch_host_inHook {s : State} (h : s.tickPhase ≠ .idle) : fetch .host s = .hold := by
  cases ht : s.tickPhase with
  | idle => exact absurd ht h
  | hook k hd pc => simp only [fetch, agentEvent, ht]

/-- The hook context fetches nothing while no tick is suspended in a hook (R81). -/
theorem fetch_hook_idle {s : State} (h : s.tickPhase = .idle) : fetch .hook s = .hold := by
  simp only [fetch, agentEvent, h]

/-- An agent that fetches nothing uses up its place in the schedule only (log 4). -/
theorem step_of_hold {s : State} {a : Agent} {rest : List Agent} (hf : s.fault = none) (hw : s.params.wf = true)
    (hs : s.sched = a :: rest) (hh : fetch a { s with sched := rest } = .hold) :
    step s = .next { s with sched := rest } := by
  rw [step_of_fetch hf hw hs, hh]

/-- An END that completes leaves an inactive engine in the main context (R104). -/
theorem execEnd_completed {s t : State} (h : execEnd s = .next t) (hf : t.fault = none) :
    t.active = false ∧ t.tickPhase = .idle := by
  obtain ⟨-, ⟨-, rfl⟩ | ⟨-, -, rfl⟩ | ⟨hh, -, rfl⟩⟩ := execEnd_next h
  · cases hf
  · cases hf
  · have ht : (s.stopped.record .ended).tickPhase = .idle := State.inHook_eq_false.1 hh
    exact ⟨State.retire_active _, by rw [State.retire_main ht]; exact ht⟩

/-- While inactive and outside a hook, every event's condition fails, so it holds (R6; log 4). -/
theorem exec_event_inactive {i : Instr} {t : State} (hf : t.fault = none) (ha : t.active = false)
    (ht : t.tickPhase = .idle) (hi : i.isEvent = true) : exec i t = .next t := by
  obtain ⟨hboundary, hcompare, htick, hhookret, hdmabyte, hdmadone⟩ := disabledEventChangesNothing t hf
  have hna : ¬ t.active = true := by simp [ha]
  cases i with
  | evBoundary => exact hboundary fun h => hna h.1
  | evCompare => exact hcompare fun h => hna h.1
  | evTick => exact htick fun h => hna h.1
  | evHookret => exact hhookret fun ⟨_, _, _, _, hk⟩ => absurd (ht.symm.trans hk) nofun
  | evDmabyte => exact hdmabyte fun h => hna h.1
  | evDmadone => exact hdmadone fun h => hna h.1
  | _ => cases hi

theorem execFbrd_inactive {s : State} (hf : s.fault = none) (ha : s.active = false) (off : Half) :
    execFbrd off s = .next (faulted s .notActive) :=
  unlessFaulted_check_fails hf (State.activity_check_fails ha) _

theorem execFbwr_inactive {s : State} (hf : s.fault = none) (ha : s.active = false) (data : Byte) (off : Half) :
    execFbwr data off s = .next (faulted s .notActive) :=
  unlessFaulted_check_fails hf (State.activity_check_fails ha) _

end Sys2Proof.Machine

open Sys2Proof Sys2Proof.Machine Sys2Proof.Safety

/-- Settles O8: a suspended tick and an exhausted program leave the main context nothing to fetch; END's checks read
neither pending bit. -/
theorem mainContextIsPreemptedByTheTick : Obligations.MainContextIsPreemptedByTheTick := by
  intro s rest hf hw hs
  refine ⟨fun h => step_of_hold hf hw hs ?_, fun p q w ht ho hp hd ha => ?_⟩
  · obtain ht | hpc := h
    · exact fetch_host_inHook ht
    · by_cases ht : s.tickPhase = .idle
      · rw [fetch_host (by exact ht), fetchCommand_end hpc]
      · exact fetch_host_inHook ht
  · have hstep := step_of_reaches_command (s := { s with tickPending := p, donePending := q }) hf hw
      (.inl ⟨hs, ht, ho, hp⟩) hd
    exact ⟨_, hstep.trans (execEnd_stopped hf ht ha), State.retire_active _⟩

/-- Settles O17: each check of BEGIN, with those before it passed. -/
theorem beginFaultsInOrder : Obligations.BeginFaultsInOrder := by
  refine fun m s hf => ⟨fun ht => ?_, fun ht ha => ?_, fun p => execBegin_allocFail hf⟩
  · exact unlessFaulted_check_fails hf (State.inHook_iff_ne_idle.2 ht) _
  · exact (unlessFaulted_check_passes (State.not_inHook ht)).trans (unlessFaulted_check_fails hf ha _)

/-- Settles O20: END leaves an inactive engine in the main context, where every event's condition fails, a hook has
nothing to fetch, and the activity check fails. -/
theorem nothingRunsAfterEnd : Obligations.NothingRunsAfterEnd := by
  intro s t _ h hf
  obtain ⟨ha, ht⟩ := execEnd_completed h hf
  exact ⟨fun i => exec_event_inactive hf ha ht, fun rest hw hsched => step_of_hold hf hw hsched (fetch_hook_idle ht),
    execFbrd_inactive hf ha, execFbwr_inactive hf ha⟩

/-- Settles O21: the context check is the first of each of the five commands. -/
theorem blockingCommandsFaultInAHook : Obligations.BlockingCommandsFaultInAHook := by
  intro i s hi hf ht
  have hh := State.inHook_iff_ne_idle.2 ht
  cases i with
  | cmdBegin mode => exact unlessFaulted_check_fails hf hh _
  | cmdEnd => exact unlessFaulted_check_fails hf hh _
  | cmdPolleq reg value => exact unlessFaulted_check_fails hf hh _
  | cmdPollne reg value => exact unlessFaulted_check_fails hf hh _
  | cmdWaitf n => exact unlessFaulted_check_fails hf hh _
  | _ => cases hi

/-- Settles O22: each command's activity check, after the context check where it has one. -/
theorem commandsFaultWhileInactive : Obligations.CommandsFaultWhileInactive := by
  intro s hf ha
  have hna := State.activity_check_fails ha
  refine ⟨execFbrd_inactive hf ha, execFbwr_inactive hf ha, fun hc => ?_, fun r h₁ h₂ h₃ => ?_, fun ht => ?_,
    fun ht hw n => ?_⟩
  · change execClear s = _
    rw [execClear, State.clearLeft_eq_none hc]
    exact unlessFaulted_check_fails hf hna _
  · have hr := regReadable_eq_false ha h₁ h₂ h₃
    refine ⟨?_, fun ht v => ⟨pollAttempt_unreadable hf ht hr true v, pollAttempt_unreadable hf ht hr false v⟩⟩
    exact (unlessFaulted_check_passes (by simp [hr])).trans (State.unlessFaulted_of_none hf _)
  · exact (unlessFaulted_check_passes (State.not_inHook ht)).trans (unlessFaulted_check_fails hf hna _)
  · change execWaitf n s = _
    rw [execWaitf_first ht hw]
    exact unlessFaulted_check_fails hf hna _

end

/-! ### Commands that retire or go on: FBRD, SETHOOK, the polls and WAITF (R106, R108, R110, R111) -/

section

namespace Sys2Proof.Machine

open Sys2Proof.Safety

/-- Keeping progress in the main context (R34). -/
theorem State.keepOp_main {s : State} (h : s.tickPhase = .idle) (op : MultiOp) :
    s.keepOp op = { s with mainOp := some op } := by
  rw [State.keepOp, if_neg (State.not_inHook h)]

/-- Writing a hook slot and advancing the pointer leave each other alone (R100, R108). -/
theorem retire_setHookSlot (s : State) (k : HookKind) (h : Half) :
    (s.setHookSlot k h).retire = (advanced s).setHookSlot k h := by
  cases ht : s.tickPhase <;> cases k <;> simp [State.retire, advanced, State.setHookSlot, ht]

theorem execSethook_eq {s : State} (hf : s.fault = none) (k : HookKind) (h : Half) :
    execSethook k h s = .next ((advanced s).setHookSlot k h) := by
  rw [execSethook, State.unlessFaulted_of_none hf, retire_setHookSlot]

/-- A register equals a poll's value, zero-extended, exactly where the two numbers are equal (R110). -/
theorem eq_setWidth_iff {v : Word} {value : Half} : v = value.setWidth 32 ↔ v.toNat = value.toNat := by
  rw [← BitVec.toNat_inj, BitVec.toNat_setWidth_of_le (by decide)]

section

variable {s : State} {r : Reg} {value : Half} {untilEq : Bool}

/-- A poll whose condition is met retires with its READ event (R110). -/
theorem pollAttempt_retires (ht : s.tickPhase = .idle) (hr : regReadable s r = true)
    (hv : decide (regValue s r = value.setWidth 32) = untilEq) :
    pollAttempt untilEq r value s = .next { s with
      polled := true, hpc := s.hpc + 1, mainOp := none, hist := s.hist ++ [.read (.reg r) (regValue s r)] } := by
  rw [pollAttempt, if_neg (State.not_inHook ht), if_neg (by simp [hr])]
  dsimp only
  rw [if_pos hv, State.retire_main (by exact ht)]
  rfl

/-- A poll whose condition is not met keeps its operands (R110). -/
theorem pollAttempt_holds (ht : s.tickPhase = .idle) (hr : regReadable s r = true)
    (hv : decide (regValue s r = value.setWidth 32) ≠ untilEq) :
    pollAttempt untilEq r value s = .next { s with polled := true, mainOp := some (.poll untilEq r value) } := by
  rw [pollAttempt, if_neg (State.not_inHook ht), if_neg (by simp [hr])]
  dsimp only
  rw [if_neg hv, State.keepOp_main (by exact ht)]

end

section

variable {s : State} {rem fl : Nat} (ht : s.tickPhase = .idle)
include ht

/-- An attempt that seeks the line moves on when it is reached (R111). -/
theorem waitAttempt_seekEq :
    waitAttempt rem .seekEq fl s = .next { s with
      polled := true, mainOp := some (.waitf rem (if s.line = fl then .seekNe else .seekEq) fl) } := by
  simp only [waitAttempt]
  rw [State.keepOp_main (by exact ht)]

/-- An attempt that seeks to leave the line holds on it (R111). -/
theorem waitAttempt_onLine (hl : s.line = fl) :
    waitAttempt rem .seekNe fl s = .next { s with polled := true, mainOp := some (.waitf rem .seekNe fl) } := by
  simp only [waitAttempt, if_pos hl]
  rw [State.keepOp_main (by exact ht)]

/-- Leaving the line counts down where the line is to be left again (R111). -/
theorem waitAttempt_countsDown (hl : s.line ≠ fl) :
    waitAttempt (rem + 2) .seekNe fl s =
      .next { s with polled := true, mainOp := some (.waitf (rem + 1) .seekEq fl) } := by
  simp only [waitAttempt, if_neg hl]
  rw [if_neg (by omega), State.keepOp_main (by exact ht)]
  rfl

/-- Leaving the line for the last time retires with READ(LINE) (R111). -/
theorem waitAttempt_retires (hl : s.line ≠ fl) :
    waitAttempt 1 .seekNe fl s = .next { s with
      polled := true, hpc := s.hpc + 1, mainOp := none
      hist := s.hist ++ [.read (.reg .line) (BitVec.ofNat 32 s.line)] } := by
  simp only [waitAttempt, if_neg hl]
  rw [State.retire_main (by exact ht)]
  rfl

end

end Sys2Proof.Machine

open Sys2Proof Sys2Proof.Machine Sys2Proof.Safety

/-- Settles O23: FBRD's answer at a readable byte, with the retirement read off field by field. -/
theorem fbrdRecordsTheByte : Obligations.FbrdRecordsTheByte := by
  intro off v s hf ha hv
  rw [← retire_record_eq]
  exact execFbrd_read hf ha hv

/-- Settles O30: SETHOOK's answer for each kind. -/
theorem sethookWritesItsSlot : Obligations.SethookWritesItsSlot := fun handle _ hf =>
  ⟨execSethook_eq hf .start handle, execSethook_eq hf .fin handle⟩

/-- Settles O32: the register's value in the register view meets one of the two conditions and fails the other. -/
theorem pollRetiresOrHolds : Obligations.PollRetiresOrHolds := by
  intro r value s hf ht hreadable
  have hr := regReadable_iff.2 hreadable
  have hpoll (untilEq : Bool) := State.unlessFaulted_of_none hf (pollAttempt untilEq r value s)
  refine ⟨regValue s r, registerHolds_regValue s r, fun hv => ?_, fun hv => ?_⟩
  · have heq := decide_eq_true (eq_setWidth_iff.2 hv)
    exact ⟨(hpoll true).trans (pollAttempt_retires ht hr heq),
      (hpoll false).trans (pollAttempt_holds ht hr (by simp [heq]))⟩
  · have hne := decide_eq_false (mt eq_setWidth_iff.1 hv)
    exact ⟨(hpoll true).trans (pollAttempt_holds ht hr (by simp [hne])),
      (hpoll false).trans (pollAttempt_retires ht hr hne)⟩

/-- Settles O33: a WAITF in progress makes one attempt of its phase; a first step checks, and makes the first attempt
where there is something to count. -/
theorem waitfCountsReachThenLeave : Obligations.WaitfCountsReachThenLeave := by
  intro n s hf ht
  have hgo {rem fl : Nat} {ph : WaitPhase} (ho : s.mainOp = some (.waitf rem ph fl)) :
      exec (.cmdWaitf n) s = waitAttempt rem ph fl s :=
    (execWaitf_of_progress ht ho n).trans (State.unlessFaulted_of_none hf _)
  refine ⟨fun rem fl ho => ?_, fun rem fl ho hl => ?_, fun rem fl ho hl => ?_, fun fl ho hl => ?_, fun ha hn => ?_⟩
  · rw [hgo ho, waitAttempt_seekEq ht]
  · rw [hgo ho, waitAttempt_onLine ht hl, ← ho]
  · rw [hgo ho, waitAttempt_countsDown ht hl]
  · rw [hgo ho, waitAttempt_retires ht hl]
  · have hfirst : exec (.cmdWaitf n) s =
        if n = 0 then .next s.retire else waitAttempt n.toNat .seekEq (frameLine s.prof) s := by
      change execWaitf n s = _
      rw [execWaitf_first ht hn, unlessFaulted_check_passes (by simp [ha]), State.unlessFaulted_of_none hf]
    refine ⟨fun h0 => ?_, fun h0 => ?_⟩
    · rw [hfirst, if_pos h0, State.retire_main ht]
    · rw [hfirst, if_neg h0, waitAttempt_seekEq ht]
      rfl

end

/-! ### CLEAR, step by step (R105) -/

section

namespace Sys2Proof.Machine

open Sys2Proof.Safety

/-- The state of one step of CLEAR before it retires or keeps its progress: a draw taken, the byte at `r` zeroed and
recorded (R105; log 3). -/
def State.zeroed (s : State) (m : Memory) (r : Nat) : State :=
  { s with
    fb := some (m.write r 0), hist := s.hist ++ [.fbWrite r 0]
    oracle := s.drawNat.2.oracle, draws := s.drawNat.2.draws }

theorem record_zero_eq_zeroed (s : State) (m : Memory) (r : Nat) :
    ({ s.drawNat.2 with fb := some (m.write r 0) } : State).record (.fbWrite r 0) = s.zeroed m r := by
  rw [drawNat_eq s]
  rfl

@[simp] theorem State.zeroed_fb (s : State) (m : Memory) (r : Nat) : (s.zeroed m r).fb = some (m.write r 0) := rfl

@[simp] theorem State.zeroed_prof (s : State) (m : Memory) (r : Nat) : (s.zeroed m r).prof = s.prof := rfl

@[simp] theorem State.zeroed_fault (s : State) (m : Memory) (r : Nat) : (s.zeroed m r).fault = s.fault := rfl

@[simp] theorem State.zeroed_hist (s : State) (m : Memory) (r : Nat) :
    (s.zeroed m r).hist = s.hist ++ [.fbWrite r 0] := rfl

section

variable {s t : State} {m : Memory} {r : Nat}

/-- The byte zeroed reads as 0. -/
theorem readByte_zeroed_same (hm : m.wf = true) (hr : r < fbSize s.prof) (hfb : t.fb = (s.zeroed m r).fb)
    (hp : t.prof = s.prof) : t.readByte r = some 0 :=
  State.readByte_eq_some.2 ⟨_, hfb, hp ▸ hr, Memory.read_write_same r 0 hm⟩

/-- Every other byte reads as before. -/
theorem readByte_zeroed_ne (hs : s.fb = some m) (hm : m.wf = true) (hfb : t.fb = (s.zeroed m r).fb)
    (hp : t.prof = s.prof) {a : Nat} (ha : a ≠ r) : t.readByte a = s.readByte a := by
  rw [State.readByte, State.readByte, hfb, hp, hs]
  simp only [State.zeroed_fb, Memory.read_write_ne 0 hm ha]

end

/-- One step of CLEAR zeroes an offset of those left, and retires or keeps the others as its progress (R105). -/
theorem clearStep_eq {left : List Nat} {s : State} {m : Memory} (hm : s.fb = some m) (hne : left ≠ [])
    (hin : ∀ r ∈ left, r < fbSize s.prof) :
    ∃ r ∈ left, clearStep left s = .next (
      if left.filter (· ≠ r) = [] then (s.zeroed m r).retire
      else (s.zeroed m r).keepOp (.clear (left.filter (· ≠ r)))) := by
  have hplace : s.drawNat.1 % left.length < left.length := Nat.mod_lt _ (List.length_pos_iff.2 hne)
  have hr : left[s.drawNat.1 % left.length] ∈ left := List.getElem_mem hplace
  refine ⟨_, hr, ?_⟩
  have hw : s.drawNat.2.writeByte left[s.drawNat.1 % left.length] 0 =
      some { s.drawNat.2 with fb := some (m.write left[s.drawNat.1 % left.length] 0) } :=
    State.writeByte_eq_some.2 ⟨m, by simpa using hm, by simpa using hin _ hr, rfl⟩
  simp only [clearStep, List.getElem?_eq_getElem hplace, hw, record_zero_eq_zeroed]
  exact (apply_ite Host.Outcome.next _ _ _).symm

/-- The progress kept is the CLEAR in progress of the running context (R34). -/
theorem clearing_keepOp (s : State) (left : List Nat) : clearing (s.keepOp (.clear left)) left := by
  rw [clearing, State.keepOp_tickPhase, State.keepOp, State.inHook]
  cases s.tickPhase <;> rfl

/-- To retire is to advance the running context's pointer, and nothing else (R100). -/
theorem retire_eq_advanced (s : State) : s.retire = advanced s := by
  unfold State.retire advanced
  cases s.tickPhase <;> rfl

/-- Keeping progress changes the progress fields alone (R34). -/
theorem keepOp_eq (s : State) (op : MultiOp) :
    s.keepOp op = { s with mainOp := (s.keepOp op).mainOp, hookOp := (s.keepOp op).hookOp } := by
  unfold State.keepOp
  split <;> rfl

/-- In the main context a hook's progress stays, and in a hook the main one's (R34). -/
theorem keepOp_otherContext (s : State) (op : MultiOp) :
    (s.tickPhase = .idle → (s.keepOp op).hookOp = s.hookOp) ∧
      (s.tickPhase ≠ .idle → (s.keepOp op).mainOp = s.mainOp) := by
  unfold State.keepOp
  refine ⟨fun h => ?_, fun h => ?_⟩
  · rw [if_neg (State.not_inHook h)]
  · rw [if_pos (State.inHook_iff_ne_idle.2 h)]

/-- Retiring discards the progress kept (R100). -/
theorem retire_keepOp (s : State) (op : MultiOp) : (s.keepOp op).retire = s.retire := by
  unfold State.retire
  rw [State.keepOp_tickPhase, State.keepOp, State.inHook]
  cases s.tickPhase <;> rfl

/-- Nothing but the framebuffer, the history and the draws differs from the state with its command retired (R105). -/
def ClearRetired (s t : State) : Prop :=
  t = { advanced s with fb := t.fb, hist := t.hist, oracle := t.oracle, draws := t.draws }

theorem clearRetired_zeroed (s : State) (m : Memory) (r : Nat) : ClearRetired s (s.zeroed m r).retire := by
  rw [ClearRetired, ← retire_eq_advanced]
  cases h : s.tickPhase with
  | idle =>
    rw [State.retire_main h, State.retire_main (s := s.zeroed m r) h]
    rfl
  | hook k hd pc =>
    rw [State.retire_hook h, State.retire_hook (s := s.zeroed m r) h]
    rfl

/-- A CLEAR that retires after a first step went on has changed what one that retires at once has. -/
theorem ClearRetired.of_keepOp {s t : State} {m : Memory} {r : Nat} {op : MultiOp}
    (h : ClearRetired ((s.zeroed m r).keepOp op) t) : ClearRetired s t := by
  have hs := clearRetired_zeroed s m r
  rw [ClearRetired, ← retire_eq_advanced, retire_keepOp, hs] at h
  exact h

/-- Where a CLEAR stands that starts with every offset or has some left: the bytes that are not left are 0. -/
structure ClearLeaves (s : State) (m : Memory) (left : List Nat) : Prop where
  fault : s.fault = none
  framebuffer : s.fb = some m
  canonical : m.wf = true
  progress : clearing s left ∨ (s.active = true ∧ (∀ l, ¬ clearing s l) ∧ left = List.range (fbSize s.prof))
  nodup : left.Nodup
  inside : ∀ r ∈ left, r < fbSize s.prof
  done : ∀ a, a < fbSize s.prof → a ∉ left → s.readByte a = some 0

section

variable {s : State} {m : Memory} {left : List Nat}

/-- CLEAR's next step zeroes one of the offsets left (R105). -/
theorem ClearLeaves.step (h : ClearLeaves s m left) (hne : left ≠ []) :
    ∃ r ∈ left, exec .cmdClear s = .next (
      if left.filter (· ≠ r) = [] then (s.zeroed m r).retire
      else (s.zeroed m r).keepOp (.clear (left.filter (· ≠ r)))) := by
  obtain ⟨r, hr, hstep⟩ := clearStep_eq h.framebuffer hne h.inside
  exact ⟨r, hr, (execClear_eq_clearStep h.fault h.progress).trans hstep⟩

/-- After a step that zeroes `r`, whatever is done with the progress, the bytes not left any more are 0. -/
theorem ClearLeaves.readByte_zeroed (h : ClearLeaves s m left) {r : Nat} (hr : r ∈ left) {t : State}
    (hfb : t.fb = (s.zeroed m r).fb) (hp : t.prof = s.prof) {a : Nat} (ha : a < fbSize s.prof)
    (hleft : a ∉ left.filter (· ≠ r)) : t.readByte a = some 0 := by
  by_cases har : a = r
  · subst har
    exact readByte_zeroed_same h.canonical ha hfb hp
  · rw [readByte_zeroed_ne h.framebuffer h.canonical hfb hp har]
    exact h.done a ha fun hmem => hleft (List.mem_filter.2 ⟨hmem, by simpa using har⟩)

/-- A step that goes on leaves the other offsets. -/
theorem ClearLeaves.keepOp (h : ClearLeaves s m left) {r : Nat} (hr : r ∈ left) :
    ClearLeaves ((s.zeroed m r).keepOp (.clear (left.filter (· ≠ r)))) (m.write r 0) (left.filter (· ≠ r)) where
  fault := by simpa using h.fault
  framebuffer := by simp
  canonical := Memory.wf_write r 0 h.canonical
  progress := .inl (clearing_keepOp _ _)
  nodup := h.nodup.filter _
  inside := fun x hx => by simpa using h.inside x (List.mem_of_mem_filter hx)
  done := fun a ha => h.readByte_zeroed hr (by simp) (by simp) (by simpa using ha)

/-- A step takes one offset away. -/
theorem length_filter_ne (hn : left.Nodup) {r : Nat} (hr : r ∈ left) :
    (left.filter (· ≠ r)).length + 1 = left.length := by
  have he : left.erase r = left.filter (· ≠ r) :=
    (hn.erase_eq_filter r).trans (List.filter_congr fun x _ => by simp [bne, beq_eq_decide])
  rw [← he, List.length_erase_add_one hr]

/-- As many steps as offsets are left zero every byte, and the last one retires the command (R105). -/
theorem repeatExec_clear {k : Nat} (h : ClearLeaves s m left) (hk : left.length = k + 1) :
    ∃ t, repeatExec .cmdClear (k + 1) s = .next t ∧ (∀ a, a < fbSize s.prof → t.readByte a = some 0) ∧
      ClearRetired s t ∧ t.hist.length = s.hist.length + (k + 1) := by
  induction k generalizing s m left with
  | zero =>
    obtain ⟨r, hr, hstep⟩ := h.step (List.ne_nil_of_length_eq_add_one hk)
    have hlen := length_filter_ne h.nodup hr
    have hlast : left.filter (· ≠ r) = [] := List.length_eq_zero_iff.1 (by omega)
    rw [if_pos hlast] at hstep
    refine ⟨_, repeatExec_succ hstep 0, fun a ha => ?_, clearRetired_zeroed s m r, by simp⟩
    exact h.readByte_zeroed hr (by simp) (by simp) ha (hlast ▸ List.not_mem_nil)
  | succ k ih =>
    obtain ⟨r, hr, hstep⟩ := h.step (List.ne_nil_of_length_eq_add_one hk)
    have hlen := length_filter_ne h.nodup hr
    have hmore : left.filter (· ≠ r) ≠ [] := List.ne_nil_of_length_pos (by omega)
    rw [if_neg hmore] at hstep
    obtain ⟨t, hrun, hzero, hframe, hhist⟩ := ih (h.keepOp hr) (by omega)
    refine ⟨t, (repeatExec_succ hstep (k + 1)).trans hrun, by simpa using hzero, hframe.of_keepOp, ?_⟩
    rw [hhist]
    simp
    omega

end

end Sys2Proof.Machine

open Sys2Proof Sys2Proof.Machine Sys2Proof.Safety

/-- Settles O26: one step on the offsets left, read off in the branch that retires and in the branch that goes on. -/
theorem clearStepZeroesOneRemainingByte : Obligations.ClearStepZeroesOneRemainingByte := by
  intro s m left hf hfb hm hne hin hc
  obtain ⟨r, hr, hstep⟩ := clearStep_eq hfb hne hin
  have hexec := (execClear_eq_clearStep hf hc).trans hstep
  have hbytes {t : State} (hfb' : t.fb = (s.zeroed m r).fb) (hp : t.prof = s.prof) :
      t.readByte r = some 0 ∧ ∀ a, a ≠ r → t.readByte a = s.readByte a :=
    ⟨readByte_zeroed_same hm (hin r hr) hfb' hp, fun a => readByte_zeroed_ne hfb hm hfb' hp⟩
  by_cases he : left.filter (· ≠ r) = []
  · rw [if_pos he] at hexec
    obtain ⟨hsame, hothers⟩ := hbytes (t := (s.zeroed m r).retire) (by simp) (by simp)
    refine ⟨r, hr, _, hexec, hsame, hothers, ?_⟩
    rw [if_pos he]
    have hframe := clearRetired_zeroed s m r
    rwa [ClearRetired, State.retire_hist, State.zeroed_hist] at hframe
  · rw [if_neg he] at hexec
    obtain ⟨hsame, hothers⟩ := hbytes (t := (s.zeroed m r).keepOp (.clear (left.filter (· ≠ r)))) (by simp) (by simp)
    refine ⟨r, hr, _, hexec, hsame, hothers, ?_⟩
    rw [if_neg he]
    obtain ⟨hmain, hhook⟩ := keepOp_otherContext (s.zeroed m r) (.clear (left.filter (· ≠ r)))
    refine ⟨clearing_keepOp _ _, ?_, hmain, hhook⟩
    rw [State.keepOp_fb, State.keepOp_oracle, State.keepOp_draws]
    exact keepOp_eq (s.zeroed m r) _

/-- Settles O27: CLEAR starts with every offset left, and each step takes one away. -/
theorem clearZeroesEveryByte : Obligations.ClearZeroesEveryByte := by
  intro s m hf ha hfb hm hsize hnc
  have hstart : ClearLeaves s m (List.range (fbSize s.prof)) :=
    { fault := hf, framebuffer := hfb, canonical := hm, progress := .inr ⟨ha, hnc, rfl⟩, nodup := List.nodup_range
      inside := fun _ => List.mem_range.1
      done := fun a hlt hout => absurd (List.mem_range.2 hlt) hout }
  obtain ⟨k, hk⟩ := Nat.exists_eq_add_of_le' hsize
  have hrun := repeatExec_clear hstart (List.length_range.trans hk)
  rwa [← hk] at hrun

end

/-! ### Faults (R115, R116, R117) -/

section

namespace Sys2Proof.Machine

open Sys2Proof.Safety

/-- Every meaning begins with the guard on a faulted state (R116). -/
theorem exec_eq_unlessFaulted (i : Instr) (s : State) : ∃ k, exec i s = s.unlessFaulted k := by
  cases i <;> exact ⟨_, rfl⟩

theorem exec_of_faulted {s : State} {c : Fault} (h : s.fault = some c) (i : Instr) : exec i s = .fault c := by
  obtain ⟨k, hk⟩ := exec_eq_unlessFaulted i s
  rw [hk, State.unlessFaulted_of_some h]

theorem step_of_faulted {s : State} {c : Fault} (h : s.fault = some c) : step s = .fault c := by
  rw [step, h]

/-- Where `t` is faulted, it is `s` with that fault set and recorded, and nothing else changed (R116). -/
def FaultsInPlace (s t : State) : Prop := ∀ c, t.fault = some c → t = faulted s c

theorem faultsInPlace_raise (s : State) (c : Fault) : FaultsInPlace s (s.raise c) := by
  rintro _ ⟨⟩
  rfl

/-- A command that goes on or completes sets no fault. -/
theorem faultsInPlace_of_sameFault {s t : State} (hf : s.fault = none) (h : t.fault = s.fault) : FaultsInPlace s t :=
  fun c hc => by simp [h, hf] at hc

theorem execBegin_faultsInPlace {m : Byte} {s t : State} (h : execBegin m s = .next t) : FaultsInPlace s t := by
  obtain ⟨hf, ⟨-, rfl⟩ | ⟨-, -, rfl⟩ | ⟨-, -, p, -, ⟨-, rfl⟩ | ⟨-, rfl⟩⟩⟩ := execBegin_next h
  · exact faultsInPlace_raise s _
  · exact faultsInPlace_raise s _
  · exact faultsInPlace_raise s _
  · exact faultsInPlace_of_sameFault hf (by simp [State.begin])

theorem execEnd_faultsInPlace {s t : State} (h : execEnd s = .next t) : FaultsInPlace s t := by
  obtain ⟨hf, ⟨-, rfl⟩ | ⟨-, -, rfl⟩ | ⟨-, -, rfl⟩⟩ := execEnd_next h
  · exact faultsInPlace_raise s _
  · exact faultsInPlace_raise s _
  · exact faultsInPlace_of_sameFault hf (by simp [State.stopped])

theorem clearStep_fault {left : List Nat} {s t : State} (h : clearStep left s = .next t) : t.fault = s.fault := by
  obtain ⟨r, m, -, -, -, -, ⟨-, rfl⟩ | ⟨-, rfl⟩⟩ := clearStep_next h <;> simp

theorem execClear_faultsInPlace {s t : State} (h : execClear s = .next t) : FaultsInPlace s t := by
  obtain ⟨hf, ⟨left, -, hc⟩ | ⟨-, -, rfl⟩ | ⟨-, -, hc⟩⟩ := execClear_next h
  · exact faultsInPlace_of_sameFault hf (clearStep_fault hc)
  · exact faultsInPlace_raise s _
  · exact faultsInPlace_of_sameFault hf (clearStep_fault hc)

theorem execFbrd_faultsInPlace {off : Half} {s t : State} (h : execFbrd off s = .next t) : FaultsInPlace s t := by
  obtain ⟨hf, ⟨-, rfl⟩ | ⟨-, -, rfl⟩ | ⟨-, v, -, rfl⟩⟩ := execFbrd_next h
  · exact faultsInPlace_raise s _
  · exact faultsInPlace_raise s _
  · exact faultsInPlace_of_sameFault hf (by simp)

theorem execFbwr_faultsInPlace {data : Byte} {off : Half} {s t : State} (h : execFbwr data off s = .next t) :
    FaultsInPlace s t := by
  obtain ⟨hf, ⟨-, rfl⟩ | ⟨-, -, rfl⟩ | ⟨-, m, -, -, rfl⟩⟩ := execFbwr_next h
  · exact faultsInPlace_raise s _
  · exact faultsInPlace_raise s _
  · exact faultsInPlace_of_sameFault hf (by simp)

theorem execSethook_faultsInPlace {k : HookKind} {hd : Half} {s t : State} (h : execSethook k hd s = .next t) :
    FaultsInPlace s t := by
  obtain ⟨hf, rfl⟩ := execSethook_next h
  exact faultsInPlace_of_sameFault hf (by simp)

theorem execRdreg_faultsInPlace {r : Reg} {s t : State} (h : execRdreg r s = .next t) : FaultsInPlace s t := by
  obtain ⟨hf, ⟨-, rfl⟩ | ⟨-, rfl⟩⟩ := execRdreg_next h
  · exact faultsInPlace_of_sameFault hf (by simp)
  · exact faultsInPlace_raise s _

theorem pollAttempt_faultsInPlace {e : Bool} {r : Reg} {v : Half} {s t : State}
    (h : s.unlessFaulted (pollAttempt e r v s) = .next t) : FaultsInPlace s t := by
  obtain ⟨hf, h⟩ := State.unlessFaulted_next.1 h
  obtain ⟨-, rfl⟩ | ⟨-, -, rfl⟩ | ⟨-, -, -, rfl⟩ | ⟨-, -, -, rfl⟩ := pollAttempt_next h
  · exact faultsInPlace_raise s _
  · exact faultsInPlace_raise s _
  · exact faultsInPlace_of_sameFault hf (by simp)
  · exact faultsInPlace_of_sameFault hf (by simp)

theorem waitAttempt_fault {rem fl : Nat} {ph : WaitPhase} {s t : State} (h : waitAttempt rem ph fl s = .next t) :
    t.fault = s.fault := by
  obtain ⟨rem', ph', -, -, rfl⟩ | ⟨-, -, -, rfl⟩ := waitAttempt_next h <;> simp

theorem execWaitf_faultsInPlace {n : Half} {s t : State} (h : execWaitf n s = .next t) : FaultsInPlace s t := by
  obtain ⟨hf, ⟨-, rfl⟩ | ⟨-, rem, ph, fl, -, hw⟩ | ⟨-, -, ⟨-, rfl⟩ | ⟨-, -, rfl⟩ | ⟨-, -, hw⟩⟩⟩ := execWaitf_next h
  · exact faultsInPlace_raise s _
  · exact faultsInPlace_of_sameFault hf (waitAttempt_fault hw)
  · exact faultsInPlace_raise s _
  · exact faultsInPlace_of_sameFault hf (by simp)
  · exact faultsInPlace_of_sameFault hf (waitAttempt_fault hw)

/-- Every command faults in place. An event need not: TICK records itself before its DMA_OVERLAP (R95). -/
theorem exec_command_faultsInPlace {i : Instr} {s t : State} (hi : i.isEvent = false) (h : exec i s = .next t) :
    FaultsInPlace s t := by
  cases i with
  | cmdBegin mode => exact execBegin_faultsInPlace h
  | cmdEnd => exact execEnd_faultsInPlace h
  | cmdClear => exact execClear_faultsInPlace h
  | cmdFbrd off => exact execFbrd_faultsInPlace h
  | cmdFbwr data off => exact execFbwr_faultsInPlace h
  | cmdSethook kind handle => exact execSethook_faultsInPlace h
  | cmdRdreg reg => exact execRdreg_faultsInPlace h
  | cmdPolleq reg value => exact pollAttempt_faultsInPlace h
  | cmdPollne reg value => exact pollAttempt_faultsInPlace h
  | cmdWaitf n => exact execWaitf_faultsInPlace h
  | evBoundary | evCompare | evTick | evHookret | evDmabyte | evDmadone => simp [Instr.isEvent] at hi

end Sys2Proof.Machine

open Sys2Proof Sys2Proof.Machine

/-- Settles O10: `step` asks for the fault first, and so does the guard of every meaning. -/
theorem noStepLeavesAFaultedState : Obligations.NoStepLeavesAFaultedState := fun _ _ h =>
  ⟨step_of_faulted h, exec_of_faulted h⟩

/-- Settles O11: in every branch a command raises a fault on the state it started from, or sets none. -/
theorem faultingCommandChangesOnlyFaultAndHistory : Obligations.FaultingCommandChangesOnlyFaultAndHistory :=
  fun _ _ _ c hi h hc => exec_command_faultsInPlace hi h c hc

end
